-- ==== Sys2Proof/Word.lean ====
section
/-! DEFINITION. The word types of the block: what spec/ stores or reads as bits. -/

namespace Sys2Proof

/-- A 32-bit register, command word or reply word (R22, R90, R102). -/
abbrev Word := BitVec 32

/-- The smallest addressable item of `BMEM` (R60). -/
abbrev Byte := BitVec 8

end Sys2Proof
end

