-- ==== Sys2Proof/Syntax.lean ====
section
/-! DEFINITION. The ten commands of the opcode map (R98), one constructor per row of spec/opcode_table.json. -/

namespace Sys2Proof

/-- One command as presented at the command port: four 32-bit words (R90). -/
structure Command where
  w0 : Word
  w1 : Word
  w2 : Word
  w3 : Word
deriving DecidableEq, Repr

/-- The transform type codes 0 to 3 of R97. -/
inductive TrType where
  | dct2
  | dst7
  | dct8
  | ident
deriving DecidableEq, Repr

/-- The direction of an edge pass (R13): `ver` is vertical edges, `hor` is horizontal edges. -/
inductive Dir where
  | ver
  | hor
deriving DecidableEq, Repr

/-- The operands of `ITX_BLK`, format T (R93). Each field is an unsigned bit range (R96). -/
structure BlkOps where
  trH      : TrType
  trV      : TrType
  log2W    : BitVec 3
  log2H    : BitVec 3
  comp     : BitVec 2
  resOnly  : Bool
  qp       : BitVec 7
  x        : BitVec 16
  y        : BitVec 16
  coefAddr : Word
  resAddr  : Word
deriving DecidableEq, Repr

/-- The operands of `ITX_1D`, format K (R94). -/
structure KernelOps where
  tr      : TrType
  log2N   : BitVec 3
  shift   : BitVec 5
  lines   : BitVec 7
  srcAddr : Word
  dstAddr : Word
deriving DecidableEq, Repr

/-- The commands of R98. -/
inductive Instr where
  | nop
  | cfgWr (reg : BitVec 12) (value : Word)
  | cfgRd (reg : BitVec 12)
  | picStart
  | sreset
  | picEnd
  | itxBlk (ops : BlkOps)
  | itx1d (ops : KernelOps)
  | bsCtu (cx cy : BitVec 16)
  | dbfCtu (dir : Dir) (cx cy : BitVec 16)
deriving DecidableEq, Repr

end Sys2Proof
end

