-- ==== Sys2Proof/WellFormed.lean ====
section
/-! DEFINITION. The reserved field values of R99: an instruction that decodes from its row and holds one of them is
illegal. The must-be-zero bits of R99 are the decoder's (Decode.lean). -/

namespace Sys2Proof

/-- R93, R99: `comp = 3` is reserved, and `resAddr` must be 0 when `resOnly = 0`. -/
def BlkOps.wellFormed (o : BlkOps) : Bool :=
  o.comp != 3 && (o.resOnly || o.resAddr == 0)

/-- R94, R99: `shift = 0`, `lines = 0` and `lines > 64` are reserved. -/
def KernelOps.wellFormed (o : KernelOps) : Bool :=
  o.shift != 0 && o.lines != 0 && decide (o.lines.toNat ≤ 64)

/-- R99: an instruction none of whose fields holds a reserved value. -/
def Instr.wellFormed : Instr → Bool
  | .nop => true
  | .cfgWr _ _ => true
  | .cfgRd _ => true
  | .picStart => true
  | .sreset => true
  | .picEnd => true
  | .itxBlk ops => ops.wellFormed
  | .itx1d ops => ops.wellFormed
  | .bsCtu _ _ => true
  | .dbfCtu _ _ _ => true

end Sys2Proof
end

