-- ==== Sys2Proof/Decode.lean ====
section
/-! DEFINITION. The decoder of R90 to R98, total on every four words and rejecting by name, and after it the encoder,
written from the same field tables. -/

namespace Sys2Proof

/-- Why four words match no row of the opcode map (R99). Both raise `ILLEGAL_CMD` when the block is not faulted. -/
inductive Reject where
  /-- `W0[7:0]` is one of the 246 reserved opcodes. -/
  | unknownOpcode
  /-- A bit that the format of the opcode marks "reserved, must be 0" is 1. -/
  | reservedBit
deriving DecidableEq, Repr

/-- R97. -/
def TrType.ofCode (c : BitVec 2) : TrType :=
  if c = 0 then .dct2 else if c = 1 then .dst7 else if c = 2 then .dct8 else .ident

/-- R97. -/
def TrType.code : TrType → BitVec 2
  | .dct2 => 0
  | .dst7 => 1
  | .dct8 => 2
  | .ident => 3

/-- R95: `dir` is 0 for `VER`, 1 for `HOR`. -/
def Dir.ofBit (b : BitVec 1) : Dir := if b = 0 then .ver else .hor

/-- R95. -/
def Dir.bit : Dir → BitVec 1
  | .ver => 0
  | .hor => 1

/-- The bits `lo .. lo + len - 1` of a word (R11, R96: a contiguous range, read unsigned). -/
def Command.bits (w : Word) (lo len : Nat) : BitVec len := w.extractLsb' lo len

/-- `W0[7:0]`, the opcode in every format (R90). -/
def Command.opcode (c : Command) : BitVec 8 := Command.bits c.w0 0 8

/-- An instruction, unless a must-be-zero bit of its format is set. -/
def rowIf (mustBeZero : Bool) (i : Instr) : Except Reject Instr :=
  if mustBeZero then .ok i else .error .reservedBit

/-- R91: format S has no operand; every bit above the opcode must be 0. -/
def decodeS (c : Command) (i : Instr) : Except Reject Instr :=
  rowIf (Command.bits c.w0 8 24 == 0 && c.w1 == 0 && c.w2 == 0 && c.w3 == 0) i

/-- R92, `CFG_WR`. -/
def decodeCfgWr (c : Command) : Except Reject Instr :=
  rowIf (Command.bits c.w0 20 12 == 0 && c.w2 == 0 && c.w3 == 0) (.cfgWr (Command.bits c.w0 8 12) c.w1)

/-- R92, `CFG_RD`: `W1` too is reserved. -/
def decodeCfgRd (c : Command) : Except Reject Instr :=
  rowIf (Command.bits c.w0 20 12 == 0 && c.w1 == 0 && c.w2 == 0 && c.w3 == 0) (.cfgRd (Command.bits c.w0 8 12))

/-- R93, format T. -/
def decodeItxBlk (c : Command) : Except Reject Instr :=
  rowIf (Command.bits c.w0 28 4 == 0) (.itxBlk
    { trH      := TrType.ofCode (Command.bits c.w0 8 2)
      trV      := TrType.ofCode (Command.bits c.w0 10 2)
      log2W    := Command.bits c.w0 12 3
      log2H    := Command.bits c.w0 15 3
      comp     := Command.bits c.w0 18 2
      resOnly  := Command.bits c.w0 20 1 == 1
      qp       := Command.bits c.w0 21 7
      x        := Command.bits c.w1 0 16
      y        := Command.bits c.w1 16 16
      coefAddr := c.w2
      resAddr  := c.w3 })

/-- R94, format K. -/
def decodeItx1d (c : Command) : Except Reject Instr :=
  rowIf (Command.bits c.w0 25 7 == 0 && c.w1 == 0) (.itx1d
    { tr      := TrType.ofCode (Command.bits c.w0 8 2)
      log2N   := Command.bits c.w0 10 3
      shift   := Command.bits c.w0 13 5
      lines   := Command.bits c.w0 18 7
      srcAddr := c.w2
      dstAddr := c.w3 })

/-- R95, `BS_CTU`: bit 8 is reserved. -/
def decodeBsCtu (c : Command) : Except Reject Instr :=
  rowIf (Command.bits c.w0 8 24 == 0 && c.w2 == 0 && c.w3 == 0)
    (.bsCtu (Command.bits c.w1 0 16) (Command.bits c.w1 16 16))

/-- R95, `DBF_CTU`: bit 8 is `dir`. -/
def decodeDbfCtu (c : Command) : Except Reject Instr :=
  rowIf (Command.bits c.w0 9 23 == 0 && c.w2 == 0 && c.w3 == 0)
    (.dbfCtu (Dir.ofBit (Command.bits c.w0 8 1)) (Command.bits c.w1 0 16) (Command.bits c.w1 16 16))

/-- The opcode map of R98: the row whose opcode is `W0[7:0]`, then the must-be-zero bits of its format. -/
def decode (c : Command) : Except Reject Instr :=
  if c.opcode = 0x00 then decodeS c .nop
  else if c.opcode = 0x01 then decodeCfgWr c
  else if c.opcode = 0x02 then decodeCfgRd c
  else if c.opcode = 0x03 then decodeS c .picStart
  else if c.opcode = 0x04 then decodeS c .sreset
  else if c.opcode = 0x05 then decodeS c .picEnd
  else if c.opcode = 0x10 then decodeItxBlk c
  else if c.opcode = 0x11 then decodeItx1d c
  else if c.opcode = 0x20 then decodeBsCtu c
  else if c.opcode = 0x30 then decodeDbfCtu c
  else .error .unknownOpcode

/-- R95: `W1` of format C. -/
def ctuWord (cx cy : BitVec 16) : Word := cy ++ cx

/-- R93: `W0` of format T, most significant field first. -/
def BlkOps.word0 (o : BlkOps) : Word :=
  0#4 ++ o.qp ++ BitVec.ofBool o.resOnly ++ o.comp ++ o.log2H ++ o.log2W ++ o.trV.code ++ o.trH.code ++ 0x10#8

/-- R94: `W0` of format K, most significant field first. -/
def KernelOps.word0 (o : KernelOps) : Word :=
  0#7 ++ o.lines ++ o.shift ++ o.log2N ++ o.tr.code ++ 0x11#8

/-- The four words of an instruction (R91 to R95). -/
def encode : Instr → Command
  | .nop => ⟨0x00, 0, 0, 0⟩
  | .cfgWr reg value => ⟨0#12 ++ reg ++ 0x01#8, value, 0, 0⟩
  | .cfgRd reg => ⟨0#12 ++ reg ++ 0x02#8, 0, 0, 0⟩
  | .picStart => ⟨0x03, 0, 0, 0⟩
  | .sreset => ⟨0x04, 0, 0, 0⟩
  | .picEnd => ⟨0x05, 0, 0, 0⟩
  | .itxBlk o => ⟨o.word0, o.y ++ o.x, o.coefAddr, o.resAddr⟩
  | .itx1d o => ⟨o.word0, 0, o.srcAddr, o.dstAddr⟩
  | .bsCtu cx cy => ⟨0x20, ctuWord cx cy, 0, 0⟩
  | .dbfCtu dir cx cy => ⟨0#23 ++ dir.bit ++ 0x30#8, ctuWord cx cy, 0, 0⟩

/-- The four words of a 128-bit number, bit `i` of `Wj` being its bit `32 j + i` (R90). -/
def Command.ofNat (w : Nat) : Command :=
  ⟨BitVec.ofNat 32 w, BitVec.ofNat 32 (w / 2 ^ 32), BitVec.ofNat 32 (w / 2 ^ 64), BitVec.ofNat 32 (w / 2 ^ 96)⟩

/-- The command whose low `nbits` bits are those of `w` and whose other bits are 0. -/
def tableCommand (nbits w : Nat) : Command := Command.ofNat (w % 2 ^ nbits)

/-- The instruction the decoder reads from a table word, bits numbered as spec/opcode_table.json numbers them. -/
def decodeTableWord (nbits w : Nat) : Option Instr := (decode (tableCommand nbits w)).toOption

end Sys2Proof
end

