-- ==== Sys2Proof/Machine/Arith.lean ====
section
/-! DEFINITION. The integer operators of R10 and the bit-field helpers of R11. Data values are exact integers (R9,
R177); a width applies only where a value is stored. -/

namespace Sys2Proof.Machine

/-- `a >> n` of R10: the arithmetic right shift, floor (a / 2^n). -/
def asr (a : Int) (n : Nat) : Int := a / ((2 ^ n : Nat) : Int)

/-- `a << n` of R10: a * 2^n. -/
def shl (a : Int) (n : Nat) : Int := a * ((2 ^ n : Nat) : Int)

/-- `clip3(lo, hi, v)` of R10. -/
def clip3 (lo hi v : Int) : Int := if v < lo then lo else if hi < v then hi else v

/-- `clip16(v)` of R10. -/
def clip16 (v : Int) : Int := clip3 (-32768) 32767 v

/-- `clipPix(v)` of R10 at a bit depth. -/
def clipPix (bitDepth : Nat) (v : Int) : Int := clip3 0 (((2 ^ bitDepth : Nat) : Int) - 1) v

/-- `w[hi:lo]` of R11, on the unsigned value of the word. -/
def field (w hi lo : Nat) : Nat := w / 2 ^ lo % 2 ^ (hi + 1 - lo)

/-- One bit of a word as a flag. -/
def flag (w i : Nat) : Bool := field w i i == 1

/-- `sext_n(v)` of R11. -/
def sext (n v : Nat) : Int := if 2 ^ (n - 1) ≤ v then (v : Int) - ((2 ^ n : Nat) : Int) else v

/-- A table entry; every index a rule forms is inside its table (R132; log entry 15). -/
def tableAt (t : List Nat) (i : Nat) : Nat := t.getD i 0

end Sys2Proof.Machine
end

