-- ==== Sys2Proof/Config.lean ====
section
/-! DEFINITION. What is fixed per instance of the hardware: the OPEN parameters of R8 as one record of plain data, the
constraints an instantiation meets, and the one free value, the contents of `BMEM` at power-on.
Log entries 2 to 5, 20 and 21. -/

namespace Sys2Proof

/-- A basis matrix: row `k` is the `k`-th basis function, column `n` the sample position (R122). -/
abbrev BasisMatrix := List (List Int)

/-- The parameters R8 marks OPEN. The model takes them as data carried in `State` and changed by no step, so that what
is said of every state is said of every instantiation (log entry 2). -/
structure Config where
  /-- `BMEM_SIZE`, bytes of buffer memory. -/
  bmemSize : Nat
  /-- `MAX_PIC_W`. -/
  maxPicW : Nat
  /-- `MAX_PIC_H`. -/
  maxPicH : Nat
  /-- `HAS_LADF`. -/
  hasLadf : Bool
  /-- `STRONG_CLIP = (c0, c1, c2)`. -/
  strongClip : Nat × Nat × Nat
  /-- `BASIS`, family `DCT2`: the matrices for N = 2, 4, 8, 16, 32, 64, in this order. -/
  dct2 : List BasisMatrix
  /-- `BASIS`, family `DST7`: the matrices for N = 4, 8, 16, 32. -/
  dst7 : List BasisMatrix
  /-- `BASIS`, family `DCT8`: the matrices for N = 4, 8, 16, 32. -/
  dct8 : List BasisMatrix
  /-- `TC_TABLE`, 66 entries. DESIGN CHOICE: natural numbers, the spec gives no sign and no range (log entry 21). -/
  tcTable : List Nat
  /-- `BETA_TABLE`, 64 entries. DESIGN CHOICE: natural numbers, as for `TC_TABLE` (log entry 21). -/
  betaTable : List Nat
  /-- `CHROMA_QP_MAP`, 64 entries. DESIGN CHOICE: any integers, the spec gives no sign and no range (log entry 21). -/
  chromaQpMap : List Int
  /-- `DEQ_SCALE`, row 0 and row 1 of 6 entries each. DESIGN CHOICE: natural numbers, as for `TC_TABLE` (log entry 21). -/
  deqScale0 : List Nat
  deqScale1 : List Nat
deriving DecidableEq, Repr

namespace Config

/-- A square matrix of size `n` whose entries lie in [-91, 91] (R122). -/
def matrixValid (n : Nat) (m : BasisMatrix) : Bool :=
  m.length == n && m.all fun row => row.length == n && row.all fun t => decide (-91 ≤ t) && decide (t ≤ 91)

/-- The matrices for `first`, `2 * first`, `4 * first`, ... each of its size. -/
def familyValid : Nat → List BasisMatrix → Bool
  | _, [] => true
  | n, m :: ms => matrixValid n m && familyValid (2 * n) ms

/-- R121 (a): `T[i] <= T[i + 1]` for every `i`. -/
def monotonic : List Nat → Bool
  | a :: b :: rest => decide (a ≤ b) && monotonic (b :: rest)
  | _ => true

/-- The constraints any instantiation meets (R8, R121 a and b, R122 and the table shapes of R128 to R131). DESIGN CHOICE:
of `CHROMA_QP_MAP` only its 64 entries are demanded; the spec gives no test of the "coarser" of R121 (c) (log entry 20). -/
def valid (c : Config) : Bool :=
  c.bmemSize % 32 == 0 && decide (c.bmemSize ≤ 2 ^ 32)
    && c.maxPicW % 8 == 0 && c.maxPicH % 8 == 0
    && [1, 2].contains c.strongClip.1 && [1, 2].contains c.strongClip.2.1 && [1, 2].contains c.strongClip.2.2
    && c.dct2.length == 6 && familyValid 2 c.dct2
    && c.dst7.length == 4 && familyValid 4 c.dst7
    && c.dct8.length == 4 && familyValid 4 c.dct8
    && c.tcTable.length == 66 && monotonic c.tcTable
    && c.betaTable.length == 64 && monotonic c.betaTable
    && c.chromaQpMap.length == 64
    && c.deqScale0.length == 6 && c.deqScale1.length == 6

/-- FREE VALUE (R44, R310: after power-on every byte of `BMEM` holds an arbitrary value): what the byte at an address
holds after the `epoch`-th power-on until it is written. It has no body, so no proof knows it. Log entry 5. -/
opaque powerOnByte (epoch addr : Nat) : Byte

end Config

end Sys2Proof
end

