-- ==== Sys2Proof/Machine/Tables.lean ====
section
/-! DEFINITION. The default values of the OPEN parameters: the tables of spec/40_lookup_tables.md and the defaults of
R8. Every number is the spec's default, which the spec marks as general knowledge (log entry 4); `BMEM_SIZE` has no
default in R8 (log entry 3). -/

namespace Sys2Proof.Machine

/-- R123: the array that defines the DCT-II matrices. -/
def c64 : List Nat :=
  [64, 91, 90, 90, 90, 90, 90, 90, 89, 88, 88, 87, 87, 86, 85, 84]
    ++ [83, 83, 82, 81, 80, 79, 78, 77, 75, 73, 73, 71, 70, 69, 67, 65]
    ++ [64, 62, 61, 59, 57, 56, 54, 52, 50, 48, 46, 44, 43, 41, 38, 37]
    ++ [36, 33, 31, 28, 25, 24, 22, 20, 18, 15, 13, 11, 9, 7, 4, 2]

/-- R123: entry (k, n) of the N-point DCT-II matrix. -/
def dct2Entry (size k n : Nat) : Int :=
  let angle := (2 * n + 1) * k * (64 / size) % 256
  let theta := if angle > 128 then 256 - angle else angle
  if theta < 64 then (c64.getD theta 0 : Int) else -(c64.getD (128 - theta) 0 : Int)

/-- R125: the first row of the N-point DST-VII matrix. -/
def s7 (size : Nat) : List Nat :=
  if size = 4 then [29, 55, 74, 84]
  else if size = 8 then [17, 32, 46, 60, 71, 78, 85, 86]
  else if size = 16 then [8, 17, 25, 33, 40, 48, 55, 62, 68, 73, 77, 81, 85, 87, 88, 88]
  else if size = 32 then
    [4, 9, 13, 17, 21, 26, 30, 34, 38, 42, 45, 50, 53, 56, 60, 63]
      ++ [66, 68, 72, 74, 77, 78, 80, 82, 84, 85, 86, 88, 88, 89, 90, 90]
  else []

/-- R125: entry (i, j) of the N-point DST-VII matrix. -/
def dst7Entry (size i j : Nat) : Int :=
  let m := 2 * size + 1
  let angle := (2 * i + 1) * (j + 1) % (2 * m)
  let negative := decide (angle > m)
  let a := if negative then angle - m else angle
  if a = 0 ∨ a = m then 0
  else
    let b := if a > size then m - a else a
    let v : Int := ((s7 size).getD (b - 1) 0 : Nat)
    if negative then -v else v

/-- R127: entry (i, j) of the N-point DCT-VIII matrix. -/
def dct8Entry (size i j : Nat) : Int :=
  if i % 2 = 0 then dst7Entry size i (size - 1 - j) else -(dst7Entry size i (size - 1 - j))

/-- The N-point matrix with the given entries, row by row. -/
def matrixOf (entry : Nat → Nat → Nat → Int) (size : Nat) : BasisMatrix :=
  (List.range size).map fun k => (List.range size).map fun n => entry size k n

/-- R128, for a bit depth of 10. -/
def defaultTc : List Nat :=
  [0, 0, 0, 0, 0, 0, 0, 0, 0, 0, 0]
    ++ [0, 0, 0, 0, 0, 0, 0, 3, 4, 4, 4]
    ++ [4, 5, 5, 5, 5, 7, 7, 8, 9, 10, 10]
    ++ [11, 13, 14, 15, 17, 19, 21, 24, 25, 29, 33]
    ++ [36, 41, 45, 51, 57, 64, 71, 80, 89, 100, 112]
    ++ [125, 141, 157, 177, 198, 222, 250, 280, 314, 352, 395]

/-- R129, for a bit depth of 8. -/
def defaultBeta : List Nat :=
  [0, 0, 0, 0, 0, 0, 0, 0, 0, 0, 0, 0, 0, 0, 0, 0]
    ++ [6, 7, 8, 9, 10, 11, 12, 13, 14, 15, 16, 17, 18, 20, 22, 24]
    ++ [26, 28, 30, 32, 34, 36, 38, 40, 42, 44, 46, 48, 50, 52, 54, 56]
    ++ [58, 60, 62, 64, 66, 68, 70, 72, 74, 76, 78, 80, 82, 84, 86, 88]

/-- R130. -/
def defaultChromaQp : List Int :=
  ((List.range 30).map fun i => (i : Int)) ++ [29, 30, 31, 32, 33, 33, 34, 34, 35, 35, 36, 36, 37, 37]
    ++ (List.range' 44 20).map fun i => (i : Int) - 6

/-- The defaults of R8 and of R123 to R131, with `BMEM_SIZE = 0x4000` (log entries 3 and 4). -/
def defaultConfig : Config where
  bmemSize    := 0x4000
  maxPicW     := 8192
  maxPicH     := 8192
  hasLadf     := true
  strongClip  := (2, 2, 1)
  dct2        := [2, 4, 8, 16, 32, 64].map (matrixOf dct2Entry)
  dst7        := [4, 8, 16, 32].map (matrixOf dst7Entry)
  dct8        := [4, 8, 16, 32].map (matrixOf dct8Entry)
  tcTable     := defaultTc
  betaTable   := defaultBeta
  chromaQpMap := defaultChromaQp
  deqScale0   := [40, 45, 51, 57, 64, 72]
  deqScale1   := [57, 64, 72, 80, 90, 102]

end Sys2Proof.Machine
end

