-- ==== Sys2Proof/Machine/State.lean ====
section
/-! DEFINITION. The state of the block (R6): registers, the per-CTU `PHASE`, the fault record, `BMEM`; and, beside the
spec's state, the host's moves to come, the latched command, the last reply and the instance's parameters. -/

namespace Sys2Proof.Machine

/-- The progress of one CTU (R38), in the order of its numbers 0 to 3. -/
inductive Phase where
  | idle
  | bsDone
  | verDone
  | horDone
deriving DecidableEq, Repr

/-- The reply to a command (R102). -/
structure Reply where
  r0 : Word
  r1 : Word
deriving DecidableEq, Repr

/-- What the host, or the outside world, does next (R5). The host acts between commands only (R80). Log entry 1. -/
inductive HostMove where
  /-- Present a command at the command port (R2). -/
  | present (c : Command)
  /-- Store one byte in `BMEM` (R74, R75). -/
  | store (addr : Nat) (b : Byte)
  /-- A hardware reset: power-on or the external reset input (R310). -/
  | powerOn
deriving DecidableEq, Repr

/-- `BMEM` (R60). `cells` lists the bytes written since the last power-on, in rising order of address; a byte not listed
holds `Config.powerOnByte epoch` of its address (R44). Log entries 5 and 6. -/
structure Memory where
  epoch : Nat
  cells : List Host.Cell
deriving DecidableEq, Repr

/-- The read-write registers of R24 to R36, each under its own name. -/
structure Regs where
  ctrl         : Word
  picSize      : Word
  format       : Word
  qpOffs       : Word
  vbCfg        : Word
  vbX0         : Word
  vbX1         : Word
  vbX2         : Word
  vbY0         : Word
  vbY1         : Word
  vbY2         : Word
  planeBase0   : Word
  planeBase1   : Word
  planeBase2   : Word
  planeStride0 : Word
  planeStride1 : Word
  planeStride2 : Word
  metaBase     : Word
  metaStride   : Word
  lfpBase      : Word
  ladfCfg      : Word
  ladfOffsA    : Word
  ladfOffsB    : Word
  ladfThresh1  : Word
  ladfThresh2  : Word
  ladfThresh3  : Word
  ladfThresh4  : Word
deriving DecidableEq, Repr

/-- The machine. -/
structure State where
  /-- The OPEN parameters of R8; no step changes them (log entry 2). -/
  config     : Config
  /-- The moves still to come from outside, first one next (log entry 1). -/
  host       : List HostMove
  /-- The operand latches `W0 .. W3` (R20, R78). -/
  latch      : Command
  /-- The last reply (R102); none before the first command after a hardware reset. -/
  reply      : Option Reply
  /-- The read-write registers. -/
  regs       : Regs
  /-- `PHASE` (R38): the CTU indices whose phase is not `IDLE`, rising. -/
  phase      : List (Nat × Phase)
  /-- `STATUS.PIC_ACTIVE` (R39). -/
  picActive  : Bool
  /-- `STATUS.FAULTED` (R39). -/
  faulted    : Bool
  /-- `FAULT_CAUSE.CODE` (R23). -/
  faultCause : BitVec 8
  /-- `FAULT_INFO` (R23). -/
  faultInfo  : Word
  /-- `FAULT_W0` (R23). -/
  faultW0    : Word
  /-- `CMD_COUNT` (R23, R40). -/
  cmdCount   : Word
  /-- `BMEM`. -/
  memory     : Memory
deriving DecidableEq, Repr

/-- Why a step stops. No command of this hardware stops it: every violation the spec describes is a fault entry of
R290, which is a next state (R322). -/
inductive Fault where
  /-- Raised by `step` for a host move `store` at an address at or above `BMEM_SIZE`, where R60 says there is no memory.
  Safe: the hardware has no such move. Log entry 10. -/
  | hostStoreOutsideBmem (addr : Nat)
deriving DecidableEq, Repr

/-- Why the model has no meaning for an instruction. -/
inductive Refusal where
  /-- Raised by an arm of `exec` that has no meaning yet; no arm of this model raises it. Safe. -/
  | notModelled (mnemonic : String)
deriving DecidableEq, Repr

/-- The reset values of the read-write registers (R44). -/
def Regs.reset : Regs where
  ctrl         := 0
  picSize      := 0
  format       := 0x580
  qpOffs       := 0
  vbCfg        := 0
  vbX0         := 0
  vbX1         := 0
  vbX2         := 0
  vbY0         := 0
  vbY1         := 0
  vbY2         := 0
  planeBase0   := 0
  planeBase1   := 0
  planeBase2   := 0
  planeStride0 := 0
  planeStride1 := 0
  planeStride2 := 0
  metaBase     := 0
  metaStride   := 0
  lfpBase      := 0
  ladfCfg      := 1
  ladfOffsA    := 0
  ladfOffsB    := 0
  ladfThresh1  := 0
  ladfThresh2  := 0
  ladfThresh3  := 0
  ladfThresh4  := 0

/-- The state after a hardware reset (R44, R310), nothing presented and no byte of `BMEM` written. -/
def State.reset : State where
  config     := defaultConfig
  host       := []
  latch      := ⟨0, 0, 0, 0⟩
  reply      := none
  regs       := Regs.reset
  phase      := []
  picActive  := false
  faulted    := false
  faultCause := 0
  faultInfo  := 0
  faultW0    := 0
  cmdCount   := 0
  memory     := ⟨0, []⟩

end Sys2Proof.Machine
end

