-- ==== Sys2Proof/Machine/Ops.lean ====
section
/-! DEFINITION. The shared operations: sparse lists, `BMEM` access (R12, R61 to R63), the `PHASE` array, the reply
(R102), FAULT ENTRY AND REFUSAL (R290, R291) and the way out of the faulted state (R292: reset, R310), and the shape every
command has (R288: ordered checks, then the effect). -/

namespace Sys2Proof.Machine

/-! ## Lists of (key, value) pairs in rising order of key -/

/-- The value listed at a key. -/
def valueAt {α : Type} (k : Nat) : List (Nat × α) → Option α
  | [] => none
  | (j, v) :: rest => if j == k then some v else valueAt k rest

/-- List a value at a key, keeping the keys rising. -/
def putAt {α : Type} (k : Nat) (v : α) : List (Nat × α) → List (Nat × α)
  | [] => [(k, v)]
  | (j, w) :: rest =>
    if k < j then (k, v) :: (j, w) :: rest
    else if j == k then (k, v) :: rest
    else (j, w) :: putAt k v rest

/-- List nothing at a key. -/
def dropAt {α : Type} (k : Nat) : List (Nat × α) → List (Nat × α)
  | [] => []
  | (j, w) :: rest => if j == k then dropAt k rest else (j, w) :: dropAt k rest

/-- The keys rise strictly, so no key is listed twice. -/
abbrev rising {α : Type} (l : List (Nat × α)) : Prop := (l.map Prod.fst).Pairwise (· < ·)

/-! ## `BMEM` -/

/-- The canonical form of a memory: addresses strictly rising. A listed byte is one written since power-on, an unlisted
address holds its power-on contents (`Config.powerOnByte`), so no entry says what an unlisted address says (log entry 6). -/
abbrev Memory.wf (m : Memory) : Prop := rising m.cells

/-- Every listed byte lies in `BMEM` (R60). -/
abbrev Memory.within (size : Nat) (m : Memory) : Prop := ∀ cell ∈ m.cells, cell.1 < size

/-- What an address that is not listed reads as (R44: any value). -/
def Memory.unlisted (m : Memory) (a : Nat) : Byte := Config.powerOnByte m.epoch a

/-- The byte at an address: the one written last, else the power-on contents. -/
def Memory.readByte (m : Memory) (a : Nat) : Byte := (valueAt a m.cells).getD (m.unlisted a)

/-- Store one byte. -/
def Memory.writeByte (m : Memory) (a : Nat) (b : Byte) : Memory := { m with cells := putAt a b m.cells }

/-- `MemRead(addr, n)` of R12: little-endian, the byte at `addr` least significant (R61). -/
def Memory.read (m : Memory) (a : Nat) : Nat → Nat
  | 0 => 0
  | n + 1 => (m.readByte a).toNat + 256 * m.read (a + 1) n

/-- `MemWrite(addr, n, v)` of R12: stores `v mod 2^(8 n)`, little-endian. -/
def Memory.write (m : Memory) (a : Nat) : Nat → Nat → Memory
  | 0, _ => m
  | n + 1, v => (m.writeByte a (BitVec.ofNat 8 v)).write (a + 1) n (v / 256)

/-- `MemReadS16(addr)` of R12. -/
def Memory.readS16 (m : Memory) (a : Nat) : Int := sext 16 (m.read a 2)

/-- `v mod 2^16`, the stored form of a 16-bit value (R68, R177). -/
def half (v : Int) : Nat := (v % 65536).toNat

/-- Consecutive 16-bit values from an address up. -/
def Memory.writeHalves (m : Memory) (a : Nat) : List Int → Memory
  | [] => m
  | v :: vs => (m.write a 2 (half v)).writeHalves (a + 2) vs

/-- Rows of 16-bit values, the first at an address, each next one `stride` bytes further (R66 to R69). -/
def Memory.writeRows (m : Memory) (a stride : Nat) : List (List Int) → Memory
  | [] => m
  | row :: rows => (m.writeHalves a row).writeRows (a + stride) stride rows

/-- Store 16-bit values at their addresses, in order. -/
def Memory.writeEntries (m : Memory) : List (Nat × Nat) → Memory
  | [] => m
  | (a, v) :: rest => (m.write a 2 v).writeEntries rest

/-- `n` unsigned 16-bit values from an address up. -/
def Memory.readHalves (m : Memory) (a n : Nat) : List Int :=
  (List.range n).map fun k => (m.read (a + 2 * k) 2 : Int)

/-- `n` signed 16-bit values from an address up. -/
def Memory.readSigned (m : Memory) (a n : Nat) : List Int :=
  (List.range n).map fun k => m.readS16 (a + 2 * k)

/-! ## State updates -/

/-- The state with another memory. -/
def State.setMemory (m : Memory) (s : State) : State := { s with memory := m }

/-- The state with other read-write registers. -/
def State.setRegs (r : Regs) (s : State) : State := { s with regs := r }

/-- The state with another `PIC_ACTIVE`, every `PHASE` being `IDLE` (R273, R274). -/
def State.setPicture (active : Bool) (s : State) : State := { s with picActive := active, phase := [] }

/-- The phase of a CTU index (R38); an index not listed is `IDLE`. -/
def State.phaseOf (s : State) (i : Nat) : Phase := (valueAt i s.phase).getD .idle

/-- The list of phases after `PHASE[i] <- p`; the `IDLE` ones are not listed. -/
def putPhase (i : Nat) (p : Phase) (l : List (Nat × Phase)) : List (Nat × Phase) :=
  match p with
  | .idle => dropAt i l
  | _ => putAt i p l

/-- `PHASE[i] <- p`. -/
def State.setPhase (i : Nat) (p : Phase) (s : State) : State := { s with phase := putPhase i p s.phase }

/-- The number of a phase, which orders them (R38). -/
def Phase.rank : Phase → Nat
  | .idle => 0
  | .bsDone => 1
  | .verDone => 2
  | .horDone => 3

/-! ## Replies, faults and reset -/

/-- The fault causes of R286. -/
inductive Cause where
  | illegalCmd
  | badReg
  | badValue
  | badKernel
  | badDim
  | badCfg
  | addr
  | order
  | badMeta
  | badLfp
deriving DecidableEq, Repr

/-- The codes of R286. -/
def Cause.code : Cause → BitVec 8
  | .illegalCmd => 1
  | .badReg => 2
  | .badValue => 3
  | .badKernel => 4
  | .badDim => 5
  | .badCfg => 6
  | .addr => 7
  | .order => 8
  | .badMeta => 9
  | .badLfp => 10

/-- The code of a reply that refuses a command while the block is faulted (R291). -/
def refusedCode : BitVec 8 := 11

/-- A fault that a check has found: its cause and the value it records. -/
structure Raised where
  cause : Cause
  info  : Nat
deriving DecidableEq, Repr

/-- `R0` of a reply `FAULT(code)`: bit 0 set, the code in bits 15:8, the rest 0 (R102). -/
def faultWord (code : BitVec 8) : Word := 0#16 ++ code ++ 1#8

/-- Every command but `SRESET` gives its reply and is counted (R40, R102). -/
def State.answer (r0 r1 : Word) (s : State) : State :=
  { s with reply := some ⟨r0, r1⟩, cmdCount := s.cmdCount + 1 }

/-- The fault record of R290, written at once. -/
def State.recordFault (r : Raised) (s : State) : State :=
  { s with
    faulted    := true
    faultCause := r.cause.code
    faultInfo  := BitVec.ofNat 32 r.info
    faultW0    := s.latch.w0 }

/-- FAULT ENTRY (R290): the record, the count and the reply; nothing else changes. -/
def raiseFault (r : Raised) (s : State) : Host.Outcome State Fault Refusal :=
  .next ((s.recordFault r).answer (faultWord r.cause.code) 0)

/-- Refusal in the faulted state (R291): a reply with code 11 and the count; the record stays. -/
def refuseFaulted (s : State) : Host.Outcome State Fault Refusal :=
  .next (s.answer (faultWord refusedCode) 0)

/-- Completion: the reply `OK(v)` (R102), and the count. -/
def replyOk (v : Word) (s : State) : Host.Outcome State Fault Refusal :=
  .next (s.answer 0 v)

/-- The only way out of the faulted state (R292): every register, `PHASE`, `PIC_ACTIVE` and the fault record take their
reset values (R44); the parameters, the host's moves, the latches and `BMEM` stay. No reply yet. -/
def State.resetBlock (s : State) : State :=
  { State.reset with config := s.config, host := s.host, latch := s.latch, memory := s.memory }

/-- A fault if a check fails. -/
def failIf (failed : Bool) (cause : Cause) (info : Nat) : Option Raised :=
  if failed then some ⟨cause, info⟩ else none

/-- The first failing check of a list of checks (R288). -/
def firstRaised : List (Option Raised) → Option Raised
  | [] => none
  | some r :: _ => some r
  | none :: rest => firstRaised rest

/-- The shape of every command but `CFG_RD` and `SRESET` (R288, R289, R291): refused while faulted; else the first failing
check, in order, is the fault, and nothing has been written; else the effect, with the reply `OK`. -/
def runChecked (s : State) (checks : List (Option Raised)) (effect : State) : Host.Outcome State Fault Refusal :=
  if s.faulted then refuseFaulted s
  else
    match firstRaised checks with
    | some r => raiseFault r s
    | none => replyOk 0 effect

/-! ## The moves of the outside world -/

/-- Presentation (R78): the four words are captured in the operand latches. -/
def State.present (c : Command) (rest : List HostMove) (s : State) : State :=
  { s with host := rest, latch := c }

/-- A command that matches no row (R99), or a malformed `SRESET` (R275). -/
def illegalCommand (s : State) : Host.Outcome State Fault Refusal :=
  runChecked s [some ⟨.illegalCmd, s.latch.w0.toNat⟩] s

/-- A host store between commands (R74, R75). Outside `BMEM` there is no byte to store (R60, log entry 10). -/
def hostStore (a : Nat) (b : Byte) (rest : List HostMove) (s : State) : Host.Outcome State Fault Refusal :=
  if a < s.config.bmemSize then .next { s with host := rest, memory := s.memory.writeByte a b }
  else .fault (.hostStoreOutsideBmem a)

/-- A hardware reset (R310): registers as after `SRESET`; no reply; every byte of `BMEM` arbitrary again. -/
def State.powerOn (rest : List HostMove) (s : State) : State :=
  { State.reset with config := s.config, host := rest, memory := ⟨s.memory.epoch + 1, []⟩ }

end Sys2Proof.Machine
end

