-- ==== Sys2Proof/Machine/Operands.lean ====
section
/-! DEFINITION. What the commands' operands select: registers by number (R22 to R36), their fields, the derived names of
R13, planes and samples (R66), `META` records (R70, R71) and `LFP` entries (R72, R73). -/

namespace Sys2Proof.Machine

/-! ## The register space -/

/-- The registers of R23 to R36 by name. -/
inductive Reg where
  | id
  | cap
  | status
  | faultCause
  | faultInfo
  | cmdCount
  | faultW0
  | ctrl
  | picSize
  | format
  | qpOffs
  | vbCfg
  | vbX0
  | vbX1
  | vbX2
  | vbY0
  | vbY1
  | vbY2
  | planeBase0
  | planeBase1
  | planeBase2
  | planeStride0
  | planeStride1
  | planeStride2
  | metaBase
  | metaStride
  | lfpBase
  | ladfCfg
  | ladfOffsA
  | ladfOffsB
  | ladfThresh1
  | ladfThresh2
  | ladfThresh3
  | ladfThresh4
deriving DecidableEq, Repr

/-- The register map of R23 to R36. -/
def regMap : List (Nat × Reg) :=
  [(0x000, .id), (0x001, .cap), (0x002, .status), (0x003, .faultCause), (0x004, .faultInfo), (0x005, .cmdCount),
    (0x006, .faultW0)]
  ++ [(0x010, .ctrl), (0x011, .picSize), (0x012, .format), (0x013, .qpOffs), (0x014, .vbCfg)]
  ++ [(0x015, .vbX0), (0x016, .vbX1), (0x017, .vbX2), (0x018, .vbY0), (0x019, .vbY1), (0x01A, .vbY2)]
  ++ [(0x020, .planeBase0), (0x021, .planeBase1), (0x022, .planeBase2)]
  ++ [(0x024, .planeStride0), (0x025, .planeStride1), (0x026, .planeStride2)]
  ++ [(0x028, .metaBase), (0x029, .metaStride), (0x02A, .lfpBase)]
  ++ [(0x030, .ladfCfg), (0x031, .ladfOffsA), (0x032, .ladfOffsB)]
  ++ [(0x033, .ladfThresh1), (0x034, .ladfThresh2), (0x035, .ladfThresh3), (0x036, .ladfThresh4)]

/-- The `LADF_*` registers, which exist only when `HAS_LADF = 1` (R34). -/
def Reg.isLadf : Reg → Bool
  | .ladfCfg | .ladfOffsA | .ladfOffsB | .ladfThresh1 | .ladfThresh2 | .ladfThresh3 | .ladfThresh4 => true
  | _ => false

/-- The registers 0x000 to 0x00F (R22). -/
def Reg.readOnly : Reg → Bool
  | .id | .cap | .status | .faultCause | .faultInfo | .cmdCount | .faultW0 => true
  | _ => false

/-- The geometry class (R37). -/
def Reg.geometry : Reg → Bool
  | .picSize | .format | .vbCfg | .vbX0 | .vbX1 | .vbX2 | .vbY0 | .vbY1 | .vbY2 => true
  | .planeBase0 | .planeBase1 | .planeBase2 | .planeStride0 | .planeStride1 | .planeStride2 => true
  | .metaBase | .metaStride | .lfpBase => true
  | _ => false

/-- The register a number holds in this instance, if any (R22, R34). -/
def regOf (cfg : Config) (n : BitVec 12) : Option Reg :=
  match valueAt n.toNat regMap with
  | some r => if r.isLadf && !cfg.hasLadf then none else some r
  | none => none

/-- A read-write register's value; the read-only registers are not here. -/
def Regs.get (g : Regs) : Reg → Word
  | .ctrl => g.ctrl
  | .picSize => g.picSize
  | .format => g.format
  | .qpOffs => g.qpOffs
  | .vbCfg => g.vbCfg
  | .vbX0 => g.vbX0
  | .vbX1 => g.vbX1
  | .vbX2 => g.vbX2
  | .vbY0 => g.vbY0
  | .vbY1 => g.vbY1
  | .vbY2 => g.vbY2
  | .planeBase0 => g.planeBase0
  | .planeBase1 => g.planeBase1
  | .planeBase2 => g.planeBase2
  | .planeStride0 => g.planeStride0
  | .planeStride1 => g.planeStride1
  | .planeStride2 => g.planeStride2
  | .metaBase => g.metaBase
  | .metaStride => g.metaStride
  | .lfpBase => g.lfpBase
  | .ladfCfg => g.ladfCfg
  | .ladfOffsA => g.ladfOffsA
  | .ladfOffsB => g.ladfOffsB
  | .ladfThresh1 => g.ladfThresh1
  | .ladfThresh2 => g.ladfThresh2
  | .ladfThresh3 => g.ladfThresh3
  | .ladfThresh4 => g.ladfThresh4
  | .id | .cap | .status | .faultCause | .faultInfo | .cmdCount | .faultW0 => 0

/-- `cfg[reg] <- v` for a read-write register: the whole register is written (R271). -/
def Regs.set (g : Regs) (v : Word) : Reg → Regs
  | .ctrl => { g with ctrl := v }
  | .picSize => { g with picSize := v }
  | .format => { g with format := v }
  | .qpOffs => { g with qpOffs := v }
  | .vbCfg => { g with vbCfg := v }
  | .vbX0 => { g with vbX0 := v }
  | .vbX1 => { g with vbX1 := v }
  | .vbX2 => { g with vbX2 := v }
  | .vbY0 => { g with vbY0 := v }
  | .vbY1 => { g with vbY1 := v }
  | .vbY2 => { g with vbY2 := v }
  | .planeBase0 => { g with planeBase0 := v }
  | .planeBase1 => { g with planeBase1 := v }
  | .planeBase2 => { g with planeBase2 := v }
  | .planeStride0 => { g with planeStride0 := v }
  | .planeStride1 => { g with planeStride1 := v }
  | .planeStride2 => { g with planeStride2 := v }
  | .metaBase => { g with metaBase := v }
  | .metaStride => { g with metaStride := v }
  | .lfpBase => { g with lfpBase := v }
  | .ladfCfg => { g with ladfCfg := v }
  | .ladfOffsA => { g with ladfOffsA := v }
  | .ladfOffsB => { g with ladfOffsB := v }
  | .ladfThresh1 => { g with ladfThresh1 := v }
  | .ladfThresh2 => { g with ladfThresh2 := v }
  | .ladfThresh3 => { g with ladfThresh3 := v }
  | .ladfThresh4 => { g with ladfThresh4 := v }
  | .id | .cap | .status | .faultCause | .faultInfo | .cmdCount | .faultW0 => g

/-- The values legal in a read-write register: the table of R271 (reserved bits 0, every field legal). -/
def legalValue (cfg : Config) (r : Reg) (value : Word) : Bool :=
  let v := value.toNat
  match r with
  | .ctrl => field v 31 4 == 0 && (cfg.hasLadf || !flag v 3)
  | .picSize =>
    field v 15 0 % 8 == 0 && decide (field v 15 0 ≤ cfg.maxPicW)
      && field v 31 16 % 8 == 0 && decide (field v 31 16 ≤ cfg.maxPicH)
  | .format =>
    field v 3 2 == 0 && field v 31 11 == 0
      && decide (8 ≤ field v 7 4) && decide (field v 7 4 ≤ 12)
      && decide (5 ≤ field v 10 8) && decide (field v 10 8 ≤ 7)
  | .qpOffs => true
  | .vbCfg => field v 31 4 == 0
  | .vbX0 | .vbX1 | .vbX2 | .vbY0 | .vbY1 | .vbY2 => field v 31 16 == 0 && field v 15 0 % 8 == 0
  | .planeBase0 | .planeBase1 | .planeBase2 => v % 2 == 0
  | .planeStride0 | .planeStride1 | .planeStride2 => v % 2 == 0
  | .metaBase | .metaStride => v % 32 == 0
  | .lfpBase => v % 2 == 0
  | .ladfCfg => field v 31 3 == 0 && decide (1 ≤ field v 2 0) && decide (field v 2 0 ≤ 5)
  | .ladfOffsA => true
  | .ladfOffsB => field v 31 8 == 0
  | .ladfThresh1 | .ladfThresh2 | .ladfThresh3 | .ladfThresh4 => field v 31 16 == 0
  | .id | .cap | .status | .faultCause | .faultInfo | .cmdCount | .faultW0 => false

/-! ## Fields of the registers -/

/-- `CTRL.DBF_EN` (R24). -/
def State.dbfEn (s : State) : Bool := flag s.regs.ctrl.toNat 0
/-- `CTRL.CROSS_VB_EN` (R24). -/
def State.crossVbEn (s : State) : Bool := flag s.regs.ctrl.toNat 1
/-- `CTRL.CROSS_TILE_EN` (R24). -/
def State.crossTileEn (s : State) : Bool := flag s.regs.ctrl.toNat 2
/-- `CTRL.LADF_EN` (R24). -/
def State.ladfEn (s : State) : Bool := flag s.regs.ctrl.toNat 3
/-- `W` of R13. -/
def State.picW (s : State) : Nat := field s.regs.picSize.toNat 15 0
/-- `H` of R13. -/
def State.picH (s : State) : Nat := field s.regs.picSize.toNat 31 16
/-- `FORMAT.CHROMA` (R26). -/
def State.chroma (s : State) : Nat := field s.regs.format.toNat 1 0
/-- `bitDepth` of R13. -/
def State.bitDepth (s : State) : Nat := field s.regs.format.toNat 7 4
/-- `C` of R13, the CTU size in luma samples. -/
def State.ctuSize (s : State) : Nat := 2 ^ field s.regs.format.toNat 10 8
/-- `U` of R13, the 4-sample units per CTU side. -/
def State.units (s : State) : Nat := s.ctuSize / 4
/-- `ctusW` of R13. -/
def State.ctusW (s : State) : Nat := (s.picW + s.ctuSize - 1) / s.ctuSize
/-- `ctusH` of R13. -/
def State.ctusH (s : State) : Nat := (s.picH + s.ctuSize - 1) / s.ctuSize
/-- `ctuIdx(cx, cy)` of R13. -/
def State.ctuIdx (s : State) (cx cy : Nat) : Nat := cy * s.ctusW + cx
/-- The signed byte fields of `QP_OFFS` (R27). -/
def State.betaOffset (s : State) : Int := sext 8 (field s.regs.qpOffs.toNat 7 0)
def State.tcOffset (s : State) : Int := sext 8 (field s.regs.qpOffs.toNat 15 8)
def State.cbQpOffset (s : State) : Int := sext 8 (field s.regs.qpOffs.toNat 23 16)
def State.crQpOffset (s : State) : Int := sext 8 (field s.regs.qpOffs.toNat 31 24)

/-- The vertical virtual boundaries in use: `VB_Xi.POS` for `i < NUM_X` (R28, R29). -/
def State.vbColumns (s : State) : List Nat :=
  ([s.regs.vbX0, s.regs.vbX1, s.regs.vbX2].map fun r => field r.toNat 15 0).take (field s.regs.vbCfg.toNat 1 0)

/-- The horizontal virtual boundaries in use: `VB_Yi.POS` for `i < NUM_Y` (R28, R29). -/
def State.vbRows (s : State) : List Nat :=
  ([s.regs.vbY0, s.regs.vbY1, s.regs.vbY2].map fun r => field r.toNat 15 0).take (field s.regs.vbCfg.toNat 3 2)

/-- `LADF_CFG.NUM_INTERVALS` (R34). -/
def State.ladfIntervals (s : State) : Nat := field s.regs.ladfCfg.toNat 2 0

/-- `LADF_OFFSET[k]` (R35). -/
def State.ladfOffset (s : State) (k : Nat) : Int :=
  if k < 4 then sext 8 (field s.regs.ladfOffsA.toNat (8 * k + 7) (8 * k))
  else sext 8 (field s.regs.ladfOffsB.toNat 7 0)

/-- `LADF_THRESH[k]`, `1 <= k <= 4` (R36). -/
def State.ladfThresh (s : State) (k : Nat) : Nat :=
  field (([s.regs.ladfThresh1, s.regs.ladfThresh2, s.regs.ladfThresh3, s.regs.ladfThresh4].getD (k - 1) 0).toNat) 15 0

/-! ## Planes and samples -/

/-- The planes: 0 is Y, 1 is Cb, 2 is Cr (R13). -/
inductive Plane where
  | y
  | cb
  | cr
deriving DecidableEq, Repr

/-- The plane of a `comp` code; code 3 is reserved and never used (R93, R99; log entry 16). -/
def Plane.ofCode (c : BitVec 2) : Plane := if c = 0 then .y else if c = 1 then .cb else .cr

/-- The number of a plane. -/
def Plane.index : Plane → Nat
  | .y => 0
  | .cb => 1
  | .cr => 2

/-- `sx` of R13 for a chroma format. -/
def subX (chroma : Nat) : Nat := if chroma = 1 ∨ chroma = 2 then 1 else 0
/-- `sy` of R13 for a chroma format. -/
def subY (chroma : Nat) : Nat := if chroma = 1 then 1 else 0

/-- The subsampling shifts of a plane: 0 for luma (R13, R191). -/
def State.shiftX (s : State) (c : Plane) : Nat := if c = .y then 0 else subX s.chroma
def State.shiftY (s : State) (c : Plane) : Nat := if c = .y then 0 else subY s.chroma

/-- `Wc` and `Hc` of R13. -/
def State.planeW (s : State) (c : Plane) : Nat := s.picW / 2 ^ s.shiftX c
def State.planeH (s : State) (c : Plane) : Nat := s.picH / 2 ^ s.shiftY c

/-- `cfg[PLANE_BASE_c]` (R30). -/
def State.planeBase (s : State) : Plane → Nat
  | .y => s.regs.planeBase0.toNat
  | .cb => s.regs.planeBase1.toNat
  | .cr => s.regs.planeBase2.toNat

/-- `cfg[PLANE_STRIDE_c]` (R31). -/
def State.planeStride (s : State) : Plane → Nat
  | .y => s.regs.planeStride0.toNat
  | .cb => s.regs.planeStride1.toNat
  | .cr => s.regs.planeStride2.toNat

/-- The planes in use: 0, and 1 and 2 when `FORMAT.CHROMA != 0` (R273). -/
def State.planesInUse (s : State) : List Plane := if s.chroma = 0 then [.y] else [.y, .cb, .cr]

/-- The address of sample (x, y) of a plane (R66). -/
def State.pixAddr (s : State) (c : Plane) (x y : Nat) : Nat := s.planeBase c + y * s.planeStride c + 2 * x

/-- `Pix(c, x, y)` of R13: unsigned, used as stored (R66). -/
def State.pix (s : State) (c : Plane) (x y : Nat) : Int := (s.memory.read (s.pixAddr c x y) 2 : Int)

/-! ## The regions a picture lies in -/

/-- A half-open byte range `[base, stop)` with the number of its base register (R273 d). -/
structure Region where
  base : Nat
  stop : Nat
  reg  : Nat
deriving DecidableEq, Repr

/-- The region of plane `c` (R273 d). -/
def State.planeRegion (s : State) (c : Plane) : Region :=
  ⟨s.planeBase c, s.planeBase c + (s.planeH c - 1) * s.planeStride c + 2 * s.planeW c, 0x020 + c.index⟩

/-- The region of the `META` grid (R273 d). -/
def State.metaRegion (s : State) : Region :=
  ⟨s.regs.metaBase.toNat,
    s.regs.metaBase.toNat + (s.picH / 4 - 1) * s.regs.metaStride.toNat + 32 * (s.picW / 4), 0x028⟩

/-- The region of the `LFP` store (R33, R273 d). -/
def State.lfpRegion (s : State) : Region :=
  ⟨s.regs.lfpBase.toNat, s.regs.lfpBase.toNat + s.ctusW * s.ctusH * 2 * s.units * s.units * 2, 0x02A⟩

/-- The regions in the order of R273 d. -/
def State.regions (s : State) : List Region :=
  s.planesInUse.map s.planeRegion ++ [s.metaRegion, s.lfpRegion]

/-- `ADDR(base)` for the first region that does not end inside `BMEM` (R62, R273 d). -/
def State.outsideBmem (s : State) (regions : List Region) : Option Raised :=
  (regions.find? fun r => decide (s.config.bmemSize < r.stop)).map fun r => ⟨.addr, r.base⟩

/-- Two ranges share a byte (R273 e). -/
def Region.overlaps (a b : Region) : Bool := decide (a.base < b.stop) && decide (b.base < a.stop)

/-- `BAD_CFG` for the first overlapping pair, with the base register of the second region of the pair (R273 e). -/
def firstOverlap : List Region → Option Raised
  | [] => none
  | a :: rest =>
    match rest.find? a.overlaps with
    | some b => some ⟨.badCfg, b.reg⟩
    | none => firstOverlap rest

/-! ## `META` records -/

/-- The fields of a `META` record that commands read (R70). -/
structure MetaRec where
  cuId     : Nat
  tuId     : Nat
  predMode : Nat
  cbfY     : Bool
  cbfCb    : Bool
  cbfCr    : Bool
  qp       : Nat
  log2CuW  : Nat
  log2CuH  : Nat
  log2TuW  : Nat
  log2TuH  : Nat
  numMv    : Nat
  ref0     : Nat
  ref1     : Nat
  tileId   : Nat
  mv0x     : Int
  mv0y     : Int
  mv1x     : Int
  mv1y     : Int
deriving DecidableEq, Repr

/-- The record of the words `M0 .. M4` (R70); the reserved bits are ignored. -/
def MetaRec.ofWords (m0 m1 m2 m3 m4 : Nat) : MetaRec where
  cuId     := field m0 15 0
  tuId     := field m0 31 16
  predMode := field m1 1 0
  cbfY     := flag m1 2
  cbfCb    := flag m1 3
  cbfCr    := flag m1 4
  qp       := field m1 12 6
  log2CuW  := field m1 18 16
  log2CuH  := field m1 21 19
  log2TuW  := field m1 24 22
  log2TuH  := field m1 27 25
  numMv    := field m2 1 0
  ref0     := field m2 15 8
  ref1     := field m2 23 16
  tileId   := field m2 31 24
  mv0x     := sext 16 (field m3 15 0)
  mv0y     := sext 16 (field m3 31 16)
  mv1x     := sext 16 (field m4 15 0)
  mv1y     := sext 16 (field m4 31 16)

/-- The address of the record of unit (gx, gy) (R70). -/
def State.recAddr (s : State) (gx gy : Nat) : Nat :=
  s.regs.metaBase.toNat + gy * s.regs.metaStride.toNat + 32 * gx

/-- `Rec(gx, gy)` of R203: the words `M0 .. M4` only (R71). -/
def State.metaRec (s : State) (gx gy : Nat) : MetaRec :=
  let a := s.recAddr gx gy
  let word := fun i => s.memory.read (a + 4 * i) 4
  .ofWords (word 0) (word 1) (word 2) (word 3) (word 4)

/-- `Rec(gx, gy).QP`, the one field `DBF_CTU` reads (R71, R235). -/
def State.metaQp (s : State) (gx gy : Nat) : Nat := field (s.memory.read (s.recAddr gx gy + 4) 4) 12 6

/-- The test of R71. -/
def MetaRec.malformed (r : MetaRec) : Bool :=
  r.predMode == 3 || r.numMv == 3 || decide (r.log2CuW < 2) || decide (r.log2CuH < 2)
    || decide (r.log2TuW < 2) || decide (r.log2TuH < 2) || r.log2TuW == 7 || r.log2TuH == 7

/-! ## `LFP` entries -/

/-- The fields of an `LFP` entry (R72); `rsvd` is bits 15:14. -/
structure LfpEntry where
  bs      : Nat
  lenP    : Nat
  lenQ    : Nat
  cuEdge  : Bool
  tuEdge  : Bool
  onBnd   : Bool
  sameCtu : Bool
  ccCb    : Bool
  ccCr    : Bool
  rsvd    : Nat
deriving DecidableEq, Repr

/-- The fields of a 16-bit entry (R72). -/
def LfpEntry.ofBits (e : Nat) : LfpEntry where
  bs      := field e 1 0
  lenP    := field e 4 2
  lenQ    := field e 7 5
  cuEdge  := flag e 8
  tuEdge  := flag e 9
  onBnd   := flag e 10
  sameCtu := flag e 11
  ccCb    := flag e 12
  ccCr    := flag e 13
  rsvd    := field e 15 14

/-- The 16-bit value of an entry (R72, R212). -/
def LfpEntry.toBits (e : LfpEntry) : Nat :=
  e.bs + 2 ^ 2 * e.lenP + 2 ^ 5 * e.lenQ + 2 ^ 8 * e.cuEdge.toNat + 2 ^ 9 * e.tuEdge.toNat + 2 ^ 10 * e.onBnd.toNat
    + 2 ^ 11 * e.sameCtu.toNat + 2 ^ 12 * e.ccCb.toNat + 2 ^ 13 * e.ccCr.toNat + 2 ^ 14 * e.rsvd

/-- The number of a direction (R73, R95). -/
def Dir.index : Dir → Nat
  | .ver => 0
  | .hor => 1

/-- `LfpAddr(cx, cy, dir, ux, uy)` of R73. -/
def State.lfpAddr (s : State) (cx cy : Nat) (dir : Dir) (ux uy : Nat) : Nat :=
  s.regs.lfpBase.toNat + 2 * (((s.ctuIdx cx cy * 2 + Dir.index dir) * s.units + uy) * s.units + ux)

/-- The `LFP` entry of a unit of a CTU. -/
def State.lfpEntry (s : State) (cx cy : Nat) (dir : Dir) (ux uy : Nat) : LfpEntry :=
  .ofBits (s.memory.read (s.lfpAddr cx cy dir ux uy) 2)

/-! ## The units of a CTU -/

/-- The units (ux, uy) of a CTU in raster order, `uy` outer (R202, R233). -/
def unitGrid (u : Nat) : List (Nat × Nat) :=
  (List.range u).flatMap fun uy => (List.range u).map fun ux => (ux, uy)

/-- The unit at global unit coordinates lies inside the picture (R203, R209). -/
def State.unitInside (s : State) (gx gy : Nat) : Bool := decide (gx < s.picW / 4) && decide (gy < s.picH / 4)

/-- The CTU indices of the picture (R23, R38). -/
def State.ctuIndices (s : State) : List Nat := List.range (s.ctusW * s.ctusH)

/-- Every CTU of the picture has a phase of at least a rank (R23). -/
def State.allPhases (s : State) (rank : Nat) : Bool :=
  s.ctuIndices.all fun i => decide (rank ≤ (s.phaseOf i).rank)

end Sys2Proof.Machine
end

