-- ==== Sys2Proof/Machine/Flags.lean ====
section
/-! DEFINITION. The status flags. The block has no condition codes (R41); its only flags are the five bits of `STATUS`
(R23), of which three are evaluated when the register is read. -/

namespace Sys2Proof.Machine

/-- `STATUS.ALL_BS` (R23). -/
def State.allBs (s : State) : Bool := s.picActive && s.allPhases 1

/-- `STATUS.ALL_VER` (R23). -/
def State.allVer (s : State) : Bool := s.picActive && s.allPhases 2

/-- `STATUS.ALL_HOR` (R23). -/
def State.allHor (s : State) : Bool := s.picActive && s.allPhases 3

/-- The `STATUS` register (R23). -/
def State.statusWord (s : State) : Word :=
  0#27 ++ BitVec.ofBool s.allHor ++ BitVec.ofBool s.allVer ++ BitVec.ofBool s.allBs ++ BitVec.ofBool s.picActive
    ++ BitVec.ofBool s.faulted

/-- The current value of a register (R23, R272). -/
def State.readReg (s : State) : Reg → Word
  | .id => 0x49544531
  | .cap => 0#31 ++ BitVec.ofBool s.config.hasLadf
  | .status => s.statusWord
  | .faultCause => 0#24 ++ s.faultCause
  | .faultInfo => s.faultInfo
  | .cmdCount => s.cmdCount
  | .faultW0 => s.faultW0
  | r => s.regs.get r

end Sys2Proof.Machine
end

