-- ==== Sys2Proof/Machine/Deblock.lean ====
section
/-! DEFINITION. The edge filter engine (R230 to R247) with the chroma filter (R260 to R265): the command `DBF_CTU`. -/

namespace Sys2Proof.Machine

/-! ## Which segments are filtered -/

/-- `Filterable(e)` (R234). -/
def LfpEntry.filterable (e : LfpEntry) : Bool :=
  e.bs != 0 && e.tuEdge && !e.onBnd && e.lenP != 0 && e.lenQ != 0

/-- The samples a side's decision reads: 8 when its length is above 3, else 4 (R238 b). -/
def depthOf (len : Nat) : Nat := if 3 < len then 8 else 4

/-- Some sample the decision would read lies outside the plane (R232 c). -/
def State.windowOutside (s : State) (dir : Dir) (gx gy : Nat) (e : LfpEntry) : Bool :=
  match dir with
  | .ver => decide (4 * gx < depthOf e.lenP) || decide (s.picW < 4 * gx + depthOf e.lenQ)
  | .hor => decide (4 * gy < depthOf e.lenP) || decide (s.picH < 4 * gy + depthOf e.lenQ)

/-- A malformed entry (R232 a, b, c). -/
def State.badEntry (s : State) (dir : Dir) (gx gy : Nat) (e : LfpEntry) : Bool :=
  e.rsvd != 0 || e.bs == 3 || (e.filterable && s.windowOutside dir gx gy e)

/-- The units of a CTU that lie inside the picture, in raster order (R232, R233). -/
def State.insideUnits (s : State) (cx cy : Nat) : List (Nat × Nat) :=
  (unitGrid s.units).filter fun u => s.unitInside (cx * s.units + u.1) (cy * s.units + u.2)

/-- Check 6 of R230: `BAD_LFP` at the first malformed entry in the order of R232. -/
def State.badLfp (s : State) (dir : Dir) (cx cy : Nat) : Option Raised :=
  ((s.insideUnits cx cy).find? fun u =>
      s.badEntry dir (cx * s.units + u.1) (cy * s.units + u.2) (s.lfpEntry cx cy dir u.1 u.2)).map
    fun u => ⟨.badLfp, s.lfpAddr cx cy dir u.1 u.2⟩

/-! ## Thresholds -/

/-- `qpQ` and `qpP` of R235. -/
def State.qpQ (s : State) (gx gy : Nat) : Nat := s.metaQp gx gy
def State.qpP (s : State) (dir : Dir) (gx gy : Nat) : Nat :=
  match dir with
  | .ver => s.metaQp (gx - 1) gy
  | .hor => s.metaQp gx (gy - 1)

/-- `qpAvg` of R235. -/
def qpAverage (p q : Nat) : Nat := (p + q + 1) / 2

/-- The snapshot of one line of a segment, the sample nearest the edge first (R238). -/
structure Line where
  p : List Int
  q : List Int
deriving DecidableEq, Repr

/-- `p[i][k]` and `q[i][k]` for a line. -/
def Line.pAt (l : Line) (k : Nat) : Int := l.p.getD k 0
def Line.qAt (l : Line) (k : Nat) : Int := l.q.getD k 0

/-- Line `i` of a list of lines. -/
def lineAt (ls : List Line) (i : Nat) : Line := ls.getD i ⟨[], []⟩

/-- The number of intervals above the first whose lower bound the level exceeds, stopping at the first it does not
(R236). -/
def State.ladfInterval (s : State) (level : Int) : Nat :=
  ((List.range' 1 (s.ladfIntervals - 1)).takeWhile fun k => decide ((s.ladfThresh k : Int) < level)).length

/-- `lumaLevel` of R236. -/
def lumaLevel (ls : List Line) : Int :=
  asr ((lineAt ls 0).pAt 0 + (lineAt ls 3).pAt 0 + (lineAt ls 0).qAt 0 + (lineAt ls 3).qAt 0) 2

/-- `qpL` of R236. -/
def State.qpLuma (s : State) (qpAvg : Nat) (ls : List Line) : Int :=
  if s.ladfEn then (qpAvg : Int) + s.ladfOffset (s.ladfInterval (lumaLevel ls)) else (qpAvg : Int)

/-- `clip3(0, hi, v)` as a table index. -/
def clipIndex (hi : Nat) (v : Int) : Nat := (clip3 0 (hi : Int) v).toNat

/-- `beta` of R237. -/
def State.beta (s : State) (qpL : Int) : Int :=
  shl (tableAt s.config.betaTable (clipIndex 63 (qpL + s.betaOffset)) : Int) (s.bitDepth - 8)

/-- The scaling of a `TC_TABLE` entry to the bit depth (R237, R263). -/
def scaleTc (bitDepth : Nat) (t : Nat) : Int :=
  if bitDepth < 10 then asr ((t : Int) + ((2 ^ (9 - bitDepth) : Nat) : Int)) (10 - bitDepth)
  else shl (t : Int) (bitDepth - 10)

/-- `tc` of R237 and R263 from a QP and a strength. -/
def State.tc (s : State) (qp : Int) (bs : Nat) : Int :=
  scaleTc s.bitDepth (tableAt s.config.tcTable (clipIndex 65 (qp + 2 * ((bs : Int) - 1) + s.tcOffset)))

/-! ## The luma decision and filters -/

/-- |x[2] - 2*x[1] + x[0]| at an offset of 0, |x[5] - 2*x[4] + x[3]| at 3. -/
def secondDiff (x : List Int) (o : Nat) : Int := ((x.getD (o + 2) 0 - 2 * x.getD (o + 1) 0 + x.getD o 0).natAbs : Int)

/-- `D2(x, depth)` of R239. -/
def measureD (x : List Int) (depth : Nat) : Int :=
  if depth = 8 then asr (secondDiff x 0 + secondDiff x 3 + 1) 1 else secondDiff x 0

/-- `SP(x, depth)` of R239. -/
def measureS (x : List Int) (depth : Nat) : Int :=
  let near : Int := (x.getD 3 0 - x.getD 0 0).natAbs
  if depth = 8 then
    let mid : Int := (x.getD 7 0 - x.getD 6 0 - x.getD 5 0 + x.getD 4 0).natAbs
    let outer : Int := (x.getD 7 0 - x.getD 3 0).natAbs
    asr (near + mid + outer + 1) 1
  else near

/-- What R240 chooses for a segment. -/
inductive LumaChoice where
  | off
  | strong
  | weak (dEp dEq : Bool)
deriving DecidableEq, Repr

/-- `strongLine` of R240 on one line. -/
def strongLine (l : Line) (depthP depthQ : Nat) (sThr1 sThr2 tc : Int) : Bool :=
  decide (2 * (measureD l.p depthP + measureD l.q depthQ) < sThr2)
    && decide (measureS l.p depthP + measureS l.q depthQ < sThr1)
    && decide (((l.pAt 0 - l.qAt 0).natAbs : Int) < asr (5 * tc + 1) 1)

/-- The selection of R240. -/
def lumaChoice (ls : List Line) (lenP lenQ : Nat) (beta tc : Int) : LumaChoice :=
  let depthP := depthOf lenP
  let depthQ := depthOf lenQ
  let l0 := lineAt ls 0
  let l3 := lineAt ls 3
  let dp := measureD l0.p depthP + measureD l3.p depthP
  let dq := measureD l0.q depthQ + measureD l3.q depthQ
  if dp + dq < beta then
    let long := depthP == 8 || depthQ == 8
    let sThr1 := if long then asr (3 * beta) 5 else asr beta 3
    let sThr2 := if long then asr beta 4 else asr beta 2
    if strongLine l0 depthP depthQ sThr1 sThr2 tc && strongLine l3 depthP depthQ sThr1 sThr2 tc
        && decide (3 ≤ lenP) && decide (3 ≤ lenQ) then .strong
    else
      let side := asr (beta + asr beta 1) 3
      .weak (decide (dp < side)) (decide (dq < side))
  else .off

/-- `x` limited to within `c * tc` of the original `v`, then to the sample range (R241). -/
def boundTo (bitDepth : Nat) (c : Nat) (tc v x : Int) : Int :=
  clipPix bitDepth (clip3 (v - (c : Int) * tc) (v + (c : Int) * tc) x)

/-- One side of R241: the new values of `x0, x1, x2`, from the side's samples and the other side's. -/
def strongSide (cfg : Config) (bitDepth : Nat) (tc : Int) (x o : List Int) : List Int :=
  let x0 := x.getD 0 0
  let x1 := x.getD 1 0
  let x2 := x.getD 2 0
  let x3 := x.getD 3 0
  let o0 := o.getD 0 0
  let o1 := o.getD 1 0
  [boundTo bitDepth cfg.strongClip.1 tc x0 (asr (x2 + 2 * x1 + 2 * x0 + 2 * o0 + o1 + 4) 3),
    boundTo bitDepth cfg.strongClip.2.1 tc x1 (asr (x2 + x1 + x0 + o0 + 2) 2),
    boundTo bitDepth cfg.strongClip.2.2 tc x2 (asr (2 * x3 + 3 * x2 + x1 + x0 + o0 + 4) 3)]

/-- The strong filter of one line (R241): the new samples of each side. -/
def strongFilter (cfg : Config) (bitDepth : Nat) (tc : Int) (l : Line) : Line :=
  ⟨strongSide cfg bitDepth tc l.p l.q, strongSide cfg bitDepth tc l.q l.p⟩

/-- `delta` of R242 before its clip. -/
def weakDelta (l : Line) : Int := asr (9 * (l.qAt 0 - l.pAt 0) - 3 * (l.qAt 1 - l.pAt 1) + 8) 4

/-- One side of R242 with the side's signed delta: the new `x0`, and the new `x1` where the secondary delta applies. -/
def weakSide (bitDepth : Nat) (tc delta : Int) (second : Bool) (x : List Int) : List Int :=
  let x0 := x.getD 0 0
  let x1 := x.getD 1 0
  let x2 := x.getD 2 0
  let near := clipPix bitDepth (x0 + delta)
  if second then
    [near, clipPix bitDepth (x1 + clip3 (-(asr tc 1)) (asr tc 1) (asr (asr (x2 + x0 + 1) 1 - x1 + delta) 1))]
  else [near]

/-- The weak filter of one line (R242): the new samples of each side, none where the gate refuses the line. -/
def weakFilter (bitDepth : Nat) (tc : Int) (secondP secondQ : Bool) (l : Line) : Line :=
  if ((weakDelta l).natAbs : Int) < 10 * tc then
    let delta := clip3 (-tc) tc (weakDelta l)
    ⟨weakSide bitDepth tc delta secondP l.p, weakSide bitDepth tc (-delta) secondQ l.q⟩
  else ⟨[], []⟩

/-- The new samples of one line under a choice (R240 to R242). -/
def filterLine (cfg : Config) (bitDepth : Nat) (tc : Int) (lenP lenQ : Nat) (choice : LumaChoice) (l : Line) : Line :=
  match choice with
  | .off => ⟨[], []⟩
  | .strong => strongFilter cfg bitDepth tc l
  | .weak dEp dEq => weakFilter bitDepth tc (dEp && decide (2 ≤ lenP)) (dEq && decide (2 ≤ lenQ)) l

/-! ## Where the samples of a segment are -/

/-- The coordinates of `p[i][k]` for an edge whose line `i` crosses at (x, y) (R238, R262). -/
def pPos (dir : Dir) (x y k : Nat) : Nat × Nat :=
  match dir with
  | .ver => (x - 1 - k, y)
  | .hor => (x, y - 1 - k)

/-- The coordinates of `q[i][k]`. -/
def qPos (dir : Dir) (x y k : Nat) : Nat × Nat :=
  match dir with
  | .ver => (x + k, y)
  | .hor => (x, y + k)

/-- Where line `i` of the segment at (x, y) crosses the edge. -/
def linePos (dir : Dir) (x y i : Nat) : Nat × Nat :=
  match dir with
  | .ver => (x, y + i)
  | .hor => (x + i, y)

/-- One line's samples, `nP` and `nQ` deep. -/
def State.readLine (s : State) (c : Plane) (dir : Dir) (pt : Nat × Nat) (nP nQ : Nat) : Line where
  p := (List.range nP).map fun k => let z := pPos dir pt.1 pt.2 k; s.pix c z.1 z.2
  q := (List.range nQ).map fun k => let z := qPos dir pt.1 pt.2 k; s.pix c z.1 z.2

/-- The (address, value) pairs that store the new samples of a side, nearest the edge first. -/
def State.sideWrites (s : State) (c : Plane) (pos : Nat → Nat × Nat) (vs : List Int) : List (Nat × Nat) :=
  (List.range vs.length).map fun k => (s.pixAddr c (pos k).1 (pos k).2, half (vs.getD k 0))

/-- Those of a line: both sides (R243, R264). -/
def State.lineWrites (s : State) (c : Plane) (dir : Dir) (pt : Nat × Nat) (new : Line) : List (Nat × Nat) :=
  s.sideWrites c (pPos dir pt.1 pt.2) new.p ++ s.sideWrites c (qPos dir pt.1 pt.2) new.q

/-- Those of a segment that crosses the edge at (x, y): all its lines. -/
def State.segmentWrites (s : State) (c : Plane) (dir : Dir) (x y : Nat) (ls : List Line) : List (Nat × Nat) :=
  (List.range ls.length).flatMap fun i => s.lineWrites c dir (linePos dir x y i) (lineAt ls i)

/-- Write the new samples of the lines of a segment: `Pix(c, x, y) <- v` for each of them (R13, R66). -/
def writeLines (c : Plane) (dir : Dir) (x y : Nat) (ls : List Line) (s : State) : State :=
  s.setMemory (s.memory.writeEntries (s.segmentWrites c dir x y ls))

/-! ## One segment -/

/-- The snapshot of a luma segment (R238). -/
def State.snapshot (s : State) (dir : Dir) (gx gy : Nat) (e : LfpEntry) : List Line :=
  (List.range 4).map fun i => s.readLine .y dir (linePos dir (4 * gx) (4 * gy) i) (depthOf e.lenP) (depthOf e.lenQ)

/-- The new samples of a luma segment, line by line (R235 to R242). -/
def State.lumaLines (s : State) (dir : Dir) (gx gy : Nat) (e : LfpEntry) : List Line :=
  let ls := s.snapshot dir gx gy e
  let qpL := s.qpLuma (qpAverage (s.qpP dir gx gy) (s.qpQ gx gy)) ls
  let tc := s.tc qpL e.bs
  ls.map (filterLine s.config s.bitDepth tc e.lenP e.lenQ (lumaChoice ls e.lenP e.lenQ (s.beta qpL) tc))

/-- `FilterLumaSegment(dir, gx, gy, e)` (R243). -/
def filterLumaSegment (dir : Dir) (gx gy : Nat) (e : LfpEntry) (s : State) : State :=
  writeLines .y dir (4 * gx) (4 * gy) (s.lumaLines dir gx gy e) s

/-- `ChromaApplies` of R261 and R262 for a chroma plane. -/
def State.chromaApplies (s : State) (dir : Dir) (x0 y0 : Nat) (e : LfpEntry) (c : Plane) : Bool :=
  (e.bs == 2 || (e.bs == 1 && (if c = .cb then e.ccCb else e.ccCr)))
    && (match dir with
        | .ver => x0 % (8 * 2 ^ s.shiftX c) == 0
        | .hor => y0 % (8 * 2 ^ s.shiftY c) == 0)

/-- `ChromaTc` (R263). The index is inside the map (R132; log entry 15). -/
def State.chromaTc (s : State) (dir : Dir) (gx gy : Nat) (e : LfpEntry) (c : Plane) : Int :=
  let off := if c = .cb then s.cbQpOffset else s.crQpOffset
  let qpC := s.config.chromaQpMap.getD (clipIndex 63 ((qpAverage (s.qpP dir gx gy) (s.qpQ gx gy) : Int) + off)) 0
  s.tc qpC (if e.bs = 2 then 2 else 1)

/-- The chroma filter of one line (R260): the new `p0` and `q0`. -/
def chromaFilter (bitDepth : Nat) (tc : Int) (l : Line) : Line :=
  let delta := clip3 (-tc) tc (asr (shl (l.qAt 0 - l.pAt 0) 2 + l.pAt 1 - l.qAt 1 + 4) 3)
  ⟨[clipPix bitDepth (l.pAt 0 + delta)], [clipPix bitDepth (l.qAt 0 - delta)]⟩

/-- `nLines` of R262. -/
def State.chromaLines (s : State) (dir : Dir) (c : Plane) : Nat :=
  match dir with
  | .ver => 4 / 2 ^ s.shiftY c
  | .hor => 4 / 2 ^ s.shiftX c

/-- The new samples of a chroma segment, line by line (R260, R262). The lines touch disjoint samples (R264), so reading
them all first changes nothing. -/
def State.chromaNew (s : State) (dir : Dir) (gx gy : Nat) (e : LfpEntry) (c : Plane) : List Line :=
  let xc := 4 * gx / 2 ^ s.shiftX c
  let yc := 4 * gy / 2 ^ s.shiftY c
  (List.range (s.chromaLines dir c)).map fun j =>
    chromaFilter s.bitDepth (s.chromaTc dir gx gy e c) (s.readLine c dir (linePos dir xc yc j) 2 2)

/-- `FilterChromaSegment(dir, gx, gy, e, c)` (R260). -/
def filterChromaSegment (dir : Dir) (gx gy : Nat) (e : LfpEntry) (c : Plane) (s : State) : State :=
  if s.chromaApplies dir (4 * gx) (4 * gy) e c then
    writeLines c dir (4 * gx / 2 ^ s.shiftX c) (4 * gy / 2 ^ s.shiftY c) (s.chromaNew dir gx gy e c) s
  else s

/-- The planes of one segment: luma, then Cb, then Cr where the picture has them (R233). -/
def filterPlanes (dir : Dir) (gx gy : Nat) (e : LfpEntry) (s : State) : State :=
  let s1 := filterLumaSegment dir gx gy e s
  if s.chroma = 0 then s1
  else filterChromaSegment dir gx gy e .cr (filterChromaSegment dir gx gy e .cb s1)

/-- One unit of the traversal of R233. -/
def filterUnit (dir : Dir) (cx cy : Nat) (s : State) (u : Nat × Nat) : State :=
  let e := s.lfpEntry cx cy dir u.1 u.2
  if e.filterable then filterPlanes dir (cx * s.units + u.1) (cy * s.units + u.2) e s else s

/-- The traversal of R233: the segments one after another, in place. -/
def filterCtu (dir : Dir) (cx cy : Nat) (s : State) : State :=
  (s.insideUnits cx cy).foldl (filterUnit dir cx cy) s

/-! ## The command -/

/-- Check 5 of R230: the phase conditions fail. -/
def State.filterTooEarly (s : State) (dir : Dir) (cx cy : Nat) : Bool :=
  match dir with
  | .ver =>
    s.phaseOf (s.ctuIdx cx cy) != .bsDone
      || (cx != 0 && decide ((s.phaseOf (s.ctuIdx (cx - 1) cy)).rank < 2))
  | .hor =>
    s.phaseOf (s.ctuIdx cx cy) != .verDone || !(s.allPhases 2)
      || (cy != 0 && s.phaseOf (s.ctuIdx cx (cy - 1)) != .horDone)

/-- The checks of R230 after the refusal and the decoder's, in order. -/
def dbfCtuChecks (dir : Dir) (cx cy : Nat) (s : State) : List (Option Raised) :=
  [failIf (!s.picActive) .order s.latch.w1.toNat,
    failIf (decide (s.ctusW ≤ cx) || decide (s.ctusH ≤ cy)) .badDim s.latch.w1.toNat,
    failIf (s.filterTooEarly dir cx cy) .order s.latch.w1.toNat,
    if s.dbfEn then s.badLfp dir cx cy else none]

/-- The phase a direction leads to (R231, R233). -/
def phaseAfter : Dir → Phase
  | .ver => .verDone
  | .hor => .horDone

/-- The operation of R231 and R233. -/
def dbfCtuEffect (dir : Dir) (cx cy : Nat) (s : State) : State :=
  (if s.dbfEn then filterCtu dir cx cy s else s).setPhase (s.ctuIdx cx cy) (phaseAfter dir)

/-- `DBF_CTU` (R230). -/
def execDbfCtu (dir : Dir) (cx cy : BitVec 16) (s : State) : Host.Outcome State Fault Refusal :=
  runChecked s (dbfCtuChecks dir cx.toNat cy.toNat s) (dbfCtuEffect dir cx.toNat cy.toNat s)

end Sys2Proof.Machine
end

