-- ==== Sys2Proof/Machine/Strength.lean ====
section
/-! DEFINITION. The boundary strength calculator (R200 to R217): the command `BS_CTU`. -/

namespace Sys2Proof.Machine

/-! ## The classification of one segment -/

/-- `isCu` of R204. -/
def isCuEdge (p q : MetaRec) : Bool := p.cuId != q.cuId

/-- `isTu` of R204: an edge exists at the segment. -/
def isTuEdge (p q : MetaRec) : Bool := isCuEdge p q || p.tuId != q.tuId

/-- `Far(a, b)` of R206. -/
def far (ax ay bx bv : Int) : Bool := decide (4 ≤ (ax - bx).natAbs) || decide (4 ≤ (ay - bv).natAbs)

/-- `Far` of a vector of P and a vector of Q. -/
def far00 (p q : MetaRec) : Bool := far p.mv0x p.mv0y q.mv0x q.mv0y
def far11 (p q : MetaRec) : Bool := far p.mv1x p.mv1y q.mv1x q.mv1y
def far01 (p q : MetaRec) : Bool := far p.mv0x p.mv0y q.mv1x q.mv1y
def far10 (p q : MetaRec) : Bool := far p.mv1x p.mv1y q.mv0x q.mv0y

/-- The reference pictures of the two sides are the same multiset (R206). -/
def sameRefs (p q : MetaRec) : Bool :=
  (p.ref0 == q.ref0 && p.ref1 == q.ref1) || (p.ref0 == q.ref1 && p.ref1 == q.ref0)

/-- `MvMismatch(P, Q)` (R206). -/
def mvMismatch (p q : MetaRec) : Bool :=
  if p.numMv ≠ q.numMv then true
  else if p.numMv = 0 then false
  else if p.numMv = 1 then
    if p.ref0 ≠ q.ref0 then true else far00 p q
  else if !sameRefs p q then true
  else if p.ref0 ≠ p.ref1 then
    if p.ref0 = q.ref0 then far00 p q || far11 p q else far01 p q || far10 p q
  else (far00 p q || far11 p q) && (far01 p q || far10 p q)

/-- `bs` of R205. -/
def boundaryStrength (p q : MetaRec) : Nat :=
  if p.predMode = 0 ∨ q.predMode = 0 then 2
  else if p.cbfY = true ∨ q.cbfY = true then 1
  else if mvMismatch p q then 1
  else 0

/-- The side dimension along the edge normal (R207). -/
def sideSize (dir : Dir) (r : MetaRec) : Nat :=
  match dir with
  | .ver => min (2 ^ r.log2CuW) (2 ^ r.log2TuW)
  | .hor => min (2 ^ r.log2CuH) (2 ^ r.log2TuH)

/-- `len` of R207. -/
def filterLen (side : Nat) : Nat := if side < 8 then 0 else min side 7

/-- `ON_BND` of an edge that has a P side (R210). -/
def State.onBoundary (s : State) (dir : Dir) (gx gy : Nat) (p q : MetaRec) : Bool :=
  (p.tileId != q.tileId && !s.crossTileEn)
    || (!s.crossVbEn &&
        (match dir with
         | .ver => s.vbColumns.contains (4 * gx)
         | .hor => s.vbRows.contains (4 * gy)))

/-- `SAME_CTU` (R208). -/
def sameCtu (dir : Dir) (ux uy : Nat) : Bool :=
  match dir with
  | .ver => ux != 0
  | .hor => uy != 0

/-- The record of the P side of the segment whose Q unit is (gx, gy). -/
def State.recP (s : State) (dir : Dir) (gx gy : Nat) : MetaRec :=
  match dir with
  | .ver => s.metaRec (gx - 1) gy
  | .hor => s.metaRec gx (gy - 1)

/-- The entry of a segment at which an edge exists (R212). -/
def State.edgeEntry (s : State) (dir : Dir) (gx gy ux uy : Nat) (p q : MetaRec) : LfpEntry where
  bs      := boundaryStrength p q
  lenP    := filterLen (sideSize dir p)
  lenQ    := filterLen (sideSize dir q)
  cuEdge  := isCuEdge p q
  tuEdge  := true
  onBnd   := s.onBoundary dir gx gy p q
  sameCtu := sameCtu dir ux uy
  ccCb    := p.cbfCb || q.cbfCb
  ccCr    := p.cbfCr || q.cbfCr
  rsvd    := 0

/-- `Entry(dir, gx, gy, ux, uy)` (R212). -/
def State.bsEntry (s : State) (dir : Dir) (gx gy ux uy : Nat) : Nat :=
  if !s.unitInside gx gy then 0x0000
  else if (match dir with | .ver => gx == 0 | .hor => gy == 0) then 0x0700
  else
    let q := s.metaRec gx gy
    let p := s.recP dir gx gy
    if !isTuEdge p q then 0x0000 else (s.edgeEntry dir gx gy ux uy p q).toBits

/-! ## The command -/

/-- The units whose records `BS_CTU` reads, in the order of R203. -/
def State.bsUnits (s : State) (cx cy : Nat) : List (Nat × Nat) :=
  let gx0 := cx * s.units
  let gy0 := cy * s.units
  let own := (unitGrid s.units).map fun u => (gx0 + u.1, gy0 + u.2)
  let left := if cx = 0 then [] else (List.range s.units).map fun uy => (gx0 - 1, gy0 + uy)
  let above := if cy = 0 then [] else (List.range s.units).map fun ux => (gx0 + ux, gy0 - 1)
  (own ++ left ++ above).filter fun g => s.unitInside g.1 g.2

/-- Check 6 of R201: `BAD_META` at the first malformed record in the order of R203. -/
def State.badMeta (s : State) (cx cy : Nat) : Option Raised :=
  ((s.bsUnits cx cy).find? fun g => (s.metaRec g.1 g.2).malformed).map fun g => ⟨.badMeta, s.recAddr g.1 g.2⟩

/-- The checks of R201 after the refusal and the decoder's, in order; no `ADDR` check is needed (log entry 9). -/
def bsCtuChecks (cx cy : Nat) (s : State) : List (Option Raised) :=
  [failIf (!s.picActive) .order s.latch.w1.toNat,
    failIf (decide (s.ctusW ≤ cx) || decide (s.ctusH ≤ cy)) .badDim s.latch.w1.toNat,
    failIf (decide (2 ≤ (s.phaseOf (s.ctuIdx cx cy)).rank)) .order s.latch.w1.toNat,
    s.badMeta cx cy]

/-- The (address, value) pairs `BS_CTU` writes: every unit of the CTU, both directions (R202). -/
def State.bsWrites (s : State) (cx cy : Nat) : List (Nat × Nat) :=
  [Dir.ver, Dir.hor].flatMap fun dir =>
    (unitGrid s.units).map fun u =>
      (s.lfpAddr cx cy dir u.1 u.2, s.bsEntry dir (cx * s.units + u.1) (cy * s.units + u.2) u.1 u.2)

/-- The operation of R202. -/
def bsCtuEffect (cx cy : Nat) (s : State) : State :=
  (s.setMemory (s.memory.writeEntries (s.bsWrites cx cy))).setPhase (s.ctuIdx cx cy) .bsDone

/-- `BS_CTU` (R200). -/
def execBsCtu (cx cy : BitVec 16) (s : State) : Host.Outcome State Fault Refusal :=
  runChecked s (bsCtuChecks cx.toNat cy.toNat s) (bsCtuEffect cx.toNat cy.toNat s)

end Sys2Proof.Machine
end

