-- ==== Sys2Proof/Machine/System.lean ====
section
/-! DEFINITION. The system commands (R270 to R276): `NOP`, `CFG_WR`, `CFG_RD`, `PIC_START`, `PIC_END`, `SRESET`. -/

namespace Sys2Proof.Machine

/-- `NOP` (R270). -/
def execNop (s : State) : Host.Outcome State Fault Refusal := runChecked s [] s

/-- Checks 3 to 5 of `CFG_WR` on a register that exists (R271). -/
def cfgWrChecks (r : Reg) (reg : BitVec 12) (value : Word) (s : State) : List (Option Raised) :=
  [failIf r.readOnly .badReg reg.toNat,
    failIf (r.geometry && s.picActive) .order reg.toNat,
    failIf (!legalValue s.config r value) .badValue value.toNat]

/-- `CFG_WR` (R271). -/
def execCfgWr (reg : BitVec 12) (value : Word) (s : State) : Host.Outcome State Fault Refusal :=
  match regOf s.config reg with
  | none => runChecked s [some ⟨.badReg, reg.toNat⟩] s
  | some r => runChecked s (cfgWrChecks r reg value s) (s.setRegs (s.regs.set value r))

/-- `CFG_RD` (R272): served in the faulted state too when the register exists (R291). -/
def execCfgRd (reg : BitVec 12) (s : State) : Host.Outcome State Fault Refusal :=
  match regOf s.config reg with
  | none => runChecked s [some ⟨.badReg, reg.toNat⟩] s
  | some r => replyOk (s.readReg r) s

/-- Check 4 of `PIC_START`, in the order a to e (R273). -/
def picStartChecks (s : State) : List (Option Raised) :=
  [failIf (s.picW == 0 || s.picH == 0) .badCfg 0x011]
    ++ (s.planesInUse.map fun c => failIf (decide (s.planeStride c < 2 * s.planeW c)) .badCfg (0x024 + c.index))
    ++ [failIf (decide (s.regs.metaStride.toNat < 32 * (s.picW / 4))) .badCfg 0x029,
      s.outsideBmem s.regions,
      firstOverlap s.regions]

/-- `PIC_START` (R273). -/
def execPicStart (s : State) : Host.Outcome State Fault Refusal :=
  runChecked s (failIf s.picActive .order 0 :: picStartChecks s) (s.setPicture true)

/-- `PIC_END` (R274). -/
def execPicEnd (s : State) : Host.Outcome State Fault Refusal :=
  runChecked s [failIf (!s.picActive) .order 0] (s.setPicture false)

/-- `SRESET` in its exact form (R275): accepted in every state, replies `OK` and is not counted. -/
def execSreset (s : State) : Host.Outcome State Fault Refusal :=
  .next { s.resetBlock with reply := some ⟨0, 0⟩ }

end Sys2Proof.Machine
end

