-- ==== Sys2Proof/Machine/Transform.lean ====
section
/-! DEFINITION. The transform engine: the kernels (R140 to R157), dequantization and reconstruction (R170 to R177), and
the commands `ITX_1D` (R158) and `ITX_BLK` (R185 to R192). -/

namespace Sys2Proof

/-- `w` and `h` of R96. -/
def BlkOps.w (o : BlkOps) : Nat := 2 ^ o.log2W.toNat
def BlkOps.h (o : BlkOps) : Nat := 2 ^ o.log2H.toNat

/-- `ts` of R187: both types are `IDENT`. -/
def BlkOps.identity (o : BlkOps) : Bool := o.trH == .ident && o.trV == .ident

/-- The plane of `comp`. -/
def BlkOps.plane (o : BlkOps) : Machine.Plane := Machine.Plane.ofCode o.comp

end Sys2Proof

namespace Sys2Proof.Machine

/-! ## Kernels -/

/-- Which (type, size) pairs have a kernel (R141, R156). -/
def kernelExists (t : TrType) (log2N : Nat) : Bool :=
  match t with
  | .dct2 => decide (1 ≤ log2N) && decide (log2N ≤ 6)
  | .dst7 => decide (2 ≤ log2N) && decide (log2N ≤ 5)
  | .dct8 => decide (2 ≤ log2N) && decide (log2N ≤ 5)
  | .ident => false

/-- `T[fam][2^log2N]` (R122). -/
def basisOf (cfg : Config) (t : TrType) (log2N : Nat) : BasisMatrix :=
  match t with
  | .dct2 => cfg.dct2.getD (log2N - 1) []
  | .dst7 => cfg.dst7.getD (log2N - 2) []
  | .dct8 => cfg.dct8.getD (log2N - 2) []
  | .ident => []

/-- `T[fam][2^log2N][k][n]` (R122). -/
def basisEntry (cfg : Config) (t : TrType) (log2N k n : Nat) : Int := ((basisOf cfg t log2N).getD k []).getD n 0

/-- The sums `acc` of R140 for all n at once: the sum over k of `in[k]` times row k of the matrix. -/
def basisSums (n : Nat) : List (List Int) → List Int → List Int
  | row :: rows, c :: cs => List.zipWith (fun t acc => t * c + acc) row (basisSums n rows cs)
  | _, _ => List.replicate n 0

/-- The rounding, shift and clip of R140. -/
def roundShift (shift : Nat) (acc : Int) : Int := clip16 (asr (acc + ((2 ^ (shift - 1) : Nat) : Int)) shift)

/-- `Inv1D(fam, N, in, shift)` (R140), N = 2^log2N. -/
def inv1D (cfg : Config) (t : TrType) (log2N : Nat) (input : List Int) (shift : Nat) : List Int :=
  (basisSums (2 ^ log2N) (basisOf cfg t log2N) input).map (roundShift shift)

/-! ## Dequantization and reconstruction -/

/-- `DEQ_SCALE[rect][rem]` (R131). -/
def deqScale (cfg : Config) (rect rem : Nat) : Nat :=
  if rect = 0 then tableAt cfg.deqScale0 rem else tableAt cfg.deqScale1 rem

/-- `rect` of R171. -/
def deqRect (log2W log2H : Nat) (ts : Bool) : Nat := if ts then 0 else (log2W + log2H) % 2

/-- `rshift` of R171. -/
def deqShift (log2W log2H qp bitDepth : Nat) (ts : Bool) : Int :=
  if ts then 6 - ((qp / 6 : Nat) : Int)
  else (bitDepth : Int) + (deqRect log2W log2H ts : Int) + (((log2W + log2H) / 2 : Nat) : Int) - 9 - ((qp / 6 : Nat) : Int)

/-- `Dequant(level, log2W, log2H, qp, bitDepth, ts)` (R171). -/
def dequant (cfg : Config) (log2W log2H qp bitDepth : Nat) (ts : Bool) (level : Int) : Int :=
  let product := level * (deqScale cfg (deqRect log2W log2H ts) (qp % 6) : Int)
  let rshift := deqShift log2W log2H qp bitDepth ts
  if 0 < rshift then clip16 (asr (product + ((2 ^ (rshift - 1).toNat : Nat) : Int)) rshift.toNat)
  else clip16 (shl product (-rshift).toNat)

/-- `Recon(pred, res)` (R173). -/
def recon (bitDepth : Nat) (pred res : Int) : Int := clipPix bitDepth (pred + res)

/-! ## Blocks -/

/-- The columns of a block given by its rows; `w` is the number of columns. -/
def columns (w : Nat) (rows : List (List Int)) : List (List Int) :=
  rows.foldr (List.zipWith List.cons) (List.replicate w [])

/-- First pass, vertical, shift 7: the intermediate buffer `tmp` of R188, by rows. -/
def firstPass (cfg : Config) (t : TrType) (log2W log2H : Nat) (d : List (List Int)) : List (List Int) :=
  columns (2 ^ log2H) ((columns (2 ^ log2W) d).map fun col => inv1D cfg t log2H col 7)

/-- Second pass, horizontal, shift `20 - bitDepth` (R189). -/
def secondPass (cfg : Config) (t : TrType) (log2W bitDepth : Nat) (tmp : List (List Int)) : List (List Int) :=
  tmp.map fun row => inv1D cfg t log2W row (20 - bitDepth)

/-- Steps 2 and 3 of R187: the residual of a block of coefficients, by rows. -/
def residual (cfg : Config) (bitDepth : Nat) (o : BlkOps) (levels : List (List Int)) : List (List Int) :=
  let d := levels.map (List.map (dequant cfg o.log2W.toNat o.log2H.toNat o.qp.toNat bitDepth o.identity))
  if o.identity then d
  else secondPass cfg o.trH o.log2W.toNat bitDepth (firstPass cfg o.trV o.log2W.toNat o.log2H.toNat d)

/-- `w * h` signed 16-bit values, row-major without padding (R67). -/
def readBlock (m : Memory) (a w h : Nat) : List (List Int) :=
  (List.range h).map fun yy => m.readSigned (a + 2 * (yy * w)) w

/-- The samples of a block of a plane, by rows (R187, step 1). -/
def State.readPixels (s : State) (c : Plane) (x y w h : Nat) : List (List Int) :=
  (List.range h).map fun yy => s.memory.readHalves (s.pixAddr c x (y + yy)) w

/-! ## `ITX_BLK` -/

/-- Check 3 of R186: the pair of types and sizes has no kernels. -/
def noKernel (o : BlkOps) : Bool :=
  o.log2W == 0 || o.log2W == 7 || o.log2H == 0 || o.log2H == 7
    || (if o.identity then false
        else !(kernelExists o.trH o.log2W.toNat) || !(kernelExists o.trV o.log2H.toNat))

/-- The CTU indices a block covers (R191). -/
def State.coveredCtus (s : State) (c : Plane) (x y w h : Nat) : List Nat :=
  let lumaX := fun v => v * 2 ^ s.shiftX c / s.ctuSize
  let lumaY := fun v => v * 2 ^ s.shiftY c / s.ctuSize
  (List.range' (lumaY y) (lumaY (y + h - 1) + 1 - lumaY y)).flatMap fun cy =>
    (List.range' (lumaX x) (lumaX (x + w - 1) + 1 - lumaX x)).map fun cx => s.ctuIdx cx cy

/-- Check 4 b of R186. -/
def State.blockOutside (s : State) (o : BlkOps) : Bool :=
  (o.comp != 0 && s.chroma == 0)
    || decide (s.planeW o.plane < o.x.toNat + o.w) || decide (s.planeH o.plane < o.y.toNat + o.h)

/-- Check 4 c of R186. -/
def State.blockTooLate (s : State) (o : BlkOps) : Bool :=
  (s.coveredCtus o.plane o.x.toNat o.y.toNat o.w o.h).any fun i => decide (2 ≤ (s.phaseOf i).rank)

/-- A buffer of `n` bytes at an address: aligned to 2 and inside `BMEM`, else `ADDR` (R62, R64). -/
def State.bufferCheck (s : State) (a : Word) (n : Nat) : Option Raised :=
  failIf (a.toNat % 2 != 0 || decide (s.config.bmemSize < a.toNat + n)) .addr a.toNat

/-- The checks of R186 after the refusal, in order. The plane addresses need none: `PIC_START` has checked them
(log entry 9). -/
def itxBlkChecks (o : BlkOps) (s : State) : List (Option Raised) :=
  [failIf (!o.wellFormed) .illegalCmd s.latch.w0.toNat,
    failIf (noKernel o) .badKernel s.latch.w0.toNat,
    failIf (!o.resOnly && !s.picActive) .order s.latch.w1.toNat,
    failIf (!o.resOnly && s.blockOutside o) .badDim s.latch.w1.toNat,
    failIf (!o.resOnly && s.blockTooLate o) .order s.latch.w1.toNat,
    s.bufferCheck o.coefAddr (2 * o.w * o.h),
    if o.resOnly then s.bufferCheck o.resAddr (2 * o.w * o.h) else none]

/-- The residual of the block whose coefficients are at `coefAddr`. -/
def State.blockResidual (s : State) (o : BlkOps) : List (List Int) :=
  residual s.config s.bitDepth o (readBlock s.memory o.coefAddr.toNat o.w o.h)

/-- The rows step 4 of R187 writes in the plane. -/
def State.reconRows (s : State) (o : BlkOps) : List (List Int) :=
  List.zipWith (List.zipWith (recon s.bitDepth)) (s.readPixels o.plane o.x.toNat o.y.toNat o.w o.h) (s.blockResidual o)

/-- Step 4 of R187: all reads are of the memory before the first write. -/
def itxBlkEffect (o : BlkOps) (s : State) : State :=
  if o.resOnly then s.setMemory (s.memory.writeRows o.resAddr.toNat (2 * o.w) (s.blockResidual o))
  else
    s.setMemory (s.memory.writeRows (s.pixAddr o.plane o.x.toNat o.y.toNat) (s.planeStride o.plane) (s.reconRows o))

/-- `ITX_BLK` (R185 to R192). -/
def execItxBlk (o : BlkOps) (s : State) : Host.Outcome State Fault Refusal :=
  runChecked s (itxBlkChecks o s) (itxBlkEffect o s)

/-! ## `ITX_1D` -/

/-- The checks of R158 after the refusal, in order. -/
def itx1dChecks (o : KernelOps) (s : State) : List (Option Raised) :=
  let bytes := 2 * o.lines.toNat * 2 ^ o.log2N.toNat
  [failIf (!o.wellFormed) .illegalCmd s.latch.w0.toNat,
    failIf (!(kernelExists o.tr o.log2N.toNat)) .badKernel s.latch.w0.toNat,
    s.bufferCheck o.srcAddr bytes,
    s.bufferCheck o.dstAddr bytes]

/-- The output vectors of R158. -/
def itx1dLines (o : KernelOps) (s : State) : List (List Int) :=
  (readBlock s.memory o.srcAddr.toNat (2 ^ o.log2N.toNat) o.lines.toNat).map fun input =>
    inv1D s.config o.tr o.log2N.toNat input o.shift.toNat

/-- `ITX_1D` (R158): all reads, then all writes. -/
def execItx1d (o : KernelOps) (s : State) : Host.Outcome State Fault Refusal :=
  runChecked s (itx1dChecks o s)
    (s.setMemory (s.memory.writeRows o.dstAddr.toNat (2 * 2 ^ o.log2N.toNat) (itx1dLines o s)))

end Sys2Proof.Machine
end

