-- ==== Sys2Proof/Machine/Dispatch.lean ====
section
/-! DEFINITION. The dispatch: one arm per command of the opcode map (R98). -/

namespace Sys2Proof.Machine

-- One direct call of the command's meaning per arm.
def exec (i : Instr) (s : State) : Host.Outcome State Fault Refusal :=
  match i with
  | .nop => Sys2Proof.Machine.execNop s
  | .cfgWr reg value => Sys2Proof.Machine.execCfgWr reg value s
  | .cfgRd reg => Sys2Proof.Machine.execCfgRd reg s
  | .picStart => Sys2Proof.Machine.execPicStart s
  | .sreset => Sys2Proof.Machine.execSreset s
  | .picEnd => Sys2Proof.Machine.execPicEnd s
  | .itxBlk ops => Sys2Proof.Machine.execItxBlk ops s
  | .itx1d ops => Sys2Proof.Machine.execItx1d ops s
  | .bsCtu cx cy => Sys2Proof.Machine.execBsCtu cx cy s
  | .dbfCtu dir cx cy => Sys2Proof.Machine.execDbfCtu dir cx cy s

end Sys2Proof.Machine
end

