-- ==== Sys2Proof/Machine/Step.lean ====
section
/-! DEFINITION. One step: one move of the outside world, or, with no move to come, the idle block (R5, R80, R305, R311).
A presented command is captured, decoded and executed to completion in that one step. Log entries 1 and 11. -/

namespace Sys2Proof.Machine

/-- A command in the operand latches, executed to completion (R2, R98, R99). -/
def runCommand (c : Command) (s : State) : Host.Outcome State Fault Refusal :=
  match decode c with
  | .ok i => exec i s
  | .error _ => illegalCommand s

/-- One step of the machine. -/
def step (s : State) : Host.Outcome State Fault Refusal :=
  match s.host with
  | [] => .next s
  | .present c :: rest => runCommand c (s.present c rest)
  | .store a b :: rest => hostStore a b rest s
  | .powerOn :: rest => .next (s.powerOn rest)

/-- The state in which the next step captures, decodes and runs the given command words (log entry 1). -/
def State.withFetchWord (s : State) (nbits w : Nat) : State :=
  { s with host := .present (tableCommand nbits w) :: s.host }

end Sys2Proof.Machine
end

