-- ==== Sys2Proof/Safety.lean ====
section
/-! DEFINITION. What a safe state is, in the terms statements use: the geometry a picture needs (R273), the invariant
every step keeps, the bound on `BMEM`, and the states that the spec's fault entry (R290) and refusal (R291) lead to,
written out. -/

namespace Sys2Proof.Machine

/-- What `PIC_START` demands of the configuration (R273, check 4). -/
structure State.GeometryFits (s : State) : Prop where
  /-- a: the picture has a size. -/
  sized : 0 < s.picW ∧ 0 < s.picH
  /-- b: a row of each plane in use fits its stride. -/
  planeStrides : ∀ c ∈ s.planesInUse, 2 * s.planeW c ≤ s.planeStride c
  /-- c: a row of records fits `META_STRIDE`. -/
  metaStride : 32 * (s.picW / 4) ≤ s.regs.metaStride.toNat
  /-- d: every region ends inside `BMEM`. -/
  inside : ∀ r ∈ s.regions, r.stop ≤ s.config.bmemSize
  /-- e: the regions are pairwise disjoint as ranges. -/
  disjoint : s.regions.Pairwise fun a b => ¬(a.base < b.stop ∧ b.base < a.stop)

/-- What is true of every state a run reaches. -/
structure State.Inv (s : State) : Prop where
  /-- The parameters are an instantiation R8, R121 and R122 allow. -/
  config : s.config.valid = true
  /-- `BMEM` is in its canonical form. -/
  memory : s.memory.wf
  /-- Every read-write register holds a value legal for it: reserved bits 0, fields legal (R22, R271). -/
  legal : ∀ r : Reg, r.readOnly = false → legalValue s.config r (s.regs.get r) = true
  /-- A fault is recorded with a code of R286 exactly while `FAULTED` is 1 (R39). -/
  recorded : if s.faulted then 1 ≤ s.faultCause.toNat ∧ s.faultCause.toNat ≤ 10
    else s.faultCause = 0 ∧ s.faultInfo = 0 ∧ s.faultW0 = 0
  /-- Outside a picture every phase is `IDLE` (R38, R274). -/
  outside : s.picActive = false → s.phase = []
  /-- The phases are listed in rising order, ... -/
  phasesRise : rising s.phase
  /-- ... none of them `IDLE`, each of a CTU of the picture (R38). -/
  phasesListed : ∀ e ∈ s.phase, e.2 ≠ .idle ∧ e.1 < s.ctusW * s.ctusH
  /-- In a picture the geometry is what `PIC_START` accepted (R37, R273). -/
  picture : s.picActive = true → s.GeometryFits
  /-- Once a CTU is `HOR_DONE`, every CTU is at least `VER_DONE` (R318). -/
  directions : ∀ i < s.ctusW * s.ctusH, s.phaseOf i = .horDone →
    ∀ j < s.ctusW * s.ctusH, 2 ≤ (s.phaseOf j).rank
  /-- Vertical edges go left to right (R317, R319). -/
  leftFirst : ∀ cx cy, cx + 1 < s.ctusW → cy < s.ctusH →
    2 ≤ (s.phaseOf (s.ctuIdx (cx + 1) cy)).rank → 2 ≤ (s.phaseOf (s.ctuIdx cx cy)).rank
  /-- Horizontal edges go top to bottom (R318, R319). -/
  topFirst : ∀ cx cy, cx < s.ctusW → cy + 1 < s.ctusH →
    s.phaseOf (s.ctuIdx cx (cy + 1)) = .horDone → s.phaseOf (s.ctuIdx cx cy) = .horDone

/-- No byte outside `BMEM` has been written (R60, R62). -/
def State.Contained (s : State) : Prop := s.memory.within s.config.bmemSize

/-- An address of a buffer of `n` bytes. -/
abbrev inBuffer (base n a : Nat) : Prop := base ≤ a ∧ a < base + n

/-- The state after a fault entry with a code and an information value: R290, line by line. -/
def State.afterFault (s : State) (code : Nat) (info : Nat) : State :=
  { s with
    faulted    := true
    faultCause := BitVec.ofNat 8 code
    faultInfo  := BitVec.ofNat 32 info
    faultW0    := s.latch.w0
    cmdCount   := s.cmdCount + 1
    reply      := some ⟨BitVec.ofNat 32 (1 + 2 ^ 8 * code), 0⟩ }

/-- The state after a refusal: R291. -/
def State.afterRefusal (s : State) : State :=
  { s with cmdCount := s.cmdCount + 1, reply := some ⟨0x00000B01, 0⟩ }

/-- The state after a command that replies `OK` and has changed nothing else yet (R40, R102). -/
def State.afterOk (s : State) (data : Word) : State :=
  { s with cmdCount := s.cmdCount + 1, reply := some ⟨0, data⟩ }

/-- The block has accepted the command: the reply is `OK`. -/
def State.accepted (s : State) : Prop := ∃ v : Word, s.reply = some ⟨0, v⟩

/-- R99, on the four words alone: the opcode has no row, a must-be-zero bit of its format is set, or a field holds a
reserved value. -/
def illegalWords (c : Command) : Prop :=
  let w0 := c.w0.toNat
  let op := field w0 7 0
  op ∉ [0x00, 0x01, 0x02, 0x03, 0x04, 0x05, 0x10, 0x11, 0x20, 0x30]
    ∨ (op ∈ [0x00, 0x03, 0x04, 0x05] ∧ (field w0 31 8 ≠ 0 ∨ c.w1 ≠ 0 ∨ c.w2 ≠ 0 ∨ c.w3 ≠ 0))
    ∨ (op = 0x01 ∧ (field w0 31 20 ≠ 0 ∨ c.w2 ≠ 0 ∨ c.w3 ≠ 0))
    ∨ (op = 0x02 ∧ (field w0 31 20 ≠ 0 ∨ c.w1 ≠ 0 ∨ c.w2 ≠ 0 ∨ c.w3 ≠ 0))
    ∨ (op = 0x10 ∧ (field w0 31 28 ≠ 0 ∨ field w0 19 18 = 3 ∨ (field w0 20 20 = 0 ∧ c.w3 ≠ 0)))
    ∨ (op = 0x11 ∧ (field w0 31 25 ≠ 0 ∨ c.w1 ≠ 0 ∨ field w0 17 13 = 0 ∨ field w0 24 18 = 0 ∨ 64 < field w0 24 18))
    ∨ (op = 0x20 ∧ (field w0 31 8 ≠ 0 ∨ c.w2 ≠ 0 ∨ c.w3 ≠ 0))
    ∨ (op = 0x30 ∧ (field w0 31 9 ≠ 0 ∨ c.w2 ≠ 0 ∨ c.w3 ≠ 0))

/-- Register numbers and the values R44 gives them after a reset; `CAP` is not here. -/
def resetTable : List (BitVec 12 × Word) :=
  [(0x000, 0x49544531), (0x002, 0), (0x003, 0), (0x004, 0), (0x005, 0), (0x006, 0)]
  ++ [(0x010, 0), (0x011, 0), (0x012, 0x00000580), (0x013, 0), (0x014, 0)]
  ++ [(0x015, 0), (0x016, 0), (0x017, 0), (0x018, 0), (0x019, 0), (0x01A, 0)]
  ++ [(0x020, 0), (0x021, 0), (0x022, 0), (0x024, 0), (0x025, 0), (0x026, 0)]
  ++ [(0x028, 0), (0x029, 0), (0x02A, 0)]
  ++ [(0x030, 1), (0x031, 0), (0x032, 0), (0x033, 0), (0x034, 0), (0x035, 0), (0x036, 0)]

/-- Every register reads its reset value, every phase is `IDLE`, no picture is active and no fault is recorded
(R44, R310). -/
structure State.AtReset (s : State) : Prop where
  registers : ∀ e ∈ resetTable, ∀ r, regOf s.config e.1 = some r → s.readReg r = e.2
  cap : s.readReg .cap = if s.config.hasLadf then 1 else 0
  phases : ∀ i, s.phaseOf i = .idle
  noPicture : s.picActive = false
  noFault : s.faulted = false

/-! ## The transform's formulas, value by value -/

/-- Output sample `n` of a kernel (R140), the input given as a function of the frequency. -/
def kernelAt (cfg : Config) (t : TrType) (log2N shift : Nat) (input : Nat → Int) (n : Nat) : Int :=
  clip16 (((∑ k ∈ Finset.range (2 ^ log2N), basisEntry cfg t log2N k n * input k) + 2 ^ (shift - 1)) / 2 ^ shift)

/-- The dequantized coefficient at row `yy`, column `xx` of a block (R67, R187 steps 1 and 2). -/
def State.dequantAt (s : State) (o : BlkOps) (yy xx : Nat) : Int :=
  dequant s.config o.log2W.toNat o.log2H.toNat o.qp.toNat s.bitDepth o.identity
    (s.memory.readS16 (o.coefAddr.toNat + 2 * (yy * o.w + xx)))

/-- The intermediate value at row `yy`, column `xx` (R188). -/
def State.intermediateAt (s : State) (o : BlkOps) (yy xx : Nat) : Int :=
  kernelAt s.config o.trV o.log2H.toNat 7 (fun j => s.dequantAt o j xx) yy

/-- The residual at row `yy`, column `xx` (R189, R190). -/
def State.residualAt (s : State) (o : BlkOps) (yy xx : Nat) : Int :=
  if o.trH = .ident ∧ o.trV = .ident then s.dequantAt o yy xx
  else kernelAt s.config o.trH o.log2W.toNat (20 - s.bitDepth) (fun k => s.intermediateAt o yy k) xx

/-! ## The bytes a command stores to -/

/-- An address of the samples of a block of a plane (R66, R187). -/
def State.blockStores (s : State) (o : BlkOps) (a : Nat) : Prop :=
  ∃ yy < o.h, inBuffer (s.pixAddr o.plane o.x.toNat (o.y.toNat + yy)) (2 * o.w) a

/-- An address of the `LFP` entries of a CTU (R73, R202). -/
def State.lfpStores (s : State) (cx cy a : Nat) : Prop :=
  ∃ dir : Dir, ∃ ux < s.units, ∃ uy < s.units, inBuffer (s.lfpAddr cx cy dir ux uy) 2 a

/-- An address of the samples nearest an edge: `n` on each side, on each of the first `lines` lines of the segment that
crosses at (x, y) in plane `c` (R238, R262). -/
def State.segmentStores (s : State) (c : Plane) (dir : Dir) (x y lines n a : Nat) : Prop :=
  ∃ i < lines, ∃ k < n,
    let pt := linePos dir x y i
    inBuffer (s.pixAddr c (pPos dir pt.1 pt.2 k).1 (pPos dir pt.1 pt.2 k).2) 2 a
      ∨ inBuffer (s.pixAddr c (qPos dir pt.1 pt.2 k).1 (qPos dir pt.1 pt.2 k).2) 2 a

/-- An address that filtering a unit of a CTU by an entry may store to: when the entry is filterable, three luma samples a
side on four lines (R243), and, in each chroma plane whose filter applies, one sample a side (R261, R262, R264). -/
def State.unitStores (s : State) (dir : Dir) (cx cy : Nat) (u : Nat × Nat) (e : LfpEntry) (a : Nat) : Prop :=
  let x := 4 * (cx * s.units + u.1)
  let y := 4 * (cy * s.units + u.2)
  e.filterable = true ∧
    (s.segmentStores .y dir x y 4 3 a
      ∨ ∃ c : Plane, c ≠ .y ∧ s.chroma ≠ 0 ∧ s.chromaApplies dir x y e c = true ∧
        s.segmentStores c dir (x / 2 ^ s.shiftX c) (y / 2 ^ s.shiftY c) (s.chromaLines dir c) 1 a)

/-- An address that filtering a CTU in a direction may store to: one of a unit inside the picture, by its entry. -/
def State.filterStores (s : State) (dir : Dir) (cx cy a : Nat) : Prop :=
  ∃ u ∈ s.insideUnits cx cy, s.unitStores dir cx cy u (s.lfpEntry cx cy dir u.1 u.2) a

end Sys2Proof.Machine
end

