-- ==== Sys2Proof/Certificates/Slice0/Obligations.lean ====
section
/-! DEFINITION. The statements for the provers, from the numbered rules of spec/. Where a statement rests on a choice of
the model and not on a rule, its docstring names the log entry. -/

section
open Sys2Proof Sys2Proof.Machine

/-! ## Encoding -/

/-- R90 to R97: decoding the encoding of an instruction gives the instruction back, every operand at every value. That a
reserved field value decodes, and is refused by the meaning and not by the decoder as R98 puts it, is the model's choice
(log entry 12). -/
def Obligations.DecodeEncodeRoundTrip : Prop :=
  ∀ i : Instr, decode (encode i) = .ok i

/-- R90 to R95: a command that decodes is the encoding of what it decodes to, so no bit of it is dropped. -/
def Obligations.EncodeDecodeExact : Prop :=
  ∀ (c : Command) (i : Instr), decode c = .ok i → encode i = c

/-- Words written out in R271, R272, R277, R298 and spec/95_test_vectors.md decode to the commands they stand for. -/
def Obligations.SpecWordsDecode : Prop :=
  decode ⟨0x00001201, 0x000005A1, 0, 0⟩ = .ok (.cfgWr 0x012 0x5A1)
    ∧ decode ⟨0x00001202, 0, 0, 0⟩ = .ok (.cfgRd 0x012)
    ∧ decode ⟨0x00000003, 0, 0, 0⟩ = .ok .picStart
    ∧ decode ⟨0x0004E511, 0, 0, 0x100⟩ = .ok (.itx1d ⟨.dst7, 1, 7, 1, 0, 0x100⟩)
    ∧ decode ⟨0x00000020, 0x00000001, 0, 0⟩ = .ok (.bsCtu 1 0)
    ∧ decode ⟨0x00000130, 0x00000001, 0, 0⟩ = .ok (.dbfCtu .hor 1 0)

/-- R99: with no fault recorded, a presented command raises `ILLEGAL_CMD(W0)` exactly when it is illegal by the
conditions of R99 on its four words, whatever else the state holds. -/
def Obligations.IllegalCommandsFault : Prop :=
  ∀ (s : State) (c : Command) (rest : List HostMove), s.host = .present c :: rest → s.faulted = false →
    (illegalWords c ↔ step s = .next ((s.present c rest).afterFault 1 c.w0.toNat))

/-! ## The step -/

/-- R2, R78, R98: the step that finds a command presented captures its words and executes what they decode to. -/
def Obligations.StepRunsDecoded : Prop :=
  ∀ (s : State) (c : Command) (rest : List HostMove) (i : Instr), s.host = .present c :: rest → decode c = .ok i →
    step s = exec i { s with host := rest, latch := c }

/-- R75, R305: with nothing presented the block holds its state; a host store inside `BMEM` changes that byte and no
other, and nothing else of the block. That the host's moves stand in `State` is the model's choice (log entry 1). -/
def Obligations.HostMoves : Prop :=
  (∀ s : State, s.host = [] → step s = .next s)
    ∧ ∀ (s : State) (a : Nat) (b : Byte) (rest : List HostMove), s.host = .store a b :: rest → a < s.config.bmemSize →
        ∃ m, step s = .next { s with host := rest, memory := m }
          ∧ ∀ x, m.readByte x = if x = a then b else s.memory.readByte x

/-- R40: every command but `SRESET` adds 1 to `CMD_COUNT` modulo 2^32, whatever its reply; `SRESET` leaves 0; a `CFG_RD`
of `CMD_COUNT` answers the count before it. -/
def Obligations.CommandsAreCounted : Prop :=
  ∀ (s t : State) (c : Command) (rest : List HostMove), s.host = .present c :: rest → step s = .next t →
    (c ≠ ⟨4, 0, 0, 0⟩ → t.cmdCount.toNat = (s.cmdCount.toNat + 1) % 2 ^ 32)
      ∧ (c = ⟨4, 0, 0, 0⟩ → t.cmdCount = 0)
      ∧ (c = ⟨0x00000502, 0, 0, 0⟩ → t.reply = some ⟨0, s.cmdCount⟩)

/-- R102, R322, R324: every presented command ends in one step with one reply, `OK` or a fault with a code of R286. -/
def Obligations.EveryCommandReplies : Prop :=
  ∀ (s : State) (c : Command) (rest : List HostMove), s.host = .present c :: rest →
    ∃ t, step s = .next t ∧ t.host = rest ∧
      (t.accepted ∨ ∃ k, 1 ≤ k ∧ k ≤ 11 ∧ t.reply = some ⟨BitVec.ofNat 32 (1 + 2 ^ 8 * k), 0⟩)

/-! ## Reset -/

/-- R310: a hardware reset and `SRESET` put every register, `PHASE`, `PIC_ACTIVE` and `FAULTED` at the values of R44;
the first gives no reply and leaves every byte of `BMEM` at an open value, the second replies `OK` and leaves `BMEM`.
The model's choices: the open value is `Config.powerOnByte` of the number of the power-on (log entry 5), and a hardware
reset is a move of the host that keeps the parameters (log entries 2 and 17). -/
def Obligations.ResetsLeave : Prop :=
  State.reset.AtReset
    ∧ (∀ (s : State) (rest : List HostMove), s.host = .powerOn :: rest →
        ∃ t, step s = .next t ∧ t.AtReset ∧ t.reply = none ∧ t.config = s.config
          ∧ ∀ a, t.memory.readByte a = Config.powerOnByte t.memory.epoch a)
    ∧ ∀ s : State, ∃ t, exec .sreset s = .next t ∧ t.AtReset ∧ t.reply = some ⟨0, 0⟩ ∧ t.config = s.config
        ∧ t.host = s.host ∧ t.memory = s.memory

/-- R275: a command of opcode 4 is an `SRESET` exactly in the form `W0 = 4, W1 = W2 = W3 = 0`, accepted in every state;
any other form is illegal, or refused while faulted. -/
def Obligations.SresetFormIsExact : Prop :=
  ∀ (s : State) (c : Command) (rest : List HostMove), s.host = .present c :: rest → field c.w0.toNat 7 0 = 4 →
    (c = ⟨4, 0, 0, 0⟩ → ∃ t, step s = .next t ∧ t.AtReset ∧ t.memory = s.memory ∧ t.reply = some ⟨0, 0⟩)
      ∧ (c ≠ ⟨4, 0, 0, 0⟩ → step s = .next
          (if s.faulted then (s.present c rest).afterRefusal else (s.present c rest).afterFault 1 c.w0.toNat))

/-! ## System commands -/

/-- R270: `NOP` replies `OK` and is counted; nothing else changes. -/
def Obligations.NopCompletes : Prop :=
  ∀ s : State, s.faulted = false → exec .nop s = .next (s.afterOk 0)

/-- R271: a `CFG_WR` whose checks pass writes the whole register; every other register but `CMD_COUNT` reads as before,
and nothing outside the registers changes. -/
def Obligations.CfgWrWrites : Prop :=
  ∀ (s : State) (reg : BitVec 12) (r : Reg) (value : Word), s.faulted = false → regOf s.config reg = some r →
    r.readOnly = false → (r.geometry = true → s.picActive = false) → legalValue s.config r value = true →
    ∃ g, exec (.cfgWr reg value) s = .next ({ s with regs := g }.afterOk 0)
      ∧ { s with regs := g }.readReg r = value
      ∧ ∀ r', r' ≠ r → { s with regs := g }.readReg r' = s.readReg r'

/-- R271: the faults of `CFG_WR`, in the order of its checks. -/
def Obligations.CfgWrFaults : Prop :=
  ∀ (s : State) (reg : BitVec 12) (value : Word), s.faulted = false →
    (regOf s.config reg = none → exec (.cfgWr reg value) s = .next (s.afterFault 2 reg.toNat))
      ∧ ∀ r, regOf s.config reg = some r →
        (r.readOnly = true → exec (.cfgWr reg value) s = .next (s.afterFault 2 reg.toNat))
          ∧ (r.readOnly = false → r.geometry = true → s.picActive = true →
              exec (.cfgWr reg value) s = .next (s.afterFault 8 reg.toNat))
          ∧ (r.readOnly = false → (r.geometry = true → s.picActive = false) → legalValue s.config r value = false →
              exec (.cfgWr reg value) s = .next (s.afterFault 3 value.toNat))

/-- R22, R34, R37 and the table of R271 in numbers: which numbers hold a register, which of them `PIC_ACTIVE` locks, and
the values legal in each read-write register. -/
def Obligations.RegisterSpace : Prop :=
  ∀ (cfg : Config) (n : BitVec 12),
    (regOf cfg n = none ↔
      ¬(n.toNat ≤ 0x006 ∨ (0x010 ≤ n.toNat ∧ n.toNat ≤ 0x01A) ∨ (0x020 ≤ n.toNat ∧ n.toNat ≤ 0x022)
        ∨ (0x024 ≤ n.toNat ∧ n.toNat ≤ 0x026) ∨ (0x028 ≤ n.toNat ∧ n.toNat ≤ 0x02A)
        ∨ (0x030 ≤ n.toNat ∧ n.toNat ≤ 0x036 ∧ cfg.hasLadf = true)))
      ∧ ∀ r, regOf cfg n = some r →
        (r.readOnly = true ↔ n.toNat ≤ 0x00F)
          ∧ (r.geometry = true ↔ n.toNat = 0x011 ∨ n.toNat = 0x012 ∨ (0x014 ≤ n.toNat ∧ n.toNat ≤ 0x02A))
          ∧ ∀ value : Word,
            let v := value.toNat
            (n.toNat = 0x010 → (legalValue cfg r value = true ↔ v < 16 ∧ (8 ≤ v → cfg.hasLadf = true)))
              ∧ (n.toNat = 0x011 → (legalValue cfg r value = true ↔
                  (v % 2 ^ 16 % 8 = 0 ∧ v % 2 ^ 16 ≤ cfg.maxPicW) ∧ (v / 2 ^ 16 % 8 = 0 ∧ v / 2 ^ 16 ≤ cfg.maxPicH)))
              ∧ (n.toNat = 0x012 → (legalValue cfg r value = true ↔ v < 2 ^ 11 ∧ v / 4 % 4 = 0
                  ∧ (8 ≤ v / 16 % 16 ∧ v / 16 % 16 ≤ 12) ∧ (5 ≤ v / 256 ∧ v / 256 ≤ 7)))
              ∧ (n.toNat = 0x014 → (legalValue cfg r value = true ↔ v < 16))
              ∧ (0x015 ≤ n.toNat → n.toNat ≤ 0x01A → (legalValue cfg r value = true ↔ v < 2 ^ 16 ∧ v % 8 = 0))
              ∧ (0x020 ≤ n.toNat → n.toNat ≤ 0x026 → (legalValue cfg r value = true ↔ v % 2 = 0))
              ∧ (0x028 ≤ n.toNat → n.toNat ≤ 0x029 → (legalValue cfg r value = true ↔ v % 32 = 0))
              ∧ (n.toNat = 0x02A → (legalValue cfg r value = true ↔ v % 2 = 0))
              ∧ (n.toNat = 0x030 → (legalValue cfg r value = true ↔ 1 ≤ v ∧ v ≤ 5))
              ∧ (n.toNat = 0x032 → (legalValue cfg r value = true ↔ v < 2 ^ 8))
              ∧ (0x033 ≤ n.toNat → (legalValue cfg r value = true ↔ v < 2 ^ 16))
              ∧ (n.toNat = 0x013 ∨ n.toNat = 0x031 → legalValue cfg r value = true)

/-- R272, R291: a `CFG_RD` of an existing register answers its value in every state, faulted or not, and only the count
changes; of any other number it raises `BAD_REG`, or is refused while faulted. -/
def Obligations.CfgRdAnswers : Prop :=
  ∀ (s : State) (reg : BitVec 12),
    (∀ r, regOf s.config reg = some r → exec (.cfgRd reg) s = .next (s.afterOk (s.readReg r)))
      ∧ (regOf s.config reg = none → s.faulted = false → exec (.cfgRd reg) s = .next (s.afterFault 2 reg.toNat))
      ∧ (regOf s.config reg = none → s.faulted = true → exec (.cfgRd reg) s = .next s.afterRefusal)

/-- R23: the bits of `STATUS`, the summary bits by "every CTU of the picture". -/
def Obligations.StatusBits : Prop :=
  ∀ s : State,
    let w := (s.readReg .status).toNat
    w < 2 ^ 5 ∧ flag w 0 = s.faulted ∧ flag w 1 = s.picActive
      ∧ (flag w 2 = true ↔ s.picActive = true ∧
          ∀ cx < s.ctusW, ∀ cy < s.ctusH, s.phaseOf (s.ctuIdx cx cy) ≠ .idle)
      ∧ (flag w 3 = true ↔ s.picActive = true ∧ ∀ cx < s.ctusW, ∀ cy < s.ctusH,
          s.phaseOf (s.ctuIdx cx cy) = .verDone ∨ s.phaseOf (s.ctuIdx cx cy) = .horDone)
      ∧ (flag w 4 = true ↔ s.picActive = true ∧
          ∀ cx < s.ctusW, ∀ cy < s.ctusH, s.phaseOf (s.ctuIdx cx cy) = .horDone)

/-- R273: `PIC_START` outside a picture is accepted exactly when the geometry fits; then the picture is active, every
phase is `IDLE`, and no register and no byte changes. -/
def Obligations.PicStartCompletes : Prop :=
  ∀ s : State, s.faulted = false → s.picActive = false →
    (s.GeometryFits → exec .picStart s = .next ({ s with picActive := true, phase := [] }.afterOk 0)
      ∧ ∀ i, State.phaseOf { s with picActive := true, phase := [] } i = .idle)
      ∧ (¬s.GeometryFits → ∃ k info, (k = 6 ∨ k = 7) ∧ exec .picStart s = .next (s.afterFault k info))

/-- R273: the faults of `PIC_START`, in the order of its checks a to e. -/
def Obligations.PicStartFaults : Prop :=
  ∀ s : State, s.faulted = false →
    (s.picActive = true → exec .picStart s = .next (s.afterFault 8 0))
      ∧ (s.picActive = false →
        (s.picW = 0 ∨ s.picH = 0 → exec .picStart s = .next (s.afterFault 6 0x011))
          ∧ (s.picW ≠ 0 → s.picH ≠ 0 →
            (∀ before c after, s.planesInUse = before ++ c :: after →
                (∀ d ∈ before, 2 * s.planeW d ≤ s.planeStride d) → s.planeStride c < 2 * s.planeW c →
                exec .picStart s = .next (s.afterFault 6 (0x024 + c.index)))
              ∧ ((∀ c ∈ s.planesInUse, 2 * s.planeW c ≤ s.planeStride c) →
                (s.regs.metaStride.toNat < 32 * (s.picW / 4) → exec .picStart s = .next (s.afterFault 6 0x029))
                  ∧ (32 * (s.picW / 4) ≤ s.regs.metaStride.toNat →
                    (∀ before r after, s.regions = before ++ r :: after →
                        (∀ q ∈ before, q.stop ≤ s.config.bmemSize) → s.config.bmemSize < r.stop →
                        exec .picStart s = .next (s.afterFault 7 r.base))
                      ∧ ((∀ r ∈ s.regions, r.stop ≤ s.config.bmemSize) →
                        ∀ before a between b after, s.regions = before ++ a :: between ++ b :: after →
                          (∀ p ∈ before, ∀ q ∈ s.regions, p ≠ q → ¬(p.base < q.stop ∧ q.base < p.stop)) →
                          (∀ q ∈ between, ¬(a.base < q.stop ∧ q.base < a.stop)) →
                          a.base < b.stop → b.base < a.stop →
                          exec .picStart s = .next (s.afterFault 6 b.reg))))))

/-- R274: `PIC_END` ends the picture whatever the phases are; outside a picture it raises `ORDER(0)`. -/
def Obligations.PicEndCompletes : Prop :=
  ∀ s : State, s.faulted = false →
    (s.picActive = true → exec .picEnd s = .next ({ s with picActive := false, phase := [] }.afterOk 0))
      ∧ (s.picActive = false → exec .picEnd s = .next (s.afterFault 8 0))

/-! ## Faults -/

/-- R291: while faulted, a presented command that is neither the exact `SRESET` nor a `CFG_RD` of an existing register is
refused: reply code 11, the count, and nothing else; those two are accepted. -/
def Obligations.FaultedStateRefuses : Prop :=
  ∀ (s : State) (c : Command) (rest : List HostMove), s.host = .present c :: rest → s.faulted = true →
    (c ≠ ⟨4, 0, 0, 0⟩ → (∀ reg, decode c = .ok (.cfgRd reg) → regOf s.config reg = none) →
        step s = .next (s.present c rest).afterRefusal)
      ∧ (c = ⟨4, 0, 0, 0⟩ → ∃ t, step s = .next t ∧ t.accepted ∧ t.faulted = false)
      ∧ ∀ reg r, decode c = .ok (.cfgRd reg) → regOf s.config reg = some r →
          step s = .next ((s.present c rest).afterOk (s.readReg r))

/-- R290: a presented command that raises a fault writes the fault record (`FAULT_W0` its `W0`), the count and the reply,
and changes nothing else; one that does not fault replies `OK`. -/
def Obligations.FaultsArePrecise : Prop :=
  ∀ (s t : State) (c : Command) (rest : List HostMove), s.host = .present c :: rest → s.faulted = false →
    step s = .next t →
    (t.faulted = true → t.faultW0 = c.w0 ∧ ∃ k info, 1 ≤ k ∧ k ≤ 10 ∧ t = (s.present c rest).afterFault k info)
      ∧ (t.faulted = false → t.accepted)

/-- R297: which command, once decoded, can raise which fault. -/
def Obligations.FaultTable : Prop :=
  ∀ (i : Instr) (s t : State), s.faulted = false → exec i s = .next t → t.faulted = true →
    t.faultCause.toNat ∈
      (match i with
       | .nop => []
       | .cfgWr _ _ => [2, 3, 8]
       | .cfgRd _ => [2]
       | .picStart => [6, 7, 8]
       | .picEnd => [8]
       | .sreset => []
       | .itxBlk _ => [1, 4, 5, 7, 8]
       | .itx1d _ => [1, 4, 7]
       | .bsCtu _ _ => [5, 8, 9]
       | .dbfCtu _ _ _ => [5, 8, 10] : List Nat)

/-- R39, R120, R276, R292: what no command changes, and which commands alone change what: parameters, host moves and
latches none; registers only `CFG_WR` and `SRESET`; `BMEM` only the four working commands; `PIC_ACTIVE` only the picture
brackets and `SRESET`; `PHASE` those and the two CTU commands; the fault record a fault entry and `SRESET`. -/
def Obligations.FramesOfAllCommands : Prop :=
  ∀ (i : Instr) (s t : State), exec i s = .next t →
    t.config = s.config ∧ t.host = s.host ∧ t.latch = s.latch
      ∧ (t.regs = s.regs ∨ i = .sreset ∨ ∃ reg value, i = .cfgWr reg value)
      ∧ (t.memory = s.memory ∨ (∃ o, i = .itxBlk o) ∨ (∃ o, i = .itx1d o) ∨ (∃ cx cy, i = .bsCtu cx cy)
          ∨ ∃ dir cx cy, i = .dbfCtu dir cx cy)
      ∧ (t.picActive = s.picActive ∨ i = .sreset ∨ (i = .picStart ∧ t.picActive = true)
          ∨ (i = .picEnd ∧ t.picActive = false))
      ∧ (t.phase = s.phase ∨ i = .sreset ∨ i = .picStart ∨ i = .picEnd ∨ (∃ cx cy, i = .bsCtu cx cy)
          ∨ ∃ dir cx cy, i = .dbfCtu dir cx cy)
      ∧ ((t.faulted = s.faulted ∧ t.faultCause = s.faultCause ∧ t.faultInfo = s.faultInfo ∧ t.faultW0 = s.faultW0)
          ∨ i = .sreset ∨ (s.faulted = false ∧ t.faulted = true))

/-! ## The picture state machine -/

/-- R314: after any command the phase of any CTU index is what it was, or has moved by a row of the table. -/
def Obligations.PhasesMoveByTheTable : Prop :=
  ∀ (i : Instr) (s t : State) (j : Nat), exec i s = .next t →
    t.phaseOf j = s.phaseOf j
      ∨ ((i = .sreset ∨ i = .picStart ∨ i = .picEnd) ∧ t.phaseOf j = .idle)
      ∨ (∃ cx cy : BitVec 16, i = .bsCtu cx cy ∧ j = s.ctuIdx cx.toNat cy.toNat ∧ s.phaseOf j = .idle
          ∧ t.phaseOf j = .bsDone)
      ∨ (∃ cx cy : BitVec 16, i = .dbfCtu .ver cx cy ∧ j = s.ctuIdx cx.toNat cy.toNat ∧ s.phaseOf j = .bsDone
          ∧ (cx.toNat ≠ 0 → 2 ≤ (s.phaseOf (s.ctuIdx (cx.toNat - 1) cy.toNat)).rank) ∧ t.phaseOf j = .verDone)
      ∨ (∃ cx cy : BitVec 16, i = .dbfCtu .hor cx cy ∧ j = s.ctuIdx cx.toNat cy.toNat ∧ s.phaseOf j = .verDone
          ∧ (∀ k < s.ctusW * s.ctusH, 2 ≤ (s.phaseOf k).rank)
          ∧ (cy.toNat ≠ 0 → s.phaseOf (s.ctuIdx cx.toNat (cy.toNat - 1)) = .horDone) ∧ t.phaseOf j = .horDone)

/-- R318, R244: once a CTU is `HOR_DONE`, `BS_CTU` and `DBF_CTU dir=VER` of every CTU of the picture raise `ORDER(W1)`,
and `ITX_BLK` changes no sample plane: none of them changes `BMEM` or `PHASE`. -/
def Obligations.HorizontalPassLocksThePicture : Prop :=
  ∀ (s : State) (k : Nat), s.Inv → s.faulted = false → k < s.ctusW * s.ctusH → s.phaseOf k = .horDone →
    ∀ cx cy : BitVec 16, cx.toNat < s.ctusW → cy.toNat < s.ctusH →
      exec (.bsCtu cx cy) s = .next (s.afterFault 8 s.latch.w1.toNat)
        ∧ exec (.dbfCtu .ver cx cy) s = .next (s.afterFault 8 s.latch.w1.toNat)
        ∧ ∀ (o : BlkOps) (t : State), o.resOnly = false → exec (.itxBlk o) s = .next t →
            t.faulted = true ∧ t.memory = s.memory ∧ t.phase = s.phase

/-! ## Memory -/

/-- R12, R61: `MemWrite` stores little-endian and `MemRead` of the same item gives the value modulo 2^(8 n); every byte
outside the item is left alone. -/
def Obligations.ReadAfterWrite : Prop :=
  ∀ (m : Memory) (a n v : Nat),
    (m.write a n v).read a n = v % 2 ^ (8 * n)
      ∧ (∀ k < n, (m.write a n v).readByte (a + k) = BitVec.ofNat 8 (v / 2 ^ (8 * k)))
      ∧ ∀ x, ¬inBuffer a n x → (m.write a n v).readByte x = m.readByte x

/-! ## Kernels and `ITX_1D` -/

/-- R140: `Inv1D` is the matrix product, rounded, shifted and clipped, for every family and size that has a kernel. -/
def Obligations.KernelIsMatrixProduct : Prop :=
  ∀ (cfg : Config) (t : TrType) (log2N shift : Nat) (input : List Int), cfg.valid = true →
    kernelExists t log2N = true → input.length = 2 ^ log2N → 1 ≤ shift → shift ≤ 31 →
    (inv1D cfg t log2N input shift).length = 2 ^ log2N
      ∧ ∀ n < 2 ^ log2N,
        (inv1D cfg t log2N input shift).getD n 0 =
            clip16 (((∑ k ∈ Finset.range (2 ^ log2N), basisEntry cfg t log2N k n * input.getD k 0) + 2 ^ (shift - 1))
              / 2 ^ shift)
          ∧ -32768 ≤ (inv1D cfg t log2N input shift).getD n 0
          ∧ (inv1D cfg t log2N input shift).getD n 0 ≤ 32767

/-- R157 (a): an all-zero input gives an all-zero output, whatever the tables hold, for every shift of at least 1. -/
def Obligations.ZeroInputGivesZero : Prop :=
  ∀ (cfg : Config) (t : TrType) (log2N shift : Nat) (input : List Int), 1 ≤ shift → (∀ v ∈ input, v = 0) →
    ∀ v ∈ inv1D cfg t log2N input shift, v = 0

/-- R158: an `ITX_1D` whose checks pass writes the kernel's output of each source vector to the destination buffer, all
reads before all writes, and no other byte; no register, phase or flag changes. -/
def Obligations.Itx1dCompletes : Prop :=
  ∀ (o : KernelOps) (s : State), s.faulted = false → s.config.valid = true →
    1 ≤ o.shift.toNat → 1 ≤ o.lines.toNat → o.lines.toNat ≤ 64 → kernelExists o.tr o.log2N.toNat = true →
    o.srcAddr.toNat % 2 = 0 → o.srcAddr.toNat + 2 * o.lines.toNat * 2 ^ o.log2N.toNat ≤ s.config.bmemSize →
    o.dstAddr.toNat % 2 = 0 → o.dstAddr.toNat + 2 * o.lines.toNat * 2 ^ o.log2N.toNat ≤ s.config.bmemSize →
    ∃ m, exec (.itx1d o) s = .next ({ s with memory := m }.afterOk 0)
      ∧ (∀ l < o.lines.toNat, ∀ n < 2 ^ o.log2N.toNat,
          m.readS16 (o.dstAddr.toNat + 2 * (l * 2 ^ o.log2N.toNat + n)) =
            kernelAt s.config o.tr o.log2N.toNat o.shift.toNat
              (fun k => s.memory.readS16 (o.srcAddr.toNat + 2 * (l * 2 ^ o.log2N.toNat + k))) n)
      ∧ ∀ a, ¬inBuffer o.dstAddr.toNat (2 * o.lines.toNat * 2 ^ o.log2N.toNat) a → m.readByte a = s.memory.readByte a

/-- R158: the faults of `ITX_1D`, in the order of its checks, and acceptance when none applies. -/
def Obligations.Itx1dFaults : Prop :=
  ∀ (o : KernelOps) (s : State), s.faulted = false →
    let bytes := 2 * o.lines.toNat * 2 ^ o.log2N.toNat
    let kernel := (o.tr = .dct2 ∧ 1 ≤ o.log2N.toNat ∧ o.log2N.toNat ≤ 6)
      ∨ ((o.tr = .dst7 ∨ o.tr = .dct8) ∧ 2 ≤ o.log2N.toNat ∧ o.log2N.toNat ≤ 5)
    let reserved := o.shift.toNat = 0 ∨ o.lines.toNat = 0 ∨ 64 < o.lines.toNat
    let badSrc := o.srcAddr.toNat % 2 = 1 ∨ s.config.bmemSize < o.srcAddr.toNat + bytes
    let badDst := o.dstAddr.toNat % 2 = 1 ∨ s.config.bmemSize < o.dstAddr.toNat + bytes
    (reserved → exec (.itx1d o) s = .next (s.afterFault 1 s.latch.w0.toNat))
      ∧ (¬reserved → ¬kernel → exec (.itx1d o) s = .next (s.afterFault 4 s.latch.w0.toNat))
      ∧ (¬reserved → kernel → badSrc → exec (.itx1d o) s = .next (s.afterFault 7 o.srcAddr.toNat))
      ∧ (¬reserved → kernel → ¬badSrc → badDst → exec (.itx1d o) s = .next (s.afterFault 7 o.dstAddr.toNat))
      ∧ (¬reserved → kernel → ¬badSrc → ¬badDst → ∃ t, exec (.itx1d o) s = .next t ∧ t.accepted)

/-! ## `ITX_BLK` -/

/-- R171: `Dequant` by its formula, for every block and identity flag. -/
def Obligations.DequantFormula : Prop :=
  ∀ (cfg : Config) (log2W log2H qp bitDepth : Nat) (ts : Bool) (level : Int),
    let rect := if ts then 0 else (log2W + log2H) % 2
    let rshift : Int := if ts then 6 - (qp / 6 : Nat)
      else bitDepth + rect + ((log2W + log2H) / 2 : Nat) - 9 - (qp / 6 : Nat)
    let scale : Int := ((if rect = 0 then cfg.deqScale0 else cfg.deqScale1).getD (qp % 6) 0 : Nat)
    (0 < rshift → dequant cfg log2W log2H qp bitDepth ts level =
        clip16 ((level * scale + 2 ^ (rshift.toNat - 1)) / 2 ^ rshift.toNat))
      ∧ (rshift ≤ 0 → dequant cfg log2W log2H qp bitDepth ts level = clip16 (level * scale * 2 ^ (-rshift).toNat))

/-- R174 (a), R172: dequantizing 0 gives 0, every result is a signed 16-bit value, and a larger level never gives a smaller
result. The last rests on the model's choice that `DEQ_SCALE` holds natural numbers (log entry 21). -/
def Obligations.DequantIsMonotoneAndBounded : Prop :=
  ∀ (cfg : Config) (log2W log2H qp bitDepth : Nat) (ts : Bool) (a b : Int),
    dequant cfg log2W log2H qp bitDepth ts 0 = 0
      ∧ -32768 ≤ dequant cfg log2W log2H qp bitDepth ts a ∧ dequant cfg log2W log2H qp bitDepth ts a ≤ 32767
      ∧ (a ≤ b → dequant cfg log2W log2H qp bitDepth ts a ≤ dequant cfg log2W log2H qp bitDepth ts b)

/-- R67, R68, R187 to R190: an `ITX_BLK` with `resOnly = 1` whose checks pass writes the residual of every sample of the
block, row-major, to the residual buffer, and no other byte; it needs no picture. -/
def Obligations.ItxBlkStoresResidual : Prop :=
  ∀ (o : BlkOps) (s : State), s.faulted = false → s.config.valid = true → o.wellFormed = true → noKernel o = false →
    o.resOnly = true →
    o.coefAddr.toNat % 2 = 0 → o.coefAddr.toNat + 2 * o.w * o.h ≤ s.config.bmemSize →
    o.resAddr.toNat % 2 = 0 → o.resAddr.toNat + 2 * o.w * o.h ≤ s.config.bmemSize →
    ∃ m, exec (.itxBlk o) s = .next ({ s with memory := m }.afterOk 0)
      ∧ (∀ yy < o.h, ∀ xx < o.w, m.readS16 (o.resAddr.toNat + 2 * (yy * o.w + xx)) = s.residualAt o yy xx)
      ∧ ∀ a, ¬inBuffer o.resAddr.toNat (2 * o.w * o.h) a → m.readByte a = s.memory.readByte a

/-- R66, R173, R187 to R191: an `ITX_BLK` with `resOnly = 0` whose checks pass adds the residual to the prediction in the
plane, clips to the sample range, and writes no byte outside the block. `Inv` gives the geometry `PIC_START` accepted.
That it completes for `x` and `y` that are no multiples of 4 is the model's choice (log entry 19). -/
def Obligations.ItxBlkReconstructs : Prop :=
  ∀ (o : BlkOps) (s : State), s.Inv → s.faulted = false → o.wellFormed = true → noKernel o = false →
    o.resOnly = false → s.picActive = true → (o.comp ≠ 0 → s.chroma ≠ 0) →
    o.x.toNat + o.w ≤ s.planeW o.plane → o.y.toNat + o.h ≤ s.planeH o.plane →
    (∀ cx cy, o.x.toNat * 2 ^ s.shiftX o.plane / s.ctuSize ≤ cx →
      cx ≤ (o.x.toNat + o.w - 1) * 2 ^ s.shiftX o.plane / s.ctuSize →
      o.y.toNat * 2 ^ s.shiftY o.plane / s.ctuSize ≤ cy →
      cy ≤ (o.y.toNat + o.h - 1) * 2 ^ s.shiftY o.plane / s.ctuSize →
      s.phaseOf (s.ctuIdx cx cy) = .idle ∨ s.phaseOf (s.ctuIdx cx cy) = .bsDone) →
    o.coefAddr.toNat % 2 = 0 → o.coefAddr.toNat + 2 * o.w * o.h ≤ s.config.bmemSize →
    ∃ m, exec (.itxBlk o) s = .next ({ s with memory := m }.afterOk 0)
      ∧ (∀ yy < o.h, ∀ xx < o.w,
          (m.read (s.pixAddr o.plane (o.x.toNat + xx) (o.y.toNat + yy)) 2 : Int) =
            clip3 0 (2 ^ s.bitDepth - 1) (s.pix o.plane (o.x.toNat + xx) (o.y.toNat + yy) + s.residualAt o yy xx))
      ∧ ∀ a, ¬s.blockStores o a → m.readByte a = s.memory.readByte a

/-- R186: the faults of `ITX_BLK`, in the order of its checks, and acceptance when none applies. That `x` and `y` that are
no multiples of 4 are accepted is the model's choice (log entry 19). -/
def Obligations.ItxBlkFaults : Prop :=
  ∀ (o : BlkOps) (s : State), s.faulted = false →
    let inPlane := o.resOnly = false
    let reserved := o.comp = 3 ∨ (inPlane ∧ o.resAddr ≠ 0)
    let sizes := (1 ≤ o.log2W.toNat ∧ o.log2W.toNat ≤ 6) ∧ (1 ≤ o.log2H.toNat ∧ o.log2H.toNat ≤ 6)
    let kernels := (o.trH = .ident ∧ o.trV = .ident)
      ∨ ((o.trH = .dct2 ∨ ((o.trH = .dst7 ∨ o.trH = .dct8) ∧ 2 ≤ o.log2W.toNat ∧ o.log2W.toNat ≤ 5))
        ∧ (o.trV = .dct2 ∨ ((o.trV = .dst7 ∨ o.trV = .dct8) ∧ 2 ≤ o.log2H.toNat ∧ o.log2H.toNat ≤ 5)))
    let noPicture := inPlane ∧ s.picActive = false
    let outside := inPlane ∧ ((o.comp ≠ 0 ∧ s.chroma = 0)
      ∨ s.planeW o.plane < o.x.toNat + o.w ∨ s.planeH o.plane < o.y.toNat + o.h)
    let late := inPlane ∧ ∃ cx cy, o.x.toNat * 2 ^ s.shiftX o.plane / s.ctuSize ≤ cx
      ∧ cx ≤ (o.x.toNat + o.w - 1) * 2 ^ s.shiftX o.plane / s.ctuSize
      ∧ o.y.toNat * 2 ^ s.shiftY o.plane / s.ctuSize ≤ cy
      ∧ cy ≤ (o.y.toNat + o.h - 1) * 2 ^ s.shiftY o.plane / s.ctuSize
      ∧ (s.phaseOf (s.ctuIdx cx cy) = .verDone ∨ s.phaseOf (s.ctuIdx cx cy) = .horDone)
    let badCoef := o.coefAddr.toNat % 2 = 1 ∨ s.config.bmemSize < o.coefAddr.toNat + 2 * o.w * o.h
    let badRes := o.resOnly = true ∧ (o.resAddr.toNat % 2 = 1 ∨ s.config.bmemSize < o.resAddr.toNat + 2 * o.w * o.h)
    (reserved → exec (.itxBlk o) s = .next (s.afterFault 1 s.latch.w0.toNat))
      ∧ (¬reserved → ¬(sizes ∧ kernels) → exec (.itxBlk o) s = .next (s.afterFault 4 s.latch.w0.toNat))
      ∧ (¬reserved → sizes ∧ kernels →
        (noPicture → exec (.itxBlk o) s = .next (s.afterFault 8 s.latch.w1.toNat))
          ∧ (¬noPicture → outside → exec (.itxBlk o) s = .next (s.afterFault 5 s.latch.w1.toNat))
          ∧ (¬noPicture → ¬outside → late → exec (.itxBlk o) s = .next (s.afterFault 8 s.latch.w1.toNat))
          ∧ (¬noPicture → ¬outside → ¬late →
            (badCoef → exec (.itxBlk o) s = .next (s.afterFault 7 o.coefAddr.toNat))
              ∧ (¬badCoef → badRes → exec (.itxBlk o) s = .next (s.afterFault 7 o.resAddr.toNat))
              ∧ (¬badCoef → ¬badRes → ∃ t, exec (.itxBlk o) s = .next t ∧ t.accepted)))

/-! ## `BS_CTU` -/

/-- R202, R213: a `BS_CTU` whose checks pass writes the entry of every unit of the CTU in both directions, makes the CTU
`BS_DONE`, and changes no other byte, phase or register. -/
def Obligations.BsCtuCompletes : Prop :=
  ∀ (cx cy : BitVec 16) (s : State), s.faulted = false → s.picActive = true →
    cx.toNat < s.ctusW → cy.toNat < s.ctusH →
    (s.phaseOf (s.ctuIdx cx.toNat cy.toNat) = .idle ∨ s.phaseOf (s.ctuIdx cx.toNat cy.toNat) = .bsDone) →
    (∀ g ∈ s.bsUnits cx.toNat cy.toNat, (s.metaRec g.1 g.2).malformed = false) →
    ∃ m p, exec (.bsCtu cx cy) s = .next ({ s with memory := m, phase := p }.afterOk 0)
      ∧ (∀ (dir : Dir), ∀ ux < s.units, ∀ uy < s.units,
          m.read (s.lfpAddr cx.toNat cy.toNat dir ux uy) 2 =
            s.bsEntry dir (cx.toNat * s.units + ux) (cy.toNat * s.units + uy) ux uy)
      ∧ (∀ a, ¬s.lfpStores cx.toNat cy.toNat a → m.readByte a = s.memory.readByte a)
      ∧ ∀ j, State.phaseOf { s with memory := m, phase := p } j =
          if j = s.ctuIdx cx.toNat cy.toNat then .bsDone else s.phaseOf j

/-- R201, R203: the faults of `BS_CTU`, in the order of its checks, and acceptance when none applies. `BAD_META` names the
first record that R71 calls malformed, in the order of R203: own units, left column, row above, each inside the picture;
records and their fields stand where R70 puts them. -/
def Obligations.BsCtuFaults : Prop :=
  ∀ (cx cy : BitVec 16) (s : State), s.faulted = false →
    let outside := s.ctusW ≤ cx.toNat ∨ s.ctusH ≤ cy.toNat
    let late := s.phaseOf (s.ctuIdx cx.toNat cy.toNat) = .verDone ∨ s.phaseOf (s.ctuIdx cx.toNat cy.toNat) = .horDone
    let gx0 := cx.toNat * s.units
    let gy0 := cy.toNat * s.units
    let own := (List.range s.units).flatMap fun uy => (List.range s.units).map fun ux => (gx0 + ux, gy0 + uy)
    let left := if cx.toNat = 0 then [] else (List.range s.units).map fun uy => (gx0 - 1, gy0 + uy)
    let above := if cy.toNat = 0 then [] else (List.range s.units).map fun ux => (gx0 + ux, gy0 - 1)
    let read := (own ++ left ++ above).filter fun g => decide (g.1 < s.picW / 4 ∧ g.2 < s.picH / 4)
    let record : Nat × Nat → Nat := fun g => s.regs.metaBase.toNat + g.2 * s.regs.metaStride.toNat + 32 * g.1
    let malformed : Nat × Nat → Prop := fun g =>
      let m1 := s.memory.read (record g + 4) 4
      let m2 := s.memory.read (record g + 8) 4
      m1 % 4 = 3 ∨ m2 % 4 = 3 ∨ m1 / 2 ^ 16 % 8 < 2 ∨ m1 / 2 ^ 19 % 8 < 2
        ∨ m1 / 2 ^ 22 % 8 < 2 ∨ m1 / 2 ^ 22 % 8 = 7 ∨ m1 / 2 ^ 25 % 8 < 2 ∨ m1 / 2 ^ 25 % 8 = 7
    (s.picActive = false → exec (.bsCtu cx cy) s = .next (s.afterFault 8 s.latch.w1.toNat))
      ∧ (s.picActive = true → outside → exec (.bsCtu cx cy) s = .next (s.afterFault 5 s.latch.w1.toNat))
      ∧ (s.picActive = true → ¬outside → late → exec (.bsCtu cx cy) s = .next (s.afterFault 8 s.latch.w1.toNat))
      ∧ (s.picActive = true → ¬outside → ¬late →
        (∀ before g after, read = before ++ g :: after → (∀ h ∈ before, ¬malformed h) → malformed g →
            exec (.bsCtu cx cy) s = .next (s.afterFault 9 (record g)))
          ∧ ((∀ g ∈ read, ¬malformed g) → ∃ t, exec (.bsCtu cx cy) s = .next t ∧ t.accepted))

/-- R203: which records `BS_CTU` reads, and in which order: the units of its own CTU, row by row, then of the column to its
left, then of the row above it, each part without the units the rule skips. -/
def Obligations.BsUnitsAreTheListed : Prop :=
  ∀ (s : State) (cx cy : Nat),
    let gx0 := cx * s.units
    let gy0 := cy * s.units
    let gw := s.picW / 4
    let gh := s.picH / 4
    (cx < s.ctusW → cy < s.ctusH → s.bsUnits cx cy =
        (((List.range s.units).flatMap fun uy => (List.range s.units).map fun ux => (gx0 + ux, gy0 + uy)).filter
            fun g => decide (g.1 < gw ∧ g.2 < gh))
          ++ (if cx = 0 then [] else
            ((List.range s.units).filter fun uy => decide (gy0 + uy < gh)).map fun uy => (gx0 - 1, gy0 + uy))
          ++ (if cy = 0 then [] else
            ((List.range s.units).filter fun ux => decide (gx0 + ux < gw)).map fun ux => (gx0 + ux, gy0 - 1)))
      ∧ ∀ gx gy, (gx, gy) ∈ s.bsUnits cx cy ↔ gx < gw ∧ gy < gh ∧
        ((gx0 ≤ gx ∧ gx < gx0 + s.units ∧ gy0 ≤ gy ∧ gy < gy0 + s.units)
          ∨ (cx ≠ 0 ∧ gx = gx0 - 1 ∧ gy0 ≤ gy ∧ gy < gy0 + s.units)
          ∨ (cy ≠ 0 ∧ gy = gy0 - 1 ∧ gx0 ≤ gx ∧ gx < gx0 + s.units))

/-- R207 to R212: the bits of an entry. Outside the picture 0; on the picture's left or top border 0x0700; inside one
transform unit 0; else the strength, the lengths (0 below 8 samples, else 7) and the flags, bits 15:14 being 0. -/
def Obligations.BsEntryBits : Prop :=
  ∀ (s : State) (dir : Dir) (gx gy ux uy : Nat),
    let e := s.bsEntry dir gx gy ux uy
    let inside := gx < s.picW / 4 ∧ gy < s.picH / 4
    let border := (dir = .ver ∧ gx = 0) ∨ (dir = .hor ∧ gy = 0)
    let q := s.metaRec gx gy
    let p := match dir with
      | .ver => s.metaRec (gx - 1) gy
      | .hor => s.metaRec gx (gy - 1)
    let sideOf : MetaRec → Nat := fun r => match dir with
      | .ver => min (2 ^ r.log2CuW) (2 ^ r.log2TuW)
      | .hor => min (2 ^ r.log2CuH) (2 ^ r.log2TuH)
    (¬inside → e = 0x0000)
      ∧ (inside → border → e = 0x0700)
      ∧ (inside → ¬border → p.cuId = q.cuId → p.tuId = q.tuId → e = 0x0000)
      ∧ (inside → ¬border → p.cuId ≠ q.cuId ∨ p.tuId ≠ q.tuId →
        e < 2 ^ 14 ∧ field e 1 0 = boundaryStrength p q ∧ boundaryStrength p q ≤ 2
          ∧ field e 4 2 = (if sideOf p < 8 then 0 else 7) ∧ field e 7 5 = (if sideOf q < 8 then 0 else 7)
          ∧ (flag e 8 = true ↔ p.cuId ≠ q.cuId) ∧ flag e 9 = true
          ∧ (flag e 10 = true ↔ (p.tileId ≠ q.tileId ∧ s.crossTileEn = false)
              ∨ (s.crossVbEn = false ∧
                (match dir with
                 | .ver => 4 * gx ∈ s.vbColumns
                 | .hor => 4 * gy ∈ s.vbRows)))
          ∧ (flag e 11 = true ↔ (match dir with
                | .ver => ux ≠ 0
                | .hor => uy ≠ 0))
          ∧ (flag e 12 = true ↔ p.cbfCb = true ∨ q.cbfCb = true)
          ∧ (flag e 13 = true ↔ p.cbfCr = true ∨ q.cbfCr = true))

/-- R205, R206: the strength, first match; the mismatch of two motions by their number of vectors, with the two pairings of
two vectors. And the strength does not depend on which side is called P. -/
def Obligations.BoundaryStrengthRules : Prop :=
  ∀ p q : MetaRec,
    let near : Int → Int → Int → Int → Prop := fun ax ay bx by' => |ax - bx| < 4 ∧ |ay - by'| < 4
    (p.predMode = 0 ∨ q.predMode = 0 ↔ boundaryStrength p q = 2)
      ∧ (p.predMode ≠ 0 → q.predMode ≠ 0 → (p.cbfY = true ∨ q.cbfY = true ∨ mvMismatch p q = true ↔
          boundaryStrength p q = 1))
      ∧ (p.predMode ≠ 0 → q.predMode ≠ 0 → p.cbfY = false → q.cbfY = false → mvMismatch p q = false →
          boundaryStrength p q = 0)
      ∧ boundaryStrength p q = boundaryStrength q p
      ∧ (p.numMv ≠ q.numMv → mvMismatch p q = true)
      ∧ (p.numMv = 0 → q.numMv = 0 → mvMismatch p q = false)
      ∧ (p.numMv = 1 → q.numMv = 1 → (mvMismatch p q = true ↔ p.ref0 ≠ q.ref0
          ∨ 4 ≤ |p.mv0x - q.mv0x| ∨ 4 ≤ |p.mv0y - q.mv0y|))
      ∧ (p.numMv = 2 → q.numMv = 2 → (mvMismatch p q = false ↔
          (p.ref0 = q.ref0 ∧ p.ref1 = q.ref1 ∧ near p.mv0x p.mv0y q.mv0x q.mv0y ∧ near p.mv1x p.mv1y q.mv1x q.mv1y)
            ∨ (p.ref0 = q.ref1 ∧ p.ref1 = q.ref0 ∧ near p.mv0x p.mv0y q.mv1x q.mv1y
              ∧ near p.mv1x p.mv1y q.mv0x q.mv0y)))

/-- R213: a second `BS_CTU` of the same CTU leaves `BMEM` and `PHASE` as the first did. -/
def Obligations.BsCtuIsIdempotent : Prop :=
  ∀ (cx cy : BitVec 16) (s t u : State), s.Inv → s.faulted = false → exec (.bsCtu cx cy) s = .next t → t.accepted →
    exec (.bsCtu cx cy) t = .next u → u.accepted ∧ u.memory = t.memory ∧ u.phase = t.phase

/-- R70, R71 and the reserved words of spec/93_implementation_defined.md U16: no entry of a unit of the picture depends on
a byte of `BMEM` outside the words `M0` to `M4` of the records. -/
def Obligations.BsEntryReadsOnlyRecords : Prop :=
  ∀ (s : State) (m : Memory) (dir : Dir) (gx gy ux uy : Nat),
    (∀ x y, x < s.picW / 4 → y < s.picH / 4 → ∀ a, inBuffer (s.recAddr x y) 20 a → m.readByte a = s.memory.readByte a) →
    State.bsEntry { s with memory := m } dir gx gy ux uy = s.bsEntry dir gx gy ux uy

/-! ## `DBF_CTU` -/

/-- R231: with `DBF_EN = 0`, a `DBF_CTU` whose other checks pass reads and changes no byte and only moves the phase. -/
def Obligations.DbfDisabledOnlyMovesThePhase : Prop :=
  ∀ (dir : Dir) (cx cy : BitVec 16) (s : State), s.faulted = false → s.picActive = true →
    cx.toNat < s.ctusW → cy.toNat < s.ctusH → s.filterTooEarly dir cx.toNat cy.toNat = false → s.dbfEn = false →
    ∃ p, exec (.dbfCtu dir cx cy) s = .next ({ s with phase := p }.afterOk 0)
      ∧ ∀ j, State.phaseOf { s with phase := p } j = if j = s.ctuIdx cx.toNat cy.toNat
          then (match dir with
            | .ver => .verDone
            | .hor => .horDone)
          else s.phaseOf j

/-- R230, R233, R244: with `DBF_EN = 1`, a `DBF_CTU` whose checks pass filters the units of the CTU inside the picture one
after another in raster order, in place (each by the entry it then reads, if filterable: luma, then Cb and Cr where the
picture has them), moves the phase, and stores to no byte but the samples nearest the filterable segments. -/
def Obligations.DbfCtuFilters : Prop :=
  ∀ (dir : Dir) (cx cy : BitVec 16) (s : State), s.Inv → s.faulted = false → s.picActive = true →
    cx.toNat < s.ctusW → cy.toNat < s.ctusH → s.filterTooEarly dir cx.toNat cy.toNat = false → s.dbfEn = true →
    (∀ u ∈ s.insideUnits cx.toNat cy.toNat,
      s.badEntry dir (cx.toNat * s.units + u.1) (cy.toNat * s.units + u.2) (s.lfpEntry cx.toNat cy.toNat dir u.1 u.2)
        = false) →
    let filterOne : State → Nat × Nat → State := fun v u =>
      let gx := cx.toNat * v.units + u.1
      let gy := cy.toNat * v.units + u.2
      let e := v.lfpEntry cx.toNat cy.toNat dir u.1 u.2
      if e.filterable then
        if v.chroma = 0 then filterLumaSegment dir gx gy e v
        else filterChromaSegment dir gx gy e .cr (filterChromaSegment dir gx gy e .cb (filterLumaSegment dir gx gy e v))
      else v
    ∃ m p, exec (.dbfCtu dir cx cy) s = .next ({ s with memory := m, phase := p }.afterOk 0)
      ∧ m = ((s.insideUnits cx.toNat cy.toNat).foldl filterOne s).memory
      ∧ (∀ a, ¬s.filterStores dir cx.toNat cy.toNat a → m.readByte a = s.memory.readByte a)
      ∧ ∀ j, State.phaseOf { s with memory := m, phase := p } j = if j = s.ctuIdx cx.toNat cy.toNat
          then (match dir with
            | .ver => .verDone
            | .hor => .horDone)
          else s.phaseOf j

/-- R230, R232: the faults of `DBF_CTU`, in the order of its checks, and acceptance when none applies. `BAD_LFP` names the
first entry that R232 (a), (b) or (c) calls malformed, in raster order over the units inside the picture; the entries stand
where R73 puts them, their fields where R72 puts them, and filterable is the test of R234. -/
def Obligations.DbfCtuFaults : Prop :=
  ∀ (dir : Dir) (cx cy : BitVec 16) (s : State), s.faulted = false →
    let outside := s.ctusW ≤ cx.toNat ∨ s.ctusH ≤ cy.toNat
    let here := s.phaseOf (s.ctuIdx cx.toNat cy.toNat)
    let early := match dir with
      | .ver => here ≠ .bsDone ∨ (cx.toNat ≠ 0 ∧ (s.phaseOf (s.ctuIdx (cx.toNat - 1) cy.toNat) = .idle
          ∨ s.phaseOf (s.ctuIdx (cx.toNat - 1) cy.toNat) = .bsDone))
      | .hor => here ≠ .verDone ∨ (∃ x < s.ctusW, ∃ y < s.ctusH,
          s.phaseOf (s.ctuIdx x y) = .idle ∨ s.phaseOf (s.ctuIdx x y) = .bsDone)
          ∨ (cy.toNat ≠ 0 ∧ s.phaseOf (s.ctuIdx cx.toNat (cy.toNat - 1)) ≠ .horDone)
    let number := match dir with
      | .ver => 0
      | .hor => 1
    let units := ((List.range s.units).flatMap fun uy => (List.range s.units).map fun ux => (ux, uy)).filter fun u =>
      decide (cx.toNat * s.units + u.1 < s.picW / 4 ∧ cy.toNat * s.units + u.2 < s.picH / 4)
    let entry : Nat × Nat → Nat := fun u => s.regs.lfpBase.toNat
      + 2 * ((((cy.toNat * s.ctusW + cx.toNat) * 2 + number) * s.units + u.2) * s.units + u.1)
    let malformed : Nat × Nat → Prop := fun u =>
      let e := s.memory.read (entry u) 2
      let x0 := 4 * (cx.toNat * s.units + u.1)
      let y0 := 4 * (cy.toNat * s.units + u.2)
      let needP := if 3 < e / 2 ^ 2 % 8 then 8 else 4
      let needQ := if 3 < e / 2 ^ 5 % 8 then 8 else 4
      e / 2 ^ 14 ≠ 0 ∨ e % 4 = 3
        ∨ ((e % 4 ≠ 0 ∧ e / 2 ^ 9 % 2 = 1 ∧ e / 2 ^ 10 % 2 = 0 ∧ e / 2 ^ 2 % 8 ≠ 0 ∧ e / 2 ^ 5 % 8 ≠ 0)
          ∧ (match dir with
            | .ver => x0 < needP ∨ s.picW < x0 + needQ
            | .hor => y0 < needP ∨ s.picH < y0 + needQ))
    (s.picActive = false → exec (.dbfCtu dir cx cy) s = .next (s.afterFault 8 s.latch.w1.toNat))
      ∧ (s.picActive = true → outside → exec (.dbfCtu dir cx cy) s = .next (s.afterFault 5 s.latch.w1.toNat))
      ∧ (s.picActive = true → ¬outside → early → exec (.dbfCtu dir cx cy) s = .next (s.afterFault 8 s.latch.w1.toNat))
      ∧ (s.picActive = true → ¬outside → ¬early → s.dbfEn = true →
        (∀ before u after, units = before ++ u :: after → (∀ v ∈ before, ¬malformed v) → malformed u →
            exec (.dbfCtu dir cx cy) s = .next (s.afterFault 10 (entry u)))
          ∧ ((∀ u ∈ units, ¬malformed u) → ∃ t, exec (.dbfCtu dir cx cy) s = .next t ∧ t.accepted))

/-- R234: a segment with strength 0, no edge, a boundary mark or a length of 0 on either side is skipped whole, whatever
the samples: the state goes on unchanged; so a CTU with no other segment keeps every byte. -/
def Obligations.UnfilterableSegmentsAreSkipped : Prop :=
  (∀ e : LfpEntry, e.filterable = false ↔
      e.bs = 0 ∨ e.tuEdge = false ∨ e.onBnd = true ∨ e.lenP = 0 ∨ e.lenQ = 0)
    ∧ (∀ (dir : Dir) (cx cy : Nat) (s : State) (u : Nat × Nat),
        (s.lfpEntry cx cy dir u.1 u.2).filterable = false → filterUnit dir cx cy s u = s)
    ∧ ∀ (dir : Dir) (cx cy : Nat) (s : State),
        (∀ u ∈ s.insideUnits cx cy, (s.lfpEntry cx cy dir u.1 u.2).filterable = false) → filterCtu dir cx cy s = s

/-- R235 to R243: a luma segment whose decision samples lie in the plane. Its snapshot is the samples at the coordinates of
R238, 4 or 8 deep by the lengths; the QP is that of the two records of R235; one choice from lines 0 and 3 serves all four
lines (`LumaSelection`, `LumaFilterFormulas`, `Thresholds` and `AdaptiveQpOffset` state its parts). Each new value stands
in its sample afterwards, and no other byte changes. -/
def Obligations.LumaSegmentWritesItsLines : Prop :=
  ∀ (dir : Dir) (gx gy : Nat) (e : LfpEntry) (s : State), s.GeometryFits → gx < s.picW / 4 → gy < s.picH / 4 →
    let depthP := if 3 < e.lenP then 8 else 4
    let depthQ := if 3 < e.lenQ then 8 else 4
    (match dir with
      | .ver => depthP ≤ 4 * gx ∧ 4 * gx + depthQ ≤ s.picW
      | .hor => depthP ≤ 4 * gy ∧ 4 * gy + depthQ ≤ s.picH) →
    let pAt : Nat → Nat → Nat × Nat := fun i k => match dir with
      | .ver => (4 * gx - 1 - k, 4 * gy + i)
      | .hor => (4 * gx + i, 4 * gy - 1 - k)
    let qAt : Nat → Nat → Nat × Nat := fun i k => match dir with
      | .ver => (4 * gx + k, 4 * gy + i)
      | .hor => (4 * gx + i, 4 * gy + k)
    let line : Nat → Line := fun i =>
      ⟨(List.range depthP).map fun k => s.pix .y (pAt i k).1 (pAt i k).2,
        (List.range depthQ).map fun k => s.pix .y (qAt i k).1 (qAt i k).2⟩
    let ls := [line 0, line 1, line 2, line 3]
    let qpP := match dir with
      | .ver => s.metaQp (gx - 1) gy
      | .hor => s.metaQp gx (gy - 1)
    let qpL := s.qpLuma ((qpP + s.metaQp gx gy + 1) / 2) ls
    let tc := s.tc qpL e.bs
    let choice := lumaChoice ls e.lenP e.lenQ (s.beta qpL) tc
    let new : Nat → Line := fun i => filterLine s.config s.bitDepth tc e.lenP e.lenQ choice (line i)
    let t := filterLumaSegment dir gx gy e s
    s.snapshot dir gx gy e = ls
      ∧ s.lumaLines dir gx gy e = [new 0, new 1, new 2, new 3]
      ∧ t = { s with memory := t.memory }
      ∧ (∀ i < 4, ∀ k,
          (k < (new i).p.length → k < 3 ∧ t.pix .y (pAt i k).1 (pAt i k).2 = (new i).p.getD k 0)
            ∧ (k < (new i).q.length → k < 3 ∧ t.pix .y (qAt i k).1 (qAt i k).2 = (new i).q.getD k 0))
      ∧ ∀ a, (∀ i < 4, ∀ k,
          (k < (new i).p.length → ¬inBuffer (s.pixAddr .y (pAt i k).1 (pAt i k).2) 2 a)
            ∧ (k < (new i).q.length → ¬inBuffer (s.pixAddr .y (qAt i k).1 (qAt i k).2) 2 a)) →
          t.memory.readByte a = s.memory.readByte a

/-- R241, R242: the new samples of one line under the strong and under the weak filter, written out from the rules. -/
def Obligations.LumaFilterFormulas : Prop :=
  ∀ (cfg : Config) (bitDepth lenP lenQ : Nat) (tc p0 p1 p2 p3 q0 q1 q2 q3 : Int) (ps qs : List Int) (dEp dEq : Bool),
    let l : Line := ⟨p0 :: p1 :: p2 :: p3 :: ps, q0 :: q1 :: q2 :: q3 :: qs⟩
    let c := cfg.strongClip
    let px := clip3 0 (2 ^ bitDepth - 1)
    filterLine cfg bitDepth tc lenP lenQ .strong l =
        ⟨[px (clip3 (p0 - c.1 * tc) (p0 + c.1 * tc) ((p2 + 2 * p1 + 2 * p0 + 2 * q0 + q1 + 4) / 8)),
          px (clip3 (p1 - c.2.1 * tc) (p1 + c.2.1 * tc) ((p2 + p1 + p0 + q0 + 2) / 4)),
          px (clip3 (p2 - c.2.2 * tc) (p2 + c.2.2 * tc) ((2 * p3 + 3 * p2 + p1 + p0 + q0 + 4) / 8))],
         [px (clip3 (q0 - c.1 * tc) (q0 + c.1 * tc) ((q2 + 2 * q1 + 2 * q0 + 2 * p0 + p1 + 4) / 8)),
          px (clip3 (q1 - c.2.1 * tc) (q1 + c.2.1 * tc) ((q2 + q1 + q0 + p0 + 2) / 4)),
          px (clip3 (q2 - c.2.2 * tc) (q2 + c.2.2 * tc) ((2 * q3 + 3 * q2 + q1 + q0 + p0 + 4) / 8))]⟩
      ∧ let raw := (9 * (q0 - p0) - 3 * (q1 - p1) + 8) / 16
        let delta := clip3 (-tc) tc raw
        (|raw| < 10 * tc → filterLine cfg bitDepth tc lenP lenQ (.weak dEp dEq) l =
            ⟨px (p0 + delta) :: (if dEp = true ∧ 2 ≤ lenP then
                [px (p1 + clip3 (-(tc / 2)) (tc / 2) (((p2 + p0 + 1) / 2 - p1 + delta) / 2))] else []),
             px (q0 - delta) :: (if dEq = true ∧ 2 ≤ lenQ then
                [px (q1 + clip3 (-(tc / 2)) (tc / 2) (((q2 + q0 + 1) / 2 - q1 - delta) / 2))] else [])⟩)
          ∧ (10 * tc ≤ |raw| → filterLine cfg bitDepth tc lenP lenQ (.weak dEp dEq) l = ⟨[], []⟩)

/-- R240: with `beta = 0` the segment is off; with `tc = 0` no line changes, whatever its samples. -/
def Obligations.ZeroThresholdsFilterNothing : Prop :=
  ∀ (cfg : Config) (bitDepth lenP lenQ : Nat) (beta : Int) (ls : List Line),
    lumaChoice ls lenP lenQ 0 beta = .off
      ∧ ∀ l : Line, filterLine cfg bitDepth 0 lenP lenQ (lumaChoice ls lenP lenQ beta 0) l = ⟨[], []⟩

/-- R240: the selection of a segment from its lines 0 and 3, written out with the measures of R239. -/
def Obligations.LumaSelection : Prop :=
  ∀ (ls : List Line) (lenP lenQ : Nat) (beta tc : Int),
    let d2 : List Int → Nat → Int := fun x len =>
      if 3 < len then (|x.getD 2 0 - 2 * x.getD 1 0 + x.getD 0 0| + |x.getD 5 0 - 2 * x.getD 4 0 + x.getD 3 0| + 1) / 2
      else |x.getD 2 0 - 2 * x.getD 1 0 + x.getD 0 0|
    let sp : List Int → Nat → Int := fun x len =>
      if 3 < len then (|x.getD 3 0 - x.getD 0 0| + |x.getD 7 0 - x.getD 6 0 - x.getD 5 0 + x.getD 4 0|
          + |x.getD 7 0 - x.getD 3 0| + 1) / 2
      else |x.getD 3 0 - x.getD 0 0|
    let long := 3 < lenP ∨ 3 < lenQ
    let flat : Line → Prop := fun l =>
      2 * (d2 l.p lenP + d2 l.q lenQ) < beta / (if long then 16 else 4)
        ∧ sp l.p lenP + sp l.q lenQ < (if long then 3 * beta / 32 else beta / 8)
        ∧ |l.p.getD 0 0 - l.q.getD 0 0| < (5 * tc + 1) / 2
    let l0 := lineAt ls 0
    let l3 := lineAt ls 3
    let dp := d2 l0.p lenP + d2 l3.p lenP
    let dq := d2 l0.q lenQ + d2 l3.q lenQ
    (¬(dp + dq < beta) ↔ lumaChoice ls lenP lenQ beta tc = .off)
      ∧ (dp + dq < beta → (flat l0 ∧ flat l3 ∧ 3 ≤ lenP ∧ 3 ≤ lenQ ↔ lumaChoice ls lenP lenQ beta tc = .strong))
      ∧ ∀ dEp dEq, lumaChoice ls lenP lenQ beta tc = .weak dEp dEq →
          (dEp = true ↔ dp < (beta + beta / 2) / 8) ∧ (dEq = true ↔ dq < (beta + beta / 2) / 8)

/-- R245 (c), (d): at most 3 samples a side get new values, each in the sample range, whatever samples the host stored; on
legal samples each moves by at most the clip bound of its distance under the strong filter, by at most `tc` and `tc >> 1`
under the weak one. -/
def Obligations.LumaChangesAreBounded : Prop :=
  ∀ (cfg : Config) (bitDepth lenP lenQ : Nat) (tc : Int) (choice : LumaChoice) (l : Line),
    let new := filterLine cfg bitDepth tc lenP lenQ choice l
    let bound : Nat → Int := fun k =>
      match choice with
      | .strong => ([cfg.strongClip.1, cfg.strongClip.2.1, cfg.strongClip.2.2].getD k 0 : Nat) * tc
      | _ => [tc, tc / 2].getD k 0
    (new.p.length ≤ 3 ∧ new.q.length ≤ 3 ∧ ∀ v ∈ new.p ++ new.q, 0 ≤ v ∧ v ≤ 2 ^ bitDepth - 1)
      ∧ (0 ≤ tc → 4 ≤ l.p.length → 4 ≤ l.q.length → (∀ v ∈ l.p ++ l.q, 0 ≤ v ∧ v ≤ 2 ^ bitDepth - 1) →
        (∀ k < new.p.length, |new.p.getD k 0 - l.p.getD k 0| ≤ bound k)
          ∧ ∀ k < new.q.length, |new.q.getD k 0 - l.q.getD k 0| ≤ bound k)

/-- R245 (b): on flat legal data every new sample equals the old one, whatever is chosen. -/
def Obligations.FlatDataIsUnchanged : Prop :=
  ∀ (cfg : Config) (bitDepth lenP lenQ : Nat) (tc v : Int) (choice : LumaChoice) (l : Line), 0 ≤ tc →
    l.p.length ≥ 4 → l.q.length ≥ 4 → 0 ≤ v → v ≤ 2 ^ bitDepth - 1 → (∀ x ∈ l.p ++ l.q, x = v) →
    ∀ x ∈ (filterLine cfg bitDepth tc lenP lenQ choice l).p ++ (filterLine cfg bitDepth tc lenP lenQ choice l).q, x = v

/-- R237, R121 (a): `beta` and `tc` by their formulas, and never smaller for a larger QP where the tables are monotonic.
That they are never negative rests on the model's choice that the tables hold natural numbers (log entry 21). -/
def Obligations.Thresholds : Prop :=
  ∀ (s : State) (qp : Int) (bs : Nat), s.Inv →
    s.beta qp = (s.config.betaTable.getD (clip3 0 63 (qp + s.betaOffset)).toNat 0 : Nat) * 2 ^ (s.bitDepth - 8)
      ∧ (let t : Int := (s.config.tcTable.getD (clip3 0 65 (qp + 2 * (bs - 1) + s.tcOffset)).toNat 0 : Nat)
         s.tc qp bs = if s.bitDepth < 10 then (t + 2 ^ (9 - s.bitDepth)) / 2 ^ (10 - s.bitDepth)
           else t * 2 ^ (s.bitDepth - 10))
      ∧ 0 ≤ s.beta qp ∧ 0 ≤ s.tc qp bs
      ∧ ∀ qp', qp ≤ qp' → s.beta qp ≤ s.beta qp' ∧ s.tc qp bs ≤ s.tc qp' bs

/-- R235, R236: the averaged QP rounds up, and with `LADF_EN = 1` the offset added to it is that of the last interval whose
lower bounds, its own and all before it, the mean of the four edge samples exceeds. -/
def Obligations.AdaptiveQpOffset : Prop :=
  ∀ (s : State) (p q : Nat) (ls : List Line),
    let level : Int := ((lineAt ls 0).p.getD 0 0 + (lineAt ls 3).p.getD 0 0 + (lineAt ls 0).q.getD 0 0
      + (lineAt ls 3).q.getD 0 0) / 4
    2 * qpAverage p q = p + q + (p + q) % 2
      ∧ (s.ladfEn = false → s.qpLuma (qpAverage p q) ls = qpAverage p q)
      ∧ (s.ladfEn = true → 1 ≤ s.ladfIntervals → ∃ k < s.ladfIntervals,
          s.qpLuma (qpAverage p q) ls = qpAverage p q + s.ladfOffset k
            ∧ (∀ j, 1 ≤ j → j ≤ k → (s.ladfThresh j : Int) < level)
            ∧ (k + 1 < s.ladfIntervals → level ≤ s.ladfThresh (k + 1)))

/-- R260 to R263: the chroma filter of a line, when it applies, and its threshold. -/
def Obligations.ChromaFilterRules : Prop :=
  (∀ (bitDepth : Nat) (tc p0 p1 q0 q1 : Int) (ps qs : List Int),
      let delta := clip3 (-tc) tc (((q0 - p0) * 4 + p1 - q1 + 4) / 8)
      chromaFilter bitDepth tc ⟨p0 :: p1 :: ps, q0 :: q1 :: qs⟩ =
        ⟨[clip3 0 (2 ^ bitDepth - 1) (p0 + delta)], [clip3 0 (2 ^ bitDepth - 1) (q0 - delta)]⟩)
    ∧ (∀ (s : State) (dir : Dir) (x0 y0 : Nat) (e : LfpEntry) (c : Plane), c ≠ .y →
        (s.chromaApplies dir x0 y0 e c = true ↔
          (e.bs = 2 ∨ (e.bs = 1 ∧ ((c = .cb ∧ e.ccCb = true) ∨ (c = .cr ∧ e.ccCr = true))))
            ∧ (match dir with
              | .ver => x0 % (if s.chroma = 1 ∨ s.chroma = 2 then 16 else 8) = 0
              | .hor => y0 % (if s.chroma = 1 then 16 else 8) = 0)))
    ∧ ∀ (s : State) (dir : Dir) (gx gy : Nat) (e : LfpEntry) (c : Plane),
        let off := if c = .cb then s.cbQpOffset else s.crQpOffset
        let qpC := s.config.chromaQpMap.getD (clip3 0 63 ((qpAverage (s.qpP dir gx gy) (s.qpQ gx gy) : Int) + off)).toNat 0
        s.chromaTc dir gx gy e c = s.tc qpC (if e.bs = 2 then 2 else 1)

/-- R260 to R264: the chroma filter of a segment inside the picture that has a P side. Where it does not apply, nothing
changes; where it does, each of its 2 or 4 lines (4 luma lines, subsampled) gets one new sample a side, at the coordinates
of R262, from the two samples a side before the segment, and no other byte changes. -/
def Obligations.ChromaSegmentWritesItsLines : Prop :=
  ∀ (dir : Dir) (gx gy : Nat) (e : LfpEntry) (c : Plane) (s : State), s.GeometryFits → s.chroma ≠ 0 → c ≠ .y →
    gx < s.picW / 4 → gy < s.picH / 4 →
    (match dir with
      | .ver => gx ≠ 0
      | .hor => gy ≠ 0) →
    let sx := if s.chroma = 1 ∨ s.chroma = 2 then 1 else 0
    let sy := if s.chroma = 1 then 1 else 0
    let xc := 4 * gx / 2 ^ sx
    let yc := 4 * gy / 2 ^ sy
    let nLines := match dir with
      | .ver => 4 / 2 ^ sy
      | .hor => 4 / 2 ^ sx
    let pAt : Nat → Nat → Nat × Nat := fun j k => match dir with
      | .ver => (xc - 1 - k, yc + j)
      | .hor => (xc + j, yc - 1 - k)
    let qAt : Nat → Nat → Nat × Nat := fun j k => match dir with
      | .ver => (xc + k, yc + j)
      | .hor => (xc + j, yc + k)
    let p : Nat → Nat → Int := fun j k => s.pix c (pAt j k).1 (pAt j k).2
    let q : Nat → Nat → Int := fun j k => s.pix c (qAt j k).1 (qAt j k).2
    let applies : Prop := (e.bs = 2 ∨ (e.bs = 1 ∧ ((c = .cb ∧ e.ccCb = true) ∨ (c = .cr ∧ e.ccCr = true))))
      ∧ (match dir with
        | .ver => 4 * gx % (8 * 2 ^ sx) = 0
        | .hor => 4 * gy % (8 * 2 ^ sy) = 0)
    let qpP := match dir with
      | .ver => s.metaQp (gx - 1) gy
      | .hor => s.metaQp gx (gy - 1)
    let off := if c = .cb then s.cbQpOffset else s.crQpOffset
    let qpC := s.config.chromaQpMap.getD (clip3 0 63 (((qpP + s.metaQp gx gy + 1) / 2 : Nat) + off)).toNat 0
    let tc := s.tc qpC (if e.bs = 2 then 2 else 1)
    let delta : Nat → Int := fun j => clip3 (-tc) tc (((q j 0 - p j 0) * 4 + p j 1 - q j 1 + 4) / 8)
    let t := filterChromaSegment dir gx gy e c s
    (¬applies → t = s)
      ∧ (applies → t = { s with memory := t.memory }
        ∧ (∀ j < nLines, t.pix c (pAt j 0).1 (pAt j 0).2 = clip3 0 (2 ^ s.bitDepth - 1) (p j 0 + delta j)
          ∧ t.pix c (qAt j 0).1 (qAt j 0).2 = clip3 0 (2 ^ s.bitDepth - 1) (q j 0 - delta j))
        ∧ ∀ a, (∀ j < nLines, ¬inBuffer (s.pixAddr c (pAt j 0).1 (pAt j 0).2) 2 a
            ∧ ¬inBuffer (s.pixAddr c (qAt j 0).1 (qAt j 0).2) 2 a) →
          t.memory.readByte a = s.memory.readByte a)

/-! ## Layouts -/

/-- R70 to R73: where a record and an entry stand in `BMEM` and where their fields are, as the commands read them; the
motion vector components are signed 16-bit values. -/
def Obligations.RecordAndEntryLayout : Prop :=
  (∀ (s : State) (gx gy : Nat),
      let a := s.regs.metaBase.toNat + gy * s.regs.metaStride.toNat + 32 * gx
      let m : Nat → Nat := fun i => s.memory.read (a + 4 * i) 4
      let r := s.metaRec gx gy
      let signed : Int → Nat → Prop := fun v w => v % 2 ^ 16 = (w % 2 ^ 16 : Nat) ∧ -2 ^ 15 ≤ v ∧ v < 2 ^ 15
      s.recAddr gx gy = a
        ∧ r.cuId = m 0 % 2 ^ 16 ∧ r.tuId = m 0 / 2 ^ 16
        ∧ r.predMode = m 1 % 4 ∧ (r.cbfY = true ↔ m 1 / 2 ^ 2 % 2 = 1) ∧ (r.cbfCb = true ↔ m 1 / 2 ^ 3 % 2 = 1)
        ∧ (r.cbfCr = true ↔ m 1 / 2 ^ 4 % 2 = 1) ∧ r.qp = m 1 / 2 ^ 6 % 2 ^ 7 ∧ s.metaQp gx gy = m 1 / 2 ^ 6 % 2 ^ 7
        ∧ r.log2CuW = m 1 / 2 ^ 16 % 8 ∧ r.log2CuH = m 1 / 2 ^ 19 % 8
        ∧ r.log2TuW = m 1 / 2 ^ 22 % 8 ∧ r.log2TuH = m 1 / 2 ^ 25 % 8
        ∧ r.numMv = m 2 % 4 ∧ r.ref0 = m 2 / 2 ^ 8 % 2 ^ 8 ∧ r.ref1 = m 2 / 2 ^ 16 % 2 ^ 8 ∧ r.tileId = m 2 / 2 ^ 24
        ∧ signed r.mv0x (m 3) ∧ signed r.mv0y (m 3 / 2 ^ 16) ∧ signed r.mv1x (m 4) ∧ signed r.mv1y (m 4 / 2 ^ 16)
        ∧ (r.malformed = true ↔ r.predMode = 3 ∨ r.numMv = 3 ∨ r.log2CuW < 2 ∨ r.log2CuH < 2
          ∨ r.log2TuW < 2 ∨ r.log2TuW = 7 ∨ r.log2TuH < 2 ∨ r.log2TuH = 7))
    ∧ ∀ (s : State) (cx cy ux uy : Nat) (dir : Dir),
      let number := match dir with
        | .ver => 0
        | .hor => 1
      let a := s.regs.lfpBase.toNat + 2 * ((((cy * s.ctusW + cx) * 2 + number) * s.units + uy) * s.units + ux)
      let e := s.memory.read a 2
      let f := s.lfpEntry cx cy dir ux uy
      s.lfpAddr cx cy dir ux uy = a
        ∧ f.bs = e % 4 ∧ f.lenP = e / 2 ^ 2 % 8 ∧ f.lenQ = e / 2 ^ 5 % 8
        ∧ (f.cuEdge = true ↔ e / 2 ^ 8 % 2 = 1) ∧ (f.tuEdge = true ↔ e / 2 ^ 9 % 2 = 1)
        ∧ (f.onBnd = true ↔ e / 2 ^ 10 % 2 = 1) ∧ (f.sameCtu = true ↔ e / 2 ^ 11 % 2 = 1)
        ∧ (f.ccCb = true ↔ e / 2 ^ 12 % 2 = 1) ∧ (f.ccCr = true ↔ e / 2 ^ 13 % 2 = 1) ∧ f.rsvd = e / 2 ^ 14

/-! ## Invariants -/

/-- The state after reset meets the invariant. The defaults of the parameters are those of log entries 3 and 4. -/
def Obligations.InvAtReset : Prop := State.reset.Inv ∧ State.reset.Contained

/-- From every state that meets the invariant, whatever the outside world does next, a step gives a state that meets it. -/
def Obligations.StepKeepsInv : Prop := ∀ s t : State, s.Inv → step s = .next t → t.Inv

/-- R62: no command and no host move ever writes a byte outside `BMEM`. -/
def Obligations.StepsWriteInsideBmem : Prop :=
  ∀ s t : State, s.Inv → s.Contained → step s = .next t → t.Contained

end
end

