-- ==== Sys2Proof/Laws/Defaults.lean ====
section
/-! SUPPORT. The default parameters meet the constraints of R8, R121 and R122. -/

namespace Sys2Proof.Machine

theorem matrixValid_matrixOf {entry : Nat → Nat → Nat → Int} (size : Nat)
    (h : ∀ k n, -91 ≤ entry size k n ∧ entry size k n ≤ 91) : Config.matrixValid size (matrixOf entry size) = true := by
  simp [Config.matrixValid, matrixOf, h]

theorem getD_le {l : List Nat} {b : Nat} (h : ∀ v ∈ l, v ≤ b) (i : Nat) : l.getD i 0 ≤ b := by
  rw [List.getD_eq_getElem?_getD]
  cases hv : l[i]? with
  | none => simp
  | some v => exact h v (List.mem_of_getElem? hv)

theorem c64_le (i : Nat) : c64.getD i 0 ≤ 91 := getD_le (by decide) i

theorem s7_le (size i : Nat) : (s7 size).getD i 0 ≤ 91 := by
  apply getD_le
  unfold s7
  split
  · decide
  split
  · decide
  split
  · decide
  split
  · decide
  · simp

theorem dct2Entry_bound (size k n : Nat) : -91 ≤ dct2Entry size k n ∧ dct2Entry size k n ≤ 91 := by
  simp only [dct2Entry]
  generalize (if _ > 128 then _ else _ : Nat) = theta
  have h1 := c64_le theta
  have h2 := c64_le (128 - theta)
  split <;> omega

theorem dst7Entry_bound (size i j : Nat) : -91 ≤ dst7Entry size i j ∧ dst7Entry size i j ≤ 91 := by
  simp only [dst7Entry]
  generalize (if _ > size then _ else _ : Nat) = b
  have h := s7_le size (b - 1)
  split
  · omega
  · split <;> omega

theorem dct8Entry_bound (size i j : Nat) : -91 ≤ dct8Entry size i j ∧ dct8Entry size i j ≤ 91 := by
  have := dst7Entry_bound size i (size - 1 - j)
  unfold dct8Entry
  split <;> omega

theorem defaultConfig_valid : defaultConfig.valid = true := by
  have h1 : Config.familyValid 2 defaultConfig.dct2 = true := by
    simp [defaultConfig, Config.familyValid, matrixValid_matrixOf _ (dct2Entry_bound _)]
  have h2 : Config.familyValid 4 defaultConfig.dst7 = true := by
    simp [defaultConfig, Config.familyValid, matrixValid_matrixOf _ (dst7Entry_bound _)]
  have h3 : Config.familyValid 4 defaultConfig.dct8 = true := by
    simp [defaultConfig, Config.familyValid, matrixValid_matrixOf _ (dct8Entry_bound _)]
  rw [Config.valid, h1, h2, h3]
  decide +kernel

end Sys2Proof.Machine
end

