-- ==== Sys2Proof/Laws/State.lean ====
section
/-! SUPPORT. One lemma per field per update of `State`, and the geometry under the updates that leave the registers alone. -/

namespace Sys2Proof.Machine

/-! ## `setMemory` -/

section
variable (s : State) (m : Memory)

@[simp] theorem State.setMemory_config : (s.setMemory m).config = s.config := rfl
@[simp] theorem State.setMemory_host : (s.setMemory m).host = s.host := rfl
@[simp] theorem State.setMemory_latch : (s.setMemory m).latch = s.latch := rfl
@[simp] theorem State.setMemory_reply : (s.setMemory m).reply = s.reply := rfl
@[simp] theorem State.setMemory_regs : (s.setMemory m).regs = s.regs := rfl
@[simp] theorem State.setMemory_phase : (s.setMemory m).phase = s.phase := rfl
@[simp] theorem State.setMemory_picActive : (s.setMemory m).picActive = s.picActive := rfl
@[simp] theorem State.setMemory_faulted : (s.setMemory m).faulted = s.faulted := rfl
@[simp] theorem State.setMemory_faultCause : (s.setMemory m).faultCause = s.faultCause := rfl
@[simp] theorem State.setMemory_faultInfo : (s.setMemory m).faultInfo = s.faultInfo := rfl
@[simp] theorem State.setMemory_faultW0 : (s.setMemory m).faultW0 = s.faultW0 := rfl
@[simp] theorem State.setMemory_cmdCount : (s.setMemory m).cmdCount = s.cmdCount := rfl
@[simp] theorem State.setMemory_memory : (s.setMemory m).memory = m := rfl

end

/-! ## `setRegs` -/

section
variable (s : State) (g : Regs)

@[simp] theorem State.setRegs_config : (s.setRegs g).config = s.config := rfl
@[simp] theorem State.setRegs_host : (s.setRegs g).host = s.host := rfl
@[simp] theorem State.setRegs_latch : (s.setRegs g).latch = s.latch := rfl
@[simp] theorem State.setRegs_reply : (s.setRegs g).reply = s.reply := rfl
@[simp] theorem State.setRegs_regs : (s.setRegs g).regs = g := rfl
@[simp] theorem State.setRegs_phase : (s.setRegs g).phase = s.phase := rfl
@[simp] theorem State.setRegs_picActive : (s.setRegs g).picActive = s.picActive := rfl
@[simp] theorem State.setRegs_faulted : (s.setRegs g).faulted = s.faulted := rfl
@[simp] theorem State.setRegs_faultCause : (s.setRegs g).faultCause = s.faultCause := rfl
@[simp] theorem State.setRegs_faultInfo : (s.setRegs g).faultInfo = s.faultInfo := rfl
@[simp] theorem State.setRegs_faultW0 : (s.setRegs g).faultW0 = s.faultW0 := rfl
@[simp] theorem State.setRegs_cmdCount : (s.setRegs g).cmdCount = s.cmdCount := rfl
@[simp] theorem State.setRegs_memory : (s.setRegs g).memory = s.memory := rfl

end

/-! ## `setPicture` -/

section
variable (s : State) (b : Bool)

@[simp] theorem State.setPicture_config : (s.setPicture b).config = s.config := rfl
@[simp] theorem State.setPicture_host : (s.setPicture b).host = s.host := rfl
@[simp] theorem State.setPicture_latch : (s.setPicture b).latch = s.latch := rfl
@[simp] theorem State.setPicture_reply : (s.setPicture b).reply = s.reply := rfl
@[simp] theorem State.setPicture_regs : (s.setPicture b).regs = s.regs := rfl
@[simp] theorem State.setPicture_phase : (s.setPicture b).phase = [] := rfl
@[simp] theorem State.setPicture_picActive : (s.setPicture b).picActive = b := rfl
@[simp] theorem State.setPicture_faulted : (s.setPicture b).faulted = s.faulted := rfl
@[simp] theorem State.setPicture_faultCause : (s.setPicture b).faultCause = s.faultCause := rfl
@[simp] theorem State.setPicture_faultInfo : (s.setPicture b).faultInfo = s.faultInfo := rfl
@[simp] theorem State.setPicture_faultW0 : (s.setPicture b).faultW0 = s.faultW0 := rfl
@[simp] theorem State.setPicture_cmdCount : (s.setPicture b).cmdCount = s.cmdCount := rfl
@[simp] theorem State.setPicture_memory : (s.setPicture b).memory = s.memory := rfl

end

/-! ## `setPhase` -/

section
variable (s : State) (i : Nat) (p : Phase)

@[simp] theorem State.setPhase_config : (s.setPhase i p).config = s.config := rfl
@[simp] theorem State.setPhase_host : (s.setPhase i p).host = s.host := rfl
@[simp] theorem State.setPhase_latch : (s.setPhase i p).latch = s.latch := rfl
@[simp] theorem State.setPhase_reply : (s.setPhase i p).reply = s.reply := rfl
@[simp] theorem State.setPhase_regs : (s.setPhase i p).regs = s.regs := rfl
@[simp] theorem State.setPhase_phase : (s.setPhase i p).phase = putPhase i p s.phase := rfl
@[simp] theorem State.setPhase_picActive : (s.setPhase i p).picActive = s.picActive := rfl
@[simp] theorem State.setPhase_faulted : (s.setPhase i p).faulted = s.faulted := rfl
@[simp] theorem State.setPhase_faultCause : (s.setPhase i p).faultCause = s.faultCause := rfl
@[simp] theorem State.setPhase_faultInfo : (s.setPhase i p).faultInfo = s.faultInfo := rfl
@[simp] theorem State.setPhase_faultW0 : (s.setPhase i p).faultW0 = s.faultW0 := rfl
@[simp] theorem State.setPhase_cmdCount : (s.setPhase i p).cmdCount = s.cmdCount := rfl
@[simp] theorem State.setPhase_memory : (s.setPhase i p).memory = s.memory := rfl

end

/-! ## `answer` -/

section
variable (s : State) (r0 r1 : Word)

@[simp] theorem State.answer_config : (s.answer r0 r1).config = s.config := rfl
@[simp] theorem State.answer_host : (s.answer r0 r1).host = s.host := rfl
@[simp] theorem State.answer_latch : (s.answer r0 r1).latch = s.latch := rfl
@[simp] theorem State.answer_reply : (s.answer r0 r1).reply = some ⟨r0, r1⟩ := rfl
@[simp] theorem State.answer_regs : (s.answer r0 r1).regs = s.regs := rfl
@[simp] theorem State.answer_phase : (s.answer r0 r1).phase = s.phase := rfl
@[simp] theorem State.answer_picActive : (s.answer r0 r1).picActive = s.picActive := rfl
@[simp] theorem State.answer_faulted : (s.answer r0 r1).faulted = s.faulted := rfl
@[simp] theorem State.answer_faultCause : (s.answer r0 r1).faultCause = s.faultCause := rfl
@[simp] theorem State.answer_faultInfo : (s.answer r0 r1).faultInfo = s.faultInfo := rfl
@[simp] theorem State.answer_faultW0 : (s.answer r0 r1).faultW0 = s.faultW0 := rfl
@[simp] theorem State.answer_cmdCount : (s.answer r0 r1).cmdCount = s.cmdCount + 1 := rfl
@[simp] theorem State.answer_memory : (s.answer r0 r1).memory = s.memory := rfl

end

/-! ## `recordFault` -/

section
variable (s : State) (r : Raised)

@[simp] theorem State.recordFault_config : (s.recordFault r).config = s.config := rfl
@[simp] theorem State.recordFault_host : (s.recordFault r).host = s.host := rfl
@[simp] theorem State.recordFault_latch : (s.recordFault r).latch = s.latch := rfl
@[simp] theorem State.recordFault_reply : (s.recordFault r).reply = s.reply := rfl
@[simp] theorem State.recordFault_regs : (s.recordFault r).regs = s.regs := rfl
@[simp] theorem State.recordFault_phase : (s.recordFault r).phase = s.phase := rfl
@[simp] theorem State.recordFault_picActive : (s.recordFault r).picActive = s.picActive := rfl
@[simp] theorem State.recordFault_faulted : (s.recordFault r).faulted = true := rfl
@[simp] theorem State.recordFault_faultCause : (s.recordFault r).faultCause = r.cause.code := rfl
@[simp] theorem State.recordFault_faultInfo : (s.recordFault r).faultInfo = BitVec.ofNat 32 r.info := rfl
@[simp] theorem State.recordFault_faultW0 : (s.recordFault r).faultW0 = s.latch.w0 := rfl
@[simp] theorem State.recordFault_cmdCount : (s.recordFault r).cmdCount = s.cmdCount := rfl
@[simp] theorem State.recordFault_memory : (s.recordFault r).memory = s.memory := rfl

end

/-! ## `present` -/

section
variable (s : State) (c : Command) (rest : List HostMove)

@[simp] theorem State.present_config : (s.present c rest).config = s.config := rfl
@[simp] theorem State.present_host : (s.present c rest).host = rest := rfl
@[simp] theorem State.present_latch : (s.present c rest).latch = c := rfl
@[simp] theorem State.present_reply : (s.present c rest).reply = s.reply := rfl
@[simp] theorem State.present_regs : (s.present c rest).regs = s.regs := rfl
@[simp] theorem State.present_phase : (s.present c rest).phase = s.phase := rfl
@[simp] theorem State.present_picActive : (s.present c rest).picActive = s.picActive := rfl
@[simp] theorem State.present_faulted : (s.present c rest).faulted = s.faulted := rfl
@[simp] theorem State.present_faultCause : (s.present c rest).faultCause = s.faultCause := rfl
@[simp] theorem State.present_faultInfo : (s.present c rest).faultInfo = s.faultInfo := rfl
@[simp] theorem State.present_faultW0 : (s.present c rest).faultW0 = s.faultW0 := rfl
@[simp] theorem State.present_cmdCount : (s.present c rest).cmdCount = s.cmdCount := rfl
@[simp] theorem State.present_memory : (s.present c rest).memory = s.memory := rfl

end

/-! ## `powerOn` -/

section
variable (s : State) (rest : List HostMove)

@[simp] theorem State.powerOn_config : (s.powerOn rest).config = s.config := rfl
@[simp] theorem State.powerOn_host : (s.powerOn rest).host = rest := rfl
@[simp] theorem State.powerOn_latch : (s.powerOn rest).latch = State.reset.latch := rfl
@[simp] theorem State.powerOn_reply : (s.powerOn rest).reply = State.reset.reply := rfl
@[simp] theorem State.powerOn_regs : (s.powerOn rest).regs = State.reset.regs := rfl
@[simp] theorem State.powerOn_phase : (s.powerOn rest).phase = State.reset.phase := rfl
@[simp] theorem State.powerOn_picActive : (s.powerOn rest).picActive = State.reset.picActive := rfl
@[simp] theorem State.powerOn_faulted : (s.powerOn rest).faulted = State.reset.faulted := rfl
@[simp] theorem State.powerOn_faultCause : (s.powerOn rest).faultCause = State.reset.faultCause := rfl
@[simp] theorem State.powerOn_faultInfo : (s.powerOn rest).faultInfo = State.reset.faultInfo := rfl
@[simp] theorem State.powerOn_faultW0 : (s.powerOn rest).faultW0 = State.reset.faultW0 := rfl
@[simp] theorem State.powerOn_cmdCount : (s.powerOn rest).cmdCount = State.reset.cmdCount := rfl
@[simp] theorem State.powerOn_memory : (s.powerOn rest).memory = ⟨s.memory.epoch + 1, []⟩ := rfl

end

/-! ## `resetBlock` -/

section
variable (s : State)

@[simp] theorem State.resetBlock_config : (s.resetBlock).config = s.config := rfl
@[simp] theorem State.resetBlock_host : (s.resetBlock).host = s.host := rfl
@[simp] theorem State.resetBlock_latch : (s.resetBlock).latch = s.latch := rfl
@[simp] theorem State.resetBlock_reply : (s.resetBlock).reply = State.reset.reply := rfl
@[simp] theorem State.resetBlock_regs : (s.resetBlock).regs = State.reset.regs := rfl
@[simp] theorem State.resetBlock_phase : (s.resetBlock).phase = State.reset.phase := rfl
@[simp] theorem State.resetBlock_picActive : (s.resetBlock).picActive = State.reset.picActive := rfl
@[simp] theorem State.resetBlock_faulted : (s.resetBlock).faulted = State.reset.faulted := rfl
@[simp] theorem State.resetBlock_faultCause : (s.resetBlock).faultCause = State.reset.faultCause := rfl
@[simp] theorem State.resetBlock_faultInfo : (s.resetBlock).faultInfo = State.reset.faultInfo := rfl
@[simp] theorem State.resetBlock_faultW0 : (s.resetBlock).faultW0 = State.reset.faultW0 := rfl
@[simp] theorem State.resetBlock_cmdCount : (s.resetBlock).cmdCount = State.reset.cmdCount := rfl
@[simp] theorem State.resetBlock_memory : (s.resetBlock).memory = s.memory := rfl

end

/-! ## `afterOk` -/

section
variable (s : State) (v : Word)

@[simp] theorem State.afterOk_config : (s.afterOk v).config = s.config := rfl
@[simp] theorem State.afterOk_host : (s.afterOk v).host = s.host := rfl
@[simp] theorem State.afterOk_latch : (s.afterOk v).latch = s.latch := rfl
@[simp] theorem State.afterOk_reply : (s.afterOk v).reply = some ⟨0, v⟩ := rfl
@[simp] theorem State.afterOk_regs : (s.afterOk v).regs = s.regs := rfl
@[simp] theorem State.afterOk_phase : (s.afterOk v).phase = s.phase := rfl
@[simp] theorem State.afterOk_picActive : (s.afterOk v).picActive = s.picActive := rfl
@[simp] theorem State.afterOk_faulted : (s.afterOk v).faulted = s.faulted := rfl
@[simp] theorem State.afterOk_faultCause : (s.afterOk v).faultCause = s.faultCause := rfl
@[simp] theorem State.afterOk_faultInfo : (s.afterOk v).faultInfo = s.faultInfo := rfl
@[simp] theorem State.afterOk_faultW0 : (s.afterOk v).faultW0 = s.faultW0 := rfl
@[simp] theorem State.afterOk_cmdCount : (s.afterOk v).cmdCount = s.cmdCount + 1 := rfl
@[simp] theorem State.afterOk_memory : (s.afterOk v).memory = s.memory := rfl

end

/-! ## `afterFault` -/

section
variable (s : State) (k i : Nat)

@[simp] theorem State.afterFault_config : (s.afterFault k i).config = s.config := rfl
@[simp] theorem State.afterFault_host : (s.afterFault k i).host = s.host := rfl
@[simp] theorem State.afterFault_latch : (s.afterFault k i).latch = s.latch := rfl
@[simp] theorem State.afterFault_reply : (s.afterFault k i).reply = some ⟨BitVec.ofNat 32 (1 + 2 ^ 8 * k), 0⟩ := rfl
@[simp] theorem State.afterFault_regs : (s.afterFault k i).regs = s.regs := rfl
@[simp] theorem State.afterFault_phase : (s.afterFault k i).phase = s.phase := rfl
@[simp] theorem State.afterFault_picActive : (s.afterFault k i).picActive = s.picActive := rfl
@[simp] theorem State.afterFault_faulted : (s.afterFault k i).faulted = true := rfl
@[simp] theorem State.afterFault_faultCause : (s.afterFault k i).faultCause = BitVec.ofNat 8 k := rfl
@[simp] theorem State.afterFault_faultInfo : (s.afterFault k i).faultInfo = BitVec.ofNat 32 i := rfl
@[simp] theorem State.afterFault_faultW0 : (s.afterFault k i).faultW0 = s.latch.w0 := rfl
@[simp] theorem State.afterFault_cmdCount : (s.afterFault k i).cmdCount = s.cmdCount + 1 := rfl
@[simp] theorem State.afterFault_memory : (s.afterFault k i).memory = s.memory := rfl

end

/-! ## `afterRefusal` -/

section
variable (s : State)

@[simp] theorem State.afterRefusal_config : (s.afterRefusal).config = s.config := rfl
@[simp] theorem State.afterRefusal_host : (s.afterRefusal).host = s.host := rfl
@[simp] theorem State.afterRefusal_latch : (s.afterRefusal).latch = s.latch := rfl
@[simp] theorem State.afterRefusal_reply : (s.afterRefusal).reply = some ⟨0x00000B01, 0⟩ := rfl
@[simp] theorem State.afterRefusal_regs : (s.afterRefusal).regs = s.regs := rfl
@[simp] theorem State.afterRefusal_phase : (s.afterRefusal).phase = s.phase := rfl
@[simp] theorem State.afterRefusal_picActive : (s.afterRefusal).picActive = s.picActive := rfl
@[simp] theorem State.afterRefusal_faulted : (s.afterRefusal).faulted = s.faulted := rfl
@[simp] theorem State.afterRefusal_faultCause : (s.afterRefusal).faultCause = s.faultCause := rfl
@[simp] theorem State.afterRefusal_faultInfo : (s.afterRefusal).faultInfo = s.faultInfo := rfl
@[simp] theorem State.afterRefusal_faultW0 : (s.afterRefusal).faultW0 = s.faultW0 := rfl
@[simp] theorem State.afterRefusal_cmdCount : (s.afterRefusal).cmdCount = s.cmdCount + 1 := rfl
@[simp] theorem State.afterRefusal_memory : (s.afterRefusal).memory = s.memory := rfl

end

/-! ## The geometry reads registers and parameters only -/

section
variable (s : State) (m : Memory) (c : Plane) (d : Dir) (x y i j : Nat)

@[simp] theorem State.setMemory_picW : (s.setMemory m).picW = s.picW := rfl
@[simp] theorem State.setMemory_picH : (s.setMemory m).picH = s.picH := rfl
@[simp] theorem State.setMemory_chroma : (s.setMemory m).chroma = s.chroma := rfl
@[simp] theorem State.setMemory_bitDepth : (s.setMemory m).bitDepth = s.bitDepth := rfl
@[simp] theorem State.setMemory_ctuSize : (s.setMemory m).ctuSize = s.ctuSize := rfl
@[simp] theorem State.setMemory_units : (s.setMemory m).units = s.units := rfl
@[simp] theorem State.setMemory_ctusW : (s.setMemory m).ctusW = s.ctusW := rfl
@[simp] theorem State.setMemory_ctusH : (s.setMemory m).ctusH = s.ctusH := rfl
@[simp] theorem State.setMemory_ctuIdx : (s.setMemory m).ctuIdx x y = s.ctuIdx x y := rfl
@[simp] theorem State.setMemory_shiftX : (s.setMemory m).shiftX c = s.shiftX c := rfl
@[simp] theorem State.setMemory_shiftY : (s.setMemory m).shiftY c = s.shiftY c := rfl
@[simp] theorem State.setMemory_planeW : (s.setMemory m).planeW c = s.planeW c := rfl
@[simp] theorem State.setMemory_planeH : (s.setMemory m).planeH c = s.planeH c := rfl
@[simp] theorem State.setMemory_planeBase : (s.setMemory m).planeBase c = s.planeBase c := rfl
@[simp] theorem State.setMemory_planeStride : (s.setMemory m).planeStride c = s.planeStride c := rfl
@[simp] theorem State.setMemory_planesInUse : (s.setMemory m).planesInUse = s.planesInUse := rfl
@[simp] theorem State.setMemory_pixAddr : (s.setMemory m).pixAddr c x y = s.pixAddr c x y := rfl
@[simp] theorem State.setMemory_regions : (s.setMemory m).regions = s.regions := rfl
@[simp] theorem State.setMemory_recAddr : (s.setMemory m).recAddr x y = s.recAddr x y := rfl
@[simp] theorem State.setMemory_lfpAddr : (s.setMemory m).lfpAddr x y d i j = s.lfpAddr x y d i j := rfl
@[simp] theorem State.setMemory_unitInside : (s.setMemory m).unitInside x y = s.unitInside x y := rfl
@[simp] theorem State.setMemory_insideUnits : (s.setMemory m).insideUnits x y = s.insideUnits x y := rfl
@[simp] theorem State.setMemory_dbfEn : (s.setMemory m).dbfEn = s.dbfEn := rfl
@[simp] theorem State.setMemory_ctuIndices : (s.setMemory m).ctuIndices = s.ctuIndices := rfl

end

section
variable (s : State) (k : Nat) (p : Phase) (c : Plane) (d : Dir) (x y i j : Nat)

@[simp] theorem State.setPhase_picW : (s.setPhase k p).picW = s.picW := rfl
@[simp] theorem State.setPhase_picH : (s.setPhase k p).picH = s.picH := rfl
@[simp] theorem State.setPhase_chroma : (s.setPhase k p).chroma = s.chroma := rfl
@[simp] theorem State.setPhase_bitDepth : (s.setPhase k p).bitDepth = s.bitDepth := rfl
@[simp] theorem State.setPhase_ctuSize : (s.setPhase k p).ctuSize = s.ctuSize := rfl
@[simp] theorem State.setPhase_units : (s.setPhase k p).units = s.units := rfl
@[simp] theorem State.setPhase_ctusW : (s.setPhase k p).ctusW = s.ctusW := rfl
@[simp] theorem State.setPhase_ctusH : (s.setPhase k p).ctusH = s.ctusH := rfl
@[simp] theorem State.setPhase_ctuIdx : (s.setPhase k p).ctuIdx x y = s.ctuIdx x y := rfl
@[simp] theorem State.setPhase_shiftX : (s.setPhase k p).shiftX c = s.shiftX c := rfl
@[simp] theorem State.setPhase_shiftY : (s.setPhase k p).shiftY c = s.shiftY c := rfl
@[simp] theorem State.setPhase_planeW : (s.setPhase k p).planeW c = s.planeW c := rfl
@[simp] theorem State.setPhase_planeH : (s.setPhase k p).planeH c = s.planeH c := rfl
@[simp] theorem State.setPhase_planeBase : (s.setPhase k p).planeBase c = s.planeBase c := rfl
@[simp] theorem State.setPhase_planeStride : (s.setPhase k p).planeStride c = s.planeStride c := rfl
@[simp] theorem State.setPhase_planesInUse : (s.setPhase k p).planesInUse = s.planesInUse := rfl
@[simp] theorem State.setPhase_pixAddr : (s.setPhase k p).pixAddr c x y = s.pixAddr c x y := rfl
@[simp] theorem State.setPhase_regions : (s.setPhase k p).regions = s.regions := rfl
@[simp] theorem State.setPhase_recAddr : (s.setPhase k p).recAddr x y = s.recAddr x y := rfl
@[simp] theorem State.setPhase_lfpAddr : (s.setPhase k p).lfpAddr x y d i j = s.lfpAddr x y d i j := rfl
@[simp] theorem State.setPhase_unitInside : (s.setPhase k p).unitInside x y = s.unitInside x y := rfl
@[simp] theorem State.setPhase_insideUnits : (s.setPhase k p).insideUnits x y = s.insideUnits x y := rfl
@[simp] theorem State.setPhase_dbfEn : (s.setPhase k p).dbfEn = s.dbfEn := rfl
@[simp] theorem State.setPhase_ctuIndices : (s.setPhase k p).ctuIndices = s.ctuIndices := rfl

end

section
variable (s : State) (b : Bool) (c : Plane) (d : Dir) (x y i j : Nat)

@[simp] theorem State.setPicture_picW : (s.setPicture b).picW = s.picW := rfl
@[simp] theorem State.setPicture_picH : (s.setPicture b).picH = s.picH := rfl
@[simp] theorem State.setPicture_chroma : (s.setPicture b).chroma = s.chroma := rfl
@[simp] theorem State.setPicture_bitDepth : (s.setPicture b).bitDepth = s.bitDepth := rfl
@[simp] theorem State.setPicture_ctuSize : (s.setPicture b).ctuSize = s.ctuSize := rfl
@[simp] theorem State.setPicture_units : (s.setPicture b).units = s.units := rfl
@[simp] theorem State.setPicture_ctusW : (s.setPicture b).ctusW = s.ctusW := rfl
@[simp] theorem State.setPicture_ctusH : (s.setPicture b).ctusH = s.ctusH := rfl
@[simp] theorem State.setPicture_ctuIdx : (s.setPicture b).ctuIdx x y = s.ctuIdx x y := rfl
@[simp] theorem State.setPicture_shiftX : (s.setPicture b).shiftX c = s.shiftX c := rfl
@[simp] theorem State.setPicture_shiftY : (s.setPicture b).shiftY c = s.shiftY c := rfl
@[simp] theorem State.setPicture_planeW : (s.setPicture b).planeW c = s.planeW c := rfl
@[simp] theorem State.setPicture_planeH : (s.setPicture b).planeH c = s.planeH c := rfl
@[simp] theorem State.setPicture_planeBase : (s.setPicture b).planeBase c = s.planeBase c := rfl
@[simp] theorem State.setPicture_planeStride : (s.setPicture b).planeStride c = s.planeStride c := rfl
@[simp] theorem State.setPicture_planesInUse : (s.setPicture b).planesInUse = s.planesInUse := rfl
@[simp] theorem State.setPicture_pixAddr : (s.setPicture b).pixAddr c x y = s.pixAddr c x y := rfl
@[simp] theorem State.setPicture_regions : (s.setPicture b).regions = s.regions := rfl
@[simp] theorem State.setPicture_recAddr : (s.setPicture b).recAddr x y = s.recAddr x y := rfl
@[simp] theorem State.setPicture_lfpAddr : (s.setPicture b).lfpAddr x y d i j = s.lfpAddr x y d i j := rfl
@[simp] theorem State.setPicture_unitInside : (s.setPicture b).unitInside x y = s.unitInside x y := rfl
@[simp] theorem State.setPicture_insideUnits : (s.setPicture b).insideUnits x y = s.insideUnits x y := rfl
@[simp] theorem State.setPicture_dbfEn : (s.setPicture b).dbfEn = s.dbfEn := rfl
@[simp] theorem State.setPicture_ctuIndices : (s.setPicture b).ctuIndices = s.ctuIndices := rfl

end

section
variable (s : State) (r0 r1 : Word) (c : Plane) (d : Dir) (x y i j : Nat)

@[simp] theorem State.answer_picW : (s.answer r0 r1).picW = s.picW := rfl
@[simp] theorem State.answer_picH : (s.answer r0 r1).picH = s.picH := rfl
@[simp] theorem State.answer_chroma : (s.answer r0 r1).chroma = s.chroma := rfl
@[simp] theorem State.answer_bitDepth : (s.answer r0 r1).bitDepth = s.bitDepth := rfl
@[simp] theorem State.answer_ctuSize : (s.answer r0 r1).ctuSize = s.ctuSize := rfl
@[simp] theorem State.answer_units : (s.answer r0 r1).units = s.units := rfl
@[simp] theorem State.answer_ctusW : (s.answer r0 r1).ctusW = s.ctusW := rfl
@[simp] theorem State.answer_ctusH : (s.answer r0 r1).ctusH = s.ctusH := rfl
@[simp] theorem State.answer_ctuIdx : (s.answer r0 r1).ctuIdx x y = s.ctuIdx x y := rfl
@[simp] theorem State.answer_shiftX : (s.answer r0 r1).shiftX c = s.shiftX c := rfl
@[simp] theorem State.answer_shiftY : (s.answer r0 r1).shiftY c = s.shiftY c := rfl
@[simp] theorem State.answer_planeW : (s.answer r0 r1).planeW c = s.planeW c := rfl
@[simp] theorem State.answer_planeH : (s.answer r0 r1).planeH c = s.planeH c := rfl
@[simp] theorem State.answer_planeBase : (s.answer r0 r1).planeBase c = s.planeBase c := rfl
@[simp] theorem State.answer_planeStride : (s.answer r0 r1).planeStride c = s.planeStride c := rfl
@[simp] theorem State.answer_planesInUse : (s.answer r0 r1).planesInUse = s.planesInUse := rfl
@[simp] theorem State.answer_pixAddr : (s.answer r0 r1).pixAddr c x y = s.pixAddr c x y := rfl
@[simp] theorem State.answer_regions : (s.answer r0 r1).regions = s.regions := rfl
@[simp] theorem State.answer_recAddr : (s.answer r0 r1).recAddr x y = s.recAddr x y := rfl
@[simp] theorem State.answer_lfpAddr : (s.answer r0 r1).lfpAddr x y d i j = s.lfpAddr x y d i j := rfl
@[simp] theorem State.answer_unitInside : (s.answer r0 r1).unitInside x y = s.unitInside x y := rfl
@[simp] theorem State.answer_insideUnits : (s.answer r0 r1).insideUnits x y = s.insideUnits x y := rfl
@[simp] theorem State.answer_dbfEn : (s.answer r0 r1).dbfEn = s.dbfEn := rfl
@[simp] theorem State.answer_ctuIndices : (s.answer r0 r1).ctuIndices = s.ctuIndices := rfl

end

end Sys2Proof.Machine
end

