-- ==== Sys2Proof/Laws/Geometry.lean ====
section
/-! SUPPORT. Where samples, records and entries lie: inside the regions `PIC_START` checks (R66, R70, R73, R273). -/

namespace Sys2Proof.Machine

theorem State.ctuSize_pos (s : State) : 0 < s.ctuSize := Nat.two_pow_pos _

/-- A CTU inside the picture has an index below the number of CTUs. -/
theorem State.ctuIdx_lt {s : State} {cx cy : Nat} (hx : cx < s.ctusW) (hy : cy < s.ctusH) :
    s.ctuIdx cx cy < s.ctusW * s.ctusH := by
  unfold State.ctuIdx
  have h1 : (cy + 1) * s.ctusW ≤ s.ctusH * s.ctusW := Nat.mul_le_mul_right _ hy
  rw [Nat.add_mul, Nat.one_mul] at h1
  rw [Nat.mul_comm s.ctusW]
  omega

/-- Different CTUs of the picture have different indices. -/
theorem State.ctuIdx_inj {s : State} {cx cy dx dy : Nat} (hx : cx < s.ctusW) (hx' : dx < s.ctusW)
    (h : s.ctuIdx cx cy = s.ctuIdx dx dy) : cx = dx ∧ cy = dy := by
  unfold State.ctuIdx at h
  have hy : cy = dy := by
    rcases Nat.lt_trichotomy cy dy with hlt | heq | hgt
    · have h1 : (cy + 1) * s.ctusW ≤ dy * s.ctusW := Nat.mul_le_mul_right _ hlt
      rw [Nat.add_mul, Nat.one_mul] at h1
      omega
    · exact heq
    · have h1 : (dy + 1) * s.ctusW ≤ cy * s.ctusW := Nat.mul_le_mul_right _ hgt
      rw [Nat.add_mul, Nat.one_mul] at h1
      omega
  subst hy
  omega

/-- Every index below the number of CTUs is that of a CTU of the picture. -/
theorem State.ctuIdx_surj {s : State} {i : Nat} (h : i < s.ctusW * s.ctusH) :
    ∃ cx < s.ctusW, ∃ cy < s.ctusH, s.ctuIdx cx cy = i := by
  have hw : 0 < s.ctusW := by
    rcases Nat.eq_zero_or_pos s.ctusW with h0 | h0
    · simp [h0] at h
    · exact h0
  refine ⟨i % s.ctusW, Nat.mod_lt _ hw, i / s.ctusW, Nat.div_lt_of_lt_mul h, ?_⟩
  unfold State.ctuIdx
  rw [Nat.mul_comm]
  exact Nat.div_add_mod i s.ctusW

theorem mem_unitGrid {n : Nat} {u : Nat × Nat} : u ∈ unitGrid n ↔ u.1 < n ∧ u.2 < n := by
  obtain ⟨a, b⟩ := u
  simp only [unitGrid, List.mem_flatMap, List.mem_range, List.mem_map, Prod.mk.injEq]
  constructor
  · rintro ⟨y, hy, x, hx, rfl, rfl⟩; exact ⟨hx, hy⟩
  · rintro ⟨hx, hy⟩; exact ⟨b, hy, a, hx, rfl, rfl⟩

theorem State.mem_insideUnits {s : State} {cx cy : Nat} {u : Nat × Nat} : u ∈ s.insideUnits cx cy ↔
    (u.1 < s.units ∧ u.2 < s.units) ∧ cx * s.units + u.1 < s.picW / 4 ∧ cy * s.units + u.2 < s.picH / 4 := by
  simp [State.insideUnits, mem_unitGrid, State.unitInside]

/-! ## Regions -/

/-- A sample of a plane lies in the plane's region. -/
theorem State.pixAddr_inRegion {s : State} {c : Plane} {x y : Nat} (hx : x < s.planeW c) (hy : y < s.planeH c) :
    (s.planeRegion c).base ≤ s.pixAddr c x y ∧ s.pixAddr c x y + 2 ≤ (s.planeRegion c).stop := by
  unfold State.planeRegion State.pixAddr
  have h : y * s.planeStride c ≤ (s.planeH c - 1) * s.planeStride c := Nat.mul_le_mul_right _ (by omega)
  constructor <;> (simp only; omega)

/-- A record of a unit of the picture lies in the region of the grid. -/
theorem State.recAddr_inRegion {s : State} {gx gy : Nat} (hx : gx < s.picW / 4) (hy : gy < s.picH / 4) :
    s.metaRegion.base ≤ s.recAddr gx gy ∧ s.recAddr gx gy + 32 ≤ s.metaRegion.stop := by
  unfold State.metaRegion State.recAddr
  have h : gy * s.regs.metaStride.toNat ≤ (s.picH / 4 - 1) * s.regs.metaStride.toNat := Nat.mul_le_mul_right _ (by omega)
  constructor <;> (simp only; omega)

/-- The number of an entry in the store (R73). -/
theorem lfpNumber_lt {i n d u ux uy : Nat} (hi : i < n) (hd : d < 2) (hx : ux < u) (hy : uy < u) :
    ((i * 2 + d) * u + uy) * u + ux < n * 2 * u * u := by
  have h1 : i * 2 + d + 1 ≤ n * 2 := by omega
  have h2 : ((i * 2 + d) * u + uy) + 1 ≤ n * 2 * u := by
    have := Nat.mul_le_mul_right u h1
    rw [Nat.add_mul, Nat.one_mul] at this
    omega
  have := Nat.mul_le_mul_right u h2
  rw [Nat.add_mul _ 1, Nat.one_mul] at this
  omega

/-- An entry's number determines its CTU, direction and unit (R73). -/
theorem lfpNumber_inj {i j d e u ux uy vx vy : Nat} (hd : d < 2) (he : e < 2) (hx : ux < u) (hvx : vx < u) (hy : uy < u)
    (hvy : vy < u) (h : ((i * 2 + d) * u + uy) * u + ux = ((j * 2 + e) * u + vy) * u + vx) :
    i = j ∧ d = e ∧ ux = vx ∧ uy = vy := by
  have key : ∀ {a b r q : Nat}, r < u → q < u → a * u + r = b * u + q → a = b ∧ r = q := by
    intro a b r q hr hq hab
    have hu : 0 < u := by omega
    have h1 : (a * u + r) / u = a := by rw [Nat.mul_comm, Nat.mul_add_div hu, Nat.div_eq_of_lt hr, Nat.add_zero]
    have h2 : (b * u + q) / u = b := by rw [Nat.mul_comm, Nat.mul_add_div hu, Nat.div_eq_of_lt hq, Nat.add_zero]
    have hab' : a = b := by rw [← h1, ← h2, hab]
    subst hab'
    exact ⟨rfl, by omega⟩
  obtain ⟨h1, h2⟩ := key hx hvx h
  obtain ⟨h3, h4⟩ := key hy hvy h1
  omega

theorem Dir.index_lt (d : Dir) : Dir.index d < 2 := by cases d <;> decide

theorem Dir.index_inj {d e : Dir} (h : Dir.index d = Dir.index e) : d = e := by
  cases d <;> cases e <;> first | rfl | exact absurd h (by decide)

/-- An entry of a CTU of the picture lies in the region of the store. -/
theorem State.lfpAddr_inRegion {s : State} {cx cy ux uy : Nat} (dir : Dir) (hx : cx < s.ctusW) (hy : cy < s.ctusH)
    (hux : ux < s.units) (huy : uy < s.units) :
    s.lfpRegion.base ≤ s.lfpAddr cx cy dir ux uy ∧ s.lfpAddr cx cy dir ux uy + 2 ≤ s.lfpRegion.stop := by
  unfold State.lfpRegion State.lfpAddr
  have h := lfpNumber_lt (State.ctuIdx_lt hx hy) (Dir.index_lt dir) hux huy
  constructor <;> (simp only; omega)

/-- Entries of different units, directions or CTUs are at different items. -/
theorem State.lfpAddr_apart {s : State} {cx cy dx dy ux uy vx vy : Nat} {d e : Dir} (hx : cx < s.ctusW) (hx' : dx < s.ctusW)
    (hux : ux < s.units) (huy : uy < s.units) (hvx : vx < s.units) (hvy : vy < s.units)
    (h : ¬(cx = dx ∧ cy = dy ∧ d = e ∧ ux = vx ∧ uy = vy)) :
    s.lfpAddr cx cy d ux uy + 2 ≤ s.lfpAddr dx dy e vx vy ∨ s.lfpAddr dx dy e vx vy + 2 ≤ s.lfpAddr cx cy d ux uy := by
  unfold State.lfpAddr
  have hne : ((s.ctuIdx cx cy * 2 + Dir.index d) * s.units + uy) * s.units + ux
      ≠ ((s.ctuIdx dx dy * 2 + Dir.index e) * s.units + vy) * s.units + vx := by
    intro heq
    obtain ⟨h1, h2, h3, h4⟩ := lfpNumber_inj (Dir.index_lt d) (Dir.index_lt e) hux hvx huy hvy heq
    obtain ⟨h5, h6⟩ := State.ctuIdx_inj hx hx' h1
    exact h ⟨h5, h6, Dir.index_inj h2, h3, h4⟩
  omega

theorem State.mem_regions_meta (s : State) : s.metaRegion ∈ s.regions := by simp [State.regions]

theorem State.mem_regions_lfp (s : State) : s.lfpRegion ∈ s.regions := by simp [State.regions]

theorem State.mem_regions_plane {s : State} {c : Plane} (h : c ∈ s.planesInUse) : s.planeRegion c ∈ s.regions := by
  simp only [State.regions, List.mem_append, List.mem_map]
  exact .inl ⟨c, h, rfl⟩

/-- Planes lie apart from the store and from the grid, and the store from the grid (R273 e). -/
theorem State.GeometryFits.apart {s : State} (h : s.GeometryFits) :
    (∀ c ∈ s.planesInUse, ¬((s.planeRegion c).base < s.metaRegion.stop ∧ s.metaRegion.base < (s.planeRegion c).stop)
      ∧ ¬((s.planeRegion c).base < s.lfpRegion.stop ∧ s.lfpRegion.base < (s.planeRegion c).stop))
      ∧ ¬(s.metaRegion.base < s.lfpRegion.stop ∧ s.lfpRegion.base < s.metaRegion.stop) := by
  have hd := h.disjoint
  unfold State.regions at hd
  obtain ⟨_, h2, h3⟩ := List.pairwise_append.mp hd
  refine ⟨fun c hc => ⟨?_, ?_⟩, ?_⟩
  · exact h3 _ (List.mem_map_of_mem hc) _ (by simp)
  · exact h3 _ (List.mem_map_of_mem hc) _ (by simp)
  · simpa using h2

/-- Plane 0 is always in use. -/
theorem State.luma_inUse (s : State) : Plane.y ∈ s.planesInUse := by
  unfold State.planesInUse
  split <;> simp

theorem State.chroma_inUse {s : State} (c : Plane) (h : s.chroma ≠ 0) : c ∈ s.planesInUse := by
  unfold State.planesInUse
  rw [if_neg h]
  cases c <;> simp

end Sys2Proof.Machine
end

