-- ==== Sys2Proof/Laws/Memory.lean ====
section
/-! SUPPORT. What sparse lists and `BMEM` do: read after write, what a write leaves alone, and that every operation keeps
the canonical form and the bound. -/

namespace Sys2Proof.Machine

/-! ## Sparse lists -/

section Sparse
variable {α : Type} {k j : Nat} {v : α} {l : List (Nat × α)}

theorem valueAt_putAt_same (k : Nat) (v : α) (l : List (Nat × α)) : valueAt k (putAt k v l) = some v := by
  induction l with
  | nil => simp [putAt, valueAt]
  | cons e rest ih =>
    obtain ⟨j, w⟩ := e
    by_cases h1 : k < j
    · simp [putAt, valueAt, h1]
    · by_cases h2 : j = k
      · simp [putAt, valueAt, h2]
      · simp [putAt, valueAt, h1, h2, ih]

theorem valueAt_putAt_other (h : j ≠ k) (v : α) (l : List (Nat × α)) : valueAt j (putAt k v l) = valueAt j l := by
  induction l with
  | nil => simp [putAt, valueAt, Ne.symm h]
  | cons e rest ih =>
    obtain ⟨i, w⟩ := e
    by_cases h1 : k < i
    · simp [putAt, valueAt, h1, Ne.symm h]
    · by_cases h2 : i = k
      · subst h2; simp [putAt, valueAt, Ne.symm h]
      · simp [putAt, valueAt, h1, h2, ih]

theorem valueAt_putAt (j k : Nat) (v : α) (l : List (Nat × α)) :
    valueAt j (putAt k v l) = if j = k then some v else valueAt j l := by
  by_cases h : j = k
  · subst h; simp [valueAt_putAt_same]
  · simp [h, valueAt_putAt_other h]

theorem valueAt_dropAt (j k : Nat) (l : List (Nat × α)) :
    valueAt j (dropAt k l) = if j = k then none else valueAt j l := by
  induction l with
  | nil => simp [dropAt, valueAt]
  | cons e rest ih =>
    obtain ⟨i, w⟩ := e
    by_cases h : i = k
    · subst h
      by_cases hj : j = i
      · rw [if_pos hj] at ih; simp [dropAt, ih]; exact fun h => absurd hj h
      · simp [dropAt, ih, hj, valueAt, Ne.symm hj]
    · by_cases hj : j = k
      · subst hj; simp [dropAt, h, valueAt, ih]
      · simp [dropAt, h, valueAt, ih, hj]

theorem mem_putAt {e : Nat × α} (h : e ∈ putAt k v l) : e = (k, v) ∨ e ∈ l := by
  induction l with
  | nil => exact Or.inl (by simpa [putAt] using h)
  | cons x rest ih =>
    obtain ⟨j, w⟩ := x
    simp only [putAt] at h
    split at h
    · rcases List.mem_cons.mp h with h | h
      · exact Or.inl h
      · exact Or.inr h
    · split at h
      · rcases List.mem_cons.mp h with h | h
        · exact Or.inl h
        · exact Or.inr (List.mem_cons_of_mem _ h)
      · rcases List.mem_cons.mp h with h | h
        · exact Or.inr (h ▸ List.mem_cons_self)
        · rcases ih h with h | h
          · exact Or.inl h
          · exact Or.inr (List.mem_cons_of_mem _ h)

theorem mem_dropAt {e : Nat × α} (h : e ∈ dropAt k l) : e ∈ l := by
  induction l with
  | nil => exact h
  | cons x rest ih =>
    obtain ⟨j, w⟩ := x
    simp only [dropAt] at h
    split at h
    · exact List.mem_cons_of_mem _ (ih h)
    · rcases List.mem_cons.mp h with h | h
      · exact h ▸ List.mem_cons_self
      · exact List.mem_cons_of_mem _ (ih h)

theorem rising_cons {e : Nat × α} : rising (e :: l) ↔ (∀ x ∈ l, e.1 < x.1) ∧ rising l := by
  simp [rising, List.pairwise_cons]

theorem rising_putAt (h : rising l) (k : Nat) (v : α) : rising (putAt k v l) := by
  induction l with
  | nil => simp [putAt, rising]
  | cons x rest ih =>
    obtain ⟨j, w⟩ := x
    obtain ⟨h1, h2⟩ := rising_cons.mp h
    simp only [putAt]
    split
    · next hk =>
      refine rising_cons.mpr ⟨fun x hx => ?_, h⟩
      rcases List.mem_cons.mp hx with rfl | hx
      · exact hk
      · exact Nat.lt_trans hk (h1 x hx)
    · split
      · next hk =>
        have hk : j = k := by simpa using hk
        exact rising_cons.mpr ⟨fun x hx => hk ▸ h1 x hx, h2⟩
      · next hk1 hk2 =>
        refine rising_cons.mpr ⟨fun x hx => ?_, ih h2⟩
        rcases mem_putAt hx with rfl | hx
        · have : j ≠ k := by simpa using hk2
          show j < k
          omega
        · exact h1 x hx

theorem rising_dropAt (h : rising l) (k : Nat) : rising (dropAt k l) := by
  induction l with
  | nil => exact h
  | cons x rest ih =>
    obtain ⟨j, w⟩ := x
    obtain ⟨h1, h2⟩ := rising_cons.mp h
    simp only [dropAt]
    split
    · exact ih h2
    · exact rising_cons.mpr ⟨fun x hx => h1 x (mem_dropAt hx), ih h2⟩

theorem valueAt_mem (h : valueAt k l = some v) : (k, v) ∈ l := by
  induction l with
  | nil => simp [valueAt] at h
  | cons x rest ih =>
    obtain ⟨j, w⟩ := x
    simp only [valueAt] at h
    split at h
    · next hj =>
      have : j = k := by simpa using hj
      simp_all
    · exact List.mem_cons_of_mem _ (ih h)

theorem valueAt_of_mem (hl : rising l) (h : (k, v) ∈ l) : valueAt k l = some v := by
  induction l with
  | nil => simp at h
  | cons x rest ih =>
    obtain ⟨j, w⟩ := x
    obtain ⟨h1, h2⟩ := rising_cons.mp hl
    rcases List.mem_cons.mp h with h | h
    · cases h; simp [valueAt]
    · have := h1 _ h
      have hne : j ≠ k := by simp at this; omega
      simp [valueAt, hne, ih h2 h]

/-- Listing at a key the value it has changes nothing. -/
theorem putAt_valueAt (hl : rising l) (h : valueAt k l = some v) : putAt k v l = l := by
  induction l with
  | nil => simp [valueAt] at h
  | cons x rest ih =>
    obtain ⟨j, w⟩ := x
    obtain ⟨h1, h2⟩ := rising_cons.mp hl
    by_cases hj : j = k
    · subst hj
      have hw : w = v := by simpa [valueAt] using h
      simp [putAt, hw]
    · have h' : valueAt k rest = some v := by simpa [valueAt, hj] using h
      have : j < k := h1 _ (valueAt_mem h')
      have hk : ¬ k < j := by omega
      simp [putAt, hk, hj, ih h2 h']

end Sparse

/-! ## One byte -/

theorem Memory.readByte_writeByte (m : Memory) (a x : Nat) (b : Byte) :
    (m.writeByte a b).readByte x = if x = a then b else m.readByte x := by
  by_cases h : x = a
  · subst h; simp [Memory.readByte, Memory.writeByte, valueAt_putAt]
  · simp [Memory.readByte, Memory.writeByte, valueAt_putAt, h, Memory.unlisted]

@[simp] theorem Memory.writeByte_epoch (m : Memory) (a : Nat) (b : Byte) : (m.writeByte a b).epoch = m.epoch := rfl

theorem Memory.wf_writeByte {m : Memory} (h : m.wf) (a : Nat) (b : Byte) : (m.writeByte a b).wf :=
  rising_putAt h a b

theorem Memory.within_writeByte {m : Memory} {size a : Nat} (h : m.within size) (ha : a < size) (b : Byte) :
    (m.writeByte a b).within size := by
  intro cell hc
  rcases mem_putAt hc with rfl | hc
  · exact ha
  · exact h _ hc

/-! ## Items of several bytes -/

theorem Memory.readByte_write (m : Memory) (a n v x : Nat) :
    (m.write a n v).readByte x =
      if inBuffer a n x then BitVec.ofNat 8 (v / 256 ^ (x - a)) else m.readByte x := by
  induction n generalizing m a v with
  | zero => rw [if_neg (by omega)]; rfl
  | succ n ih =>
    rw [Memory.write, ih, Memory.readByte_writeByte]
    by_cases h0 : x = a
    · subst h0
      have h1 : ¬ inBuffer (x + 1) n x := by simp [inBuffer]
      have h2 : inBuffer x (n + 1) x := by simp [inBuffer]
      rw [if_neg h1, if_pos h2]; simp
    · by_cases h1 : inBuffer (a + 1) n x
      · have h2 : inBuffer a (n + 1) x := by unfold inBuffer at *; omega
        have h3 : x - a = (x - (a + 1)) + 1 := by unfold inBuffer at h1; omega
        rw [if_pos h1, if_pos h2, h3, Nat.pow_succ', Nat.div_div_eq_div_mul]
      · have h2 : ¬ inBuffer a (n + 1) x := by unfold inBuffer at *; omega
        rw [if_neg h1, if_neg h2, if_neg h0]

/-- A write leaves every byte outside the item alone. -/
theorem Memory.readByte_write_outside {a n x : Nat} (m : Memory) (v : Nat) (h : ¬ inBuffer a n x) :
    (m.write a n v).readByte x = m.readByte x := by
  rw [Memory.readByte_write, if_neg h]

@[simp] theorem Memory.write_epoch (m : Memory) (a n v : Nat) : (m.write a n v).epoch = m.epoch := by
  induction n generalizing m a v with
  | zero => rfl
  | succ n ih => rw [Memory.write, ih, Memory.writeByte_epoch]

theorem Memory.wf_write {m : Memory} (h : m.wf) (a n v : Nat) : (m.write a n v).wf := by
  induction n generalizing m a v with
  | zero => exact h
  | succ n ih => exact ih (Memory.wf_writeByte h a _) _ _

theorem Memory.within_write {m : Memory} {size a n : Nat} (h : m.within size) (ha : a + n ≤ size) (v : Nat) :
    (m.write a n v).within size := by
  induction n generalizing m a v with
  | zero => exact h
  | succ n ih => exact ih (Memory.within_writeByte h (by omega) _) (by omega) _

/-- Two memories that agree on the bytes of an item give the same value. -/
theorem Memory.read_congr {m m' : Memory} {a n : Nat} (h : ∀ x, inBuffer a n x → m'.readByte x = m.readByte x) :
    m'.read a n = m.read a n := by
  induction n generalizing a with
  | zero => rfl
  | succ n ih =>
    have h1 := h a (by simp [inBuffer])
    have h2 := ih (a := a + 1) fun x hx => h x (by unfold inBuffer at *; omega)
    simp only [Memory.read, h1, h2]

/-- Read after write of the same item. -/
theorem Memory.read_write_same (m : Memory) (a n v : Nat) : (m.write a n v).read a n = v % 256 ^ n := by
  induction n generalizing m a v with
  | zero => simp [Memory.read, Nat.mod_one]
  | succ n ih =>
    rw [Memory.read, Memory.readByte_write, if_pos (by simp [inBuffer])]
    have h : (m.write a (n + 1) v).read (a + 1) n = ((m.writeByte a (BitVec.ofNat 8 v)).write (a + 1) n (v / 256)).read (a + 1) n := rfl
    rw [h, ih, Nat.pow_succ']
    simp only [Nat.sub_self, Nat.pow_zero, Nat.div_one, BitVec.toNat_ofNat]
    rw [Nat.mod_mul]

/-- Read after a write of another item. -/
theorem Memory.read_write_other {a n b k : Nat} (m : Memory) (v : Nat) (h : a + n ≤ b ∨ b + k ≤ a) :
    (m.write b k v).read a n = m.read a n :=
  Memory.read_congr fun x hx => Memory.readByte_write_outside _ _ (by unfold inBuffer at *; omega)

theorem Memory.read_lt (m : Memory) (a n : Nat) : m.read a n < 256 ^ n := by
  induction n generalizing a with
  | zero => simp [Memory.read]
  | succ n ih =>
    have h1 := (m.readByte a).isLt
    have h2 := ih (a + 1)
    rw [Memory.read, Nat.pow_succ']
    omega

/-- Writing the value an item has changes no byte. -/
theorem Memory.readByte_write_read (m : Memory) (a n x : Nat) : (m.write a n (m.read a n)).readByte x = m.readByte x := by
  induction n generalizing m a with
  | zero => rfl
  | succ n ih =>
    have hb : BitVec.ofNat 8 (m.read a (n + 1)) = m.readByte a := by
      apply BitVec.eq_of_toNat_eq
      have := (m.readByte a).isLt
      simp only [Memory.read, BitVec.toNat_ofNat]
      omega
    have hd : m.read a (n + 1) / 256 = m.read (a + 1) n := by
      have := (m.readByte a).isLt
      simp only [Memory.read]
      omega
    have hc : (m.writeByte a (m.readByte a)).read (a + 1) n = m.read (a + 1) n :=
      Memory.read_congr fun x hx => by
        rw [Memory.readByte_writeByte, if_neg (by unfold inBuffer at hx; omega)]
    rw [Memory.write, hb, hd, ← hc, ih, Memory.readByte_writeByte]
    split
    · next h => rw [h]
    · rfl

/-! ## Signed halves -/

theorem half_lt (v : Int) : half v < 65536 := by
  unfold half
  omega

/-- A value stored in 16 bits reads back as the value that was clipped to them. -/
theorem sext_half {v : Int} (h1 : -32768 ≤ v) (h2 : v ≤ 32767) : sext 16 (half v) = v := by
  unfold half sext
  simp only [Nat.reduceSub, Nat.reducePow]
  split <;> omega

theorem half_of_nonneg {v : Int} (h1 : 0 ≤ v) (h2 : v < 65536) : (half v : Int) = v := by
  unfold half
  omega

theorem sext_range (v : Nat) (h : v < 65536) : -32768 ≤ sext 16 v ∧ sext 16 v ≤ 32767 := by
  unfold sext
  simp only [Nat.reduceSub, Nat.reducePow]
  split <;> omega

theorem Memory.readS16_range (m : Memory) (a : Nat) : -32768 ≤ m.readS16 a ∧ m.readS16 a ≤ 32767 :=
  sext_range _ (by simpa using Memory.read_lt m a 2)

/-! ## Runs of halves -/

/-- A byte no half of a run covers. -/
theorem Memory.readByte_writeHalves_outside {a x : Nat} {vs : List Int} (m : Memory)
    (h : ¬ inBuffer a (2 * vs.length) x) : (m.writeHalves a vs).readByte x = m.readByte x := by
  induction vs generalizing m a with
  | nil => rfl
  | cons v vs ih =>
    simp only [List.length_cons, inBuffer] at h
    rw [Memory.writeHalves, ih _ (by unfold inBuffer; omega), Memory.readByte_write_outside _ _ (by unfold inBuffer; omega)]

theorem Memory.read_writeHalves_outside {a b n : Nat} {vs : List Int} (m : Memory)
    (h : b + n ≤ a ∨ a + 2 * vs.length ≤ b) : (m.writeHalves a vs).read b n = m.read b n :=
  Memory.read_congr fun x hx => Memory.readByte_writeHalves_outside _ (by unfold inBuffer at *; omega)

theorem Memory.read_writeHalves {vs : List Int} (m : Memory) (a k : Nat) (h : k < vs.length) :
    (m.writeHalves a vs).read (a + 2 * k) 2 = half vs[k] := by
  induction vs generalizing m a k with
  | nil => simp at h
  | cons v vs ih =>
    cases k with
    | zero =>
      rw [Nat.mul_zero, Nat.add_zero, Memory.writeHalves, Memory.read_writeHalves_outside _ (by omega), Memory.read_write_same]
      simpa using Nat.mod_eq_of_lt (half_lt v)
    | succ k =>
      have h' := ih (m.write a 2 (half v)) (a + 2) k (by simpa using h)
      rw [Memory.writeHalves, show a + 2 * (k + 1) = a + 2 + 2 * k by omega, h']
      simp

@[simp] theorem Memory.writeHalves_epoch (m : Memory) (a : Nat) (vs : List Int) : (m.writeHalves a vs).epoch = m.epoch := by
  induction vs generalizing m a with
  | nil => rfl
  | cons v vs ih => rw [Memory.writeHalves, ih, Memory.write_epoch]

theorem Memory.wf_writeHalves {m : Memory} (h : m.wf) (a : Nat) (vs : List Int) : (m.writeHalves a vs).wf := by
  induction vs generalizing m a with
  | nil => exact h
  | cons v vs ih => exact ih (Memory.wf_write h _ _ _) _

theorem Memory.within_writeHalves {m : Memory} {size a : Nat} {vs : List Int} (h : m.within size)
    (ha : a + 2 * vs.length ≤ size) : (m.writeHalves a vs).within size := by
  induction vs generalizing m a with
  | nil => exact h
  | cons v vs ih =>
    simp only [List.length_cons] at ha
    exact ih (Memory.within_write h (by omega) _) (by omega)

/-! ## Rows of halves -/

theorem Memory.readByte_writeRows_outside {a stride x : Nat} {rows : List (List Int)} (m : Memory)
    (h : ∀ i (hi : i < rows.length), ¬ inBuffer (a + i * stride) (2 * rows[i].length) x) :
    (m.writeRows a stride rows).readByte x = m.readByte x := by
  induction rows generalizing m a with
  | nil => rfl
  | cons row rows ih =>
    have h0 := h 0 (by simp)
    rw [Memory.writeRows, ih, Memory.readByte_writeHalves_outside _ (by simpa using h0)]
    intro i hi
    have := h (i + 1) (by simpa using hi)
    rw [show a + stride + i * stride = a + (i + 1) * stride by rw [Nat.add_mul]; omega]
    simpa using this

/-- Rows whose width fits the stride read back as written. -/
theorem Memory.read_writeRows {a stride : Nat} {rows : List (List Int)} (m : Memory)
    (hw : ∀ row ∈ rows, 2 * row.length ≤ stride) (i j : Nat) (hi : i < rows.length) (hj : j < rows[i].length) :
    (m.writeRows a stride rows).read (a + i * stride + 2 * j) 2 = half (rows[i][j]) := by
  induction rows generalizing m a i with
  | nil => simp at hi
  | cons row rows ih =>
    cases i with
    | zero =>
      have hr := hw row List.mem_cons_self
      have hj' : j < row.length := hj
      rw [Memory.writeRows]
      have : ((m.writeHalves a row).writeRows (a + stride) stride rows).read (a + 0 * stride + 2 * j) 2
          = (m.writeHalves a row).read (a + 2 * j) 2 := by
        rw [Nat.zero_mul, Nat.add_zero]
        refine Memory.read_congr fun x hx => Memory.readByte_writeRows_outside _ fun k hk => ?_
        unfold inBuffer at *
        have : 0 ≤ k * stride := Nat.zero_le _
        omega
      rw [this, Memory.read_writeHalves _ _ _ hj']
      rfl
    | succ i =>
      have hi' : i < rows.length := by simpa using hi
      have h' := ih (m.writeHalves a row) (fun r hr => hw r (List.mem_cons_of_mem _ hr)) i hi' (by simpa using hj)
        (a := a + stride)
      rw [Memory.writeRows, show a + (i + 1) * stride + 2 * j = a + stride + i * stride + 2 * j by rw [Nat.add_mul]; omega, h']
      simp

@[simp] theorem Memory.writeRows_epoch (m : Memory) (a stride : Nat) (rows : List (List Int)) :
    (m.writeRows a stride rows).epoch = m.epoch := by
  induction rows generalizing m a with
  | nil => rfl
  | cons row rows ih => rw [Memory.writeRows, ih, Memory.writeHalves_epoch]

theorem Memory.wf_writeRows {m : Memory} (h : m.wf) (a stride : Nat) (rows : List (List Int)) :
    (m.writeRows a stride rows).wf := by
  induction rows generalizing m a with
  | nil => exact h
  | cons row rows ih => exact ih (Memory.wf_writeHalves h _ _) _

theorem Memory.within_writeRows {m : Memory} {size a stride : Nat} {rows : List (List Int)} (h : m.within size)
    (ha : ∀ i (hi : i < rows.length), a + i * stride + 2 * rows[i].length ≤ size) :
    (m.writeRows a stride rows).within size := by
  induction rows generalizing m a with
  | nil => exact h
  | cons row rows ih =>
    refine ih (Memory.within_writeHalves h (by have := ha 0 (by simp); simp only [List.getElem_cons_zero, Nat.zero_mul, Nat.add_zero] at this; exact this)) fun i hi => ?_
    have := ha (i + 1) (by simpa using hi)
    simp only [List.getElem_cons_succ, Nat.add_mul, Nat.one_mul] at this
    omega

/-! ## Entries -/

theorem Memory.readByte_writeEntries_outside {x : Nat} {es : List (Nat × Nat)} (m : Memory)
    (h : ∀ e ∈ es, ¬ inBuffer e.1 2 x) : (m.writeEntries es).readByte x = m.readByte x := by
  induction es generalizing m with
  | nil => rfl
  | cons e es ih =>
    rw [Memory.writeEntries, ih _ fun f hf => h f (List.mem_cons_of_mem _ hf),
      Memory.readByte_write_outside _ _ (h e List.mem_cons_self)]

/-- Entries at distinct items read back as written. -/
theorem Memory.read_writeEntries {es : List (Nat × Nat)} (m : Memory)
    (hd : es.Pairwise fun e f => e.1 + 2 ≤ f.1 ∨ f.1 + 2 ≤ e.1) {e : Nat × Nat} (he : e ∈ es) :
    (m.writeEntries es).read e.1 2 = e.2 % 65536 := by
  induction es generalizing m with
  | nil => simp at he
  | cons f es ih =>
    obtain ⟨h1, h2⟩ := List.pairwise_cons.mp hd
    rcases List.mem_cons.mp he with rfl | he
    · rw [Memory.writeEntries]
      have : ((m.write e.1 2 e.2).writeEntries es).read e.1 2 = (m.write e.1 2 e.2).read e.1 2 :=
        Memory.read_congr fun x hx => Memory.readByte_writeEntries_outside _ fun g hg => by
          have := h1 g hg
          unfold inBuffer at *
          omega
      rw [this, Memory.read_write_same]; norm_num
    · exact ih _ h2 he

@[simp] theorem Memory.writeEntries_epoch (m : Memory) (es : List (Nat × Nat)) : (m.writeEntries es).epoch = m.epoch := by
  induction es generalizing m with
  | nil => rfl
  | cons e es ih => rw [Memory.writeEntries, ih, Memory.write_epoch]

theorem Memory.wf_writeEntries {m : Memory} (h : m.wf) (es : List (Nat × Nat)) : (m.writeEntries es).wf := by
  induction es generalizing m with
  | nil => exact h
  | cons e es ih => exact ih (Memory.wf_write h _ _ _)

theorem Memory.within_writeEntries {m : Memory} {size : Nat} {es : List (Nat × Nat)} (h : m.within size)
    (he : ∀ e ∈ es, e.1 + 2 ≤ size) : (m.writeEntries es).within size := by
  induction es generalizing m with
  | nil => exact h
  | cons e es ih =>
    exact ih (Memory.within_write h (he e List.mem_cons_self) _) fun f hf => he f (List.mem_cons_of_mem _ hf)

/-- The memory at reset is canonical. -/
theorem reset_memory_wf : State.reset.memory.wf := by
  simp [State.reset, Memory.wf, rising]

end Sys2Proof.Machine
end

