-- ==== Sys2Proof/Laws/Filter.lean ====
section
/-! SUPPORT. What the edge filter changes: memory only, and of it only the samples nearest the filterable segments
(R234, R243, R244, R264), each of which reads as its new value afterwards, a legal sample (R66, R245). -/

namespace Sys2Proof.Machine

@[simp] theorem State.setMemory_setMemory (s : State) (m m' : Memory) : (s.setMemory m).setMemory m' = s.setMemory m' := rfl

@[simp] theorem State.setMemory_self (s : State) : s.setMemory s.memory = s := rfl

/-- Changing memory only, twice. -/
theorem memoryOnly_trans {s t u : State} (h1 : t = s.setMemory t.memory) (h2 : u = t.setMemory u.memory) :
    u = s.setMemory u.memory := by
  rw [h1] at h2
  exact h2

section
variable (s : State) (m : Memory) (c : Plane) (dir : Dir) (cx cy x y lines n a : Nat) (u : Nat × Nat) (e : LfpEntry)

@[simp] theorem State.setMemory_chromaLines : (s.setMemory m).chromaLines dir c = s.chromaLines dir c := rfl
@[simp] theorem State.setMemory_chromaApplies :
    (s.setMemory m).chromaApplies dir x y e c = s.chromaApplies dir x y e c := rfl
@[simp] theorem State.setMemory_segmentStores :
    (s.setMemory m).segmentStores c dir x y lines n a = s.segmentStores c dir x y lines n a := rfl
@[simp] theorem State.setMemory_unitStores :
    (s.setMemory m).unitStores dir cx cy u e a = s.unitStores dir cx cy u e a := rfl
@[simp] theorem State.setMemory_badEntry :
    (s.setMemory m).badEntry dir x y e = s.badEntry dir x y e := rfl

end

/-! ## How many samples a line changes -/

theorem weakSide_length (bd : Nat) (tc delta : Int) (b : Bool) (x : List Int) : (weakSide bd tc delta b x).length ≤ 3 := by
  unfold weakSide
  split <;> simp

theorem filterLine_length (cfg : Config) (bd : Nat) (tc : Int) (lenP lenQ : Nat) (choice : LumaChoice) (l : Line) :
    (filterLine cfg bd tc lenP lenQ choice l).p.length ≤ 3 ∧ (filterLine cfg bd tc lenP lenQ choice l).q.length ≤ 3 := by
  cases choice with
  | off => simp [filterLine]
  | strong => simp [filterLine, strongFilter, strongSide]
  | weak a b =>
    simp only [filterLine, weakFilter]
    split
    · exact ⟨weakSide_length .., weakSide_length ..⟩
    · simp

theorem lineAt_mem {ls : List Line} {i : Nat} (h : i < ls.length) : lineAt ls i ∈ ls := by
  unfold lineAt
  rw [List.getD_eq_getElem _ _ h]
  exact List.getElem_mem h

theorem State.lumaLines_length (s : State) (dir : Dir) (gx gy : Nat) (e : LfpEntry) :
    (s.lumaLines dir gx gy e).length = 4 := by
  simp [State.lumaLines, State.snapshot]

theorem State.lumaLines_short {s : State} {dir : Dir} {gx gy : Nat} {e : LfpEntry} {l : Line}
    (h : l ∈ s.lumaLines dir gx gy e) : l.p.length ≤ 3 ∧ l.q.length ≤ 3 := by
  simp only [State.lumaLines, List.mem_map] at h
  obtain ⟨l0, _, rfl⟩ := h
  exact filterLine_length ..

theorem State.chromaNew_length (s : State) (dir : Dir) (gx gy : Nat) (e : LfpEntry) (c : Plane) :
    (s.chromaNew dir gx gy e c).length = s.chromaLines dir c := by
  simp [State.chromaNew]

theorem State.chromaNew_short {s : State} {dir : Dir} {gx gy : Nat} {e : LfpEntry} {c : Plane} {l : Line}
    (h : l ∈ s.chromaNew dir gx gy e c) : l.p.length ≤ 1 ∧ l.q.length ≤ 1 := by
  simp only [State.chromaNew, List.mem_map] at h
  obtain ⟨j, _, rfl⟩ := h
  simp [chromaFilter]

/-! ## Where the writes of a segment go -/

theorem State.sideWrites_addr {s : State} {c : Plane} {pos : Nat → Nat × Nat} {vs : List Int} {w : Nat × Nat}
    (h : w ∈ s.sideWrites c pos vs) : ∃ k < vs.length, w = (s.pixAddr c (pos k).1 (pos k).2, half (vs.getD k 0)) := by
  simp only [State.sideWrites, List.mem_map, List.mem_range] at h
  obtain ⟨k, hk, rfl⟩ := h
  exact ⟨k, hk, rfl⟩

theorem State.segmentWrites_stores {s : State} {c : Plane} {dir : Dir} {x y n a : Nat} {ls : List Line}
    (hs : ∀ l ∈ ls, l.p.length ≤ n ∧ l.q.length ≤ n) {w : Nat × Nat} (h : w ∈ s.segmentWrites c dir x y ls)
    (ha : inBuffer w.1 2 a) : s.segmentStores c dir x y ls.length n a := by
  simp only [State.segmentWrites, List.mem_flatMap, List.mem_range, State.lineWrites, List.mem_append] at h
  obtain ⟨i, hi, h | h⟩ := h
  · obtain ⟨k, hk, rfl⟩ := State.sideWrites_addr h
    exact ⟨i, hi, k, Nat.lt_of_lt_of_le hk (hs _ (lineAt_mem hi)).1, .inl ha⟩
  · obtain ⟨k, hk, rfl⟩ := State.sideWrites_addr h
    exact ⟨i, hi, k, Nat.lt_of_lt_of_le hk (hs _ (lineAt_mem hi)).2, .inr ha⟩

/-- The bytes a segment leaves alone. -/
theorem writeLines_outside {s : State} {c : Plane} {dir : Dir} {x y n lines a : Nat} {ls : List Line}
    (hl : ls.length = lines) (hs : ∀ l ∈ ls, l.p.length ≤ n ∧ l.q.length ≤ n)
    (h : ¬s.segmentStores c dir x y lines n a) :
    (writeLines c dir x y ls s).memory.readByte a = s.memory.readByte a :=
  Memory.readByte_writeEntries_outside _ fun _ hw ha => h (hl ▸ State.segmentWrites_stores hs hw ha)

theorem writeLines_eq (c : Plane) (dir : Dir) (x y : Nat) (ls : List Line) (s : State) :
    writeLines c dir x y ls s = s.setMemory (writeLines c dir x y ls s).memory := rfl

theorem filterLumaSegment_eq (dir : Dir) (gx gy : Nat) (e : LfpEntry) (s : State) :
    filterLumaSegment dir gx gy e s = s.setMemory (filterLumaSegment dir gx gy e s).memory := rfl

theorem filterChromaSegment_eq (dir : Dir) (gx gy : Nat) (e : LfpEntry) (c : Plane) (s : State) :
    filterChromaSegment dir gx gy e c s = s.setMemory (filterChromaSegment dir gx gy e c s).memory := by
  unfold filterChromaSegment
  split <;> rfl

theorem filterPlanes_eq (dir : Dir) (gx gy : Nat) (e : LfpEntry) (s : State) :
    filterPlanes dir gx gy e s = s.setMemory (filterPlanes dir gx gy e s).memory := by
  unfold filterPlanes
  simp only
  split
  · exact filterLumaSegment_eq ..
  · exact memoryOnly_trans (memoryOnly_trans (filterLumaSegment_eq dir gx gy e s) (filterChromaSegment_eq dir gx gy e .cb _))
      (filterChromaSegment_eq dir gx gy e .cr _)

/-- Filtering a unit changes memory only. -/
theorem filterUnit_eq (dir : Dir) (cx cy : Nat) (s : State) (u : Nat × Nat) :
    filterUnit dir cx cy s u = s.setMemory (filterUnit dir cx cy s u).memory := by
  unfold filterUnit
  simp only
  split
  · exact filterPlanes_eq ..
  · rfl

theorem filterUnits_eq (dir : Dir) (cx cy : Nat) (us : List (Nat × Nat)) (s : State) :
    us.foldl (filterUnit dir cx cy) s = s.setMemory (us.foldl (filterUnit dir cx cy) s).memory := by
  induction us generalizing s with
  | nil => rfl
  | cons u us ih => rw [List.foldl_cons, ih, filterUnit_eq]; rfl

/-- Filtering a CTU changes memory only (R244). -/
theorem filterCtu_eq (dir : Dir) (cx cy : Nat) (s : State) :
    filterCtu dir cx cy s = s.setMemory (filterCtu dir cx cy s).memory := filterUnits_eq ..

/-! ## The bytes a unit leaves alone -/

theorem filterChromaSegment_outside {dir : Dir} {gx gy a : Nat} {e : LfpEntry} {c : Plane} {s : State}
    (h : s.chromaApplies dir (4 * gx) (4 * gy) e c = true →
      ¬s.segmentStores c dir (4 * gx / 2 ^ s.shiftX c) (4 * gy / 2 ^ s.shiftY c) (s.chromaLines dir c) 1 a) :
    (filterChromaSegment dir gx gy e c s).memory.readByte a = s.memory.readByte a := by
  unfold filterChromaSegment
  split
  · next hc => exact writeLines_outside (s.chromaNew_length ..) (fun _ => State.chromaNew_short) (h hc)
  · rfl

theorem filterLumaSegment_outside {dir : Dir} {gx gy a : Nat} {e : LfpEntry} {s : State}
    (h : ¬s.segmentStores .y dir (4 * gx) (4 * gy) 4 3 a) :
    (filterLumaSegment dir gx gy e s).memory.readByte a = s.memory.readByte a :=
  writeLines_outside (s.lumaLines_length ..) (fun _ => State.lumaLines_short) h

/-- A byte that a unit's filterable segments do not reach is left alone. -/
theorem filterUnit_outside {dir : Dir} {cx cy a : Nat} {s : State} {u : Nat × Nat}
    (h : ¬s.unitStores dir cx cy u (s.lfpEntry cx cy dir u.1 u.2) a) :
    (filterUnit dir cx cy s u).memory.readByte a = s.memory.readByte a := by
  unfold filterUnit
  simp only
  split
  · next hf =>
    have h1 : ¬s.segmentStores .y dir (4 * (cx * s.units + u.1)) (4 * (cy * s.units + u.2)) 4 3 a :=
      fun hs => h ⟨hf, .inl hs⟩
    unfold filterPlanes
    simp only
    split
    · exact filterLumaSegment_outside h1
    · next hc =>
      have e1 := filterLumaSegment_eq dir (cx * s.units + u.1) (cy * s.units + u.2) (s.lfpEntry cx cy dir u.1 u.2) s
      rw [← filterLumaSegment_outside (e := s.lfpEntry cx cy dir u.1 u.2) h1]
      generalize filterLumaSegment dir (cx * s.units + u.1) (cy * s.units + u.2) (s.lfpEntry cx cy dir u.1 u.2) s = t at *
      have e2 := memoryOnly_trans e1 (filterChromaSegment_eq dir (cx * s.units + u.1) (cy * s.units + u.2)
        (s.lfpEntry cx cy dir u.1 u.2) .cb t)
      have h2 := filterChromaSegment_outside (dir := dir) (gx := cx * s.units + u.1) (gy := cy * s.units + u.2) (a := a)
        (e := s.lfpEntry cx cy dir u.1 u.2) (c := .cb) (s := t) (by
          rw [e1]
          simp only [State.setMemory_chromaApplies, State.setMemory_segmentStores, State.setMemory_chromaLines,
            State.setMemory_shiftX, State.setMemory_shiftY]
          exact fun ha hs => h ⟨hf, .inr ⟨.cb, by simp, hc, ha, hs⟩⟩)
      rw [← h2]
      generalize filterChromaSegment dir (cx * s.units + u.1) (cy * s.units + u.2) (s.lfpEntry cx cy dir u.1 u.2) .cb t = v at *
      refine filterChromaSegment_outside ?_
      rw [e2]
      simp only [State.setMemory_chromaApplies, State.setMemory_segmentStores, State.setMemory_chromaLines,
        State.setMemory_shiftX, State.setMemory_shiftY]
      exact fun ha hs => h ⟨hf, .inr ⟨.cr, by simp, hc, ha, hs⟩⟩
  · rfl

/-! ## The samples of a unit lie in the planes -/

theorem State.shiftX_cases (s : State) (c : Plane) : s.shiftX c = 0 ∨ s.shiftX c = 1 := by
  unfold State.shiftX subX
  split
  · exact .inl rfl
  · split <;> simp

theorem State.shiftY_cases (s : State) (c : Plane) : s.shiftY c = 0 ∨ s.shiftY c = 1 := by
  unfold State.shiftY subY
  split
  · exact .inl rfl
  · split <;> simp

theorem depthOf_ge (n : Nat) : 4 ≤ depthOf n := by
  unfold depthOf
  split <;> omega

/-- The first `n <= 4 >> shift` samples on each side of a segment with 4 samples of room lie in the plane. -/
theorem State.segmentStores_inPlane {s : State} {c : Plane} {dir : Dir} {gx gy lines n a : Nat} {e : LfpEntry}
    (hx : gx < s.picW / 4) (hy : gy < s.picH / 4) (hw : s.windowOutside dir gx gy e = false)
    (hn : (c = .y ∧ n = 3 ∧ lines = 4) ∨ (n = 1 ∧ lines = s.chromaLines dir c))
    (h : s.segmentStores c dir (4 * gx / 2 ^ s.shiftX c) (4 * gy / 2 ^ s.shiftY c) lines n a) :
    ∃ x < s.planeW c, ∃ y < s.planeH c, inBuffer (s.pixAddr c x y) 2 a := by
  have hsx := s.shiftX_cases c
  have hsy := s.shiftY_cases c
  have hy0 : c = .y → s.shiftX c = 0 ∧ s.shiftY c = 0 := by rintro rfl; simp [State.shiftX, State.shiftY]
  obtain ⟨i, hi, k, hk, h⟩ := h
  have hP := depthOf_ge e.lenP
  have hQ := depthOf_ge e.lenQ
  unfold State.planeW State.planeH
  generalize hP' : depthOf e.lenP = dP at *
  generalize hQ' : depthOf e.lenQ = dQ at *
  cases dir with
  | ver =>
    simp only [State.windowOutside, Bool.or_eq_false_iff, decide_eq_false_iff_not, hP', hQ'] at hw
    have hl : i < 4 / 2 ^ s.shiftY c := by
      rcases hn with ⟨hc, _, rfl⟩ | ⟨_, rfl⟩
      · rw [(hy0 hc).2]; simpa using hi
      · exact hi
    have hk2 : k < 4 / 2 ^ s.shiftX c := by
      rcases hn with ⟨hc, rfl, _⟩ | ⟨rfl, _⟩
      · rw [(hy0 hc).1]; omega
      · rcases hsx with h0 | h0 <;> rw [h0] <;> omega
    clear hn hi hk hy0
    rcases h with h | h
    · refine ⟨_, ?_, _, ?_, h⟩ <;> simp only [pPos, linePos]
      · rcases hsx with h0 | h0 <;> rw [h0] at hk2 ⊢ <;> omega
      · rcases hsy with h0 | h0 <;> rw [h0] at hl ⊢ <;> omega
    · refine ⟨_, ?_, _, ?_, h⟩ <;> simp only [qPos, linePos]
      · rcases hsx with h0 | h0 <;> rw [h0] at hk2 ⊢ <;> omega
      · rcases hsy with h0 | h0 <;> rw [h0] at hl ⊢ <;> omega
  | hor =>
    simp only [State.windowOutside, Bool.or_eq_false_iff, decide_eq_false_iff_not, hP', hQ'] at hw
    have hl : i < 4 / 2 ^ s.shiftX c := by
      rcases hn with ⟨hc, _, rfl⟩ | ⟨_, rfl⟩
      · rw [(hy0 hc).1]; simpa using hi
      · exact hi
    have hk2 : k < 4 / 2 ^ s.shiftY c := by
      rcases hn with ⟨hc, rfl, _⟩ | ⟨rfl, _⟩
      · rw [(hy0 hc).2]; omega
      · rcases hsy with h0 | h0 <;> rw [h0] <;> omega
    clear hn hi hk hy0
    rcases h with h | h
    · refine ⟨_, ?_, _, ?_, h⟩ <;> simp only [pPos, linePos]
      · rcases hsx with h0 | h0 <;> rw [h0] at hl ⊢ <;> omega
      · rcases hsy with h0 | h0 <;> rw [h0] at hk2 ⊢ <;> omega
    · refine ⟨_, ?_, _, ?_, h⟩ <;> simp only [qPos, linePos]
      · rcases hsx with h0 | h0 <;> rw [h0] at hl ⊢ <;> omega
      · rcases hsy with h0 | h0 <;> rw [h0] at hk2 ⊢ <;> omega

/-- What filtering a unit by a well-formed entry stores to lies in the region of a plane in use. -/
theorem State.unitStores_inRegion {s : State} {dir : Dir} {cx cy a : Nat} {u : Nat × Nat} {e : LfpEntry}
    (hu : u ∈ s.insideUnits cx cy) (hb : s.badEntry dir (cx * s.units + u.1) (cy * s.units + u.2) e = false)
    (h : s.unitStores dir cx cy u e a) :
    ∃ c ∈ s.planesInUse, (s.planeRegion c).base ≤ a ∧ a < (s.planeRegion c).stop := by
  obtain ⟨_, hx, hy⟩ := State.mem_insideUnits.mp hu
  obtain ⟨hf, h⟩ := h
  have hw : s.windowOutside dir (cx * s.units + u.1) (cy * s.units + u.2) e = false := by
    simp only [State.badEntry, hf, Bool.true_and, Bool.or_eq_false_iff] at hb
    exact hb.2
  have close : ∀ {c : Plane}, c ∈ s.planesInUse → (∃ x < s.planeW c, ∃ y < s.planeH c, inBuffer (s.pixAddr c x y) 2 a) →
      ∃ c ∈ s.planesInUse, (s.planeRegion c).base ≤ a ∧ a < (s.planeRegion c).stop := by
    rintro c hc ⟨x, hx, y, hy, ha⟩
    have := State.pixAddr_inRegion hx hy
    exact ⟨c, hc, by unfold inBuffer at ha; omega, by unfold inBuffer at ha; omega⟩
  rcases h with h | ⟨c, hc, hcf, _, h⟩
  · refine close s.luma_inUse (State.segmentStores_inPlane (c := .y) hx hy hw (.inl ⟨rfl, rfl, rfl⟩) ?_)
    simpa [State.shiftX, State.shiftY] using h
  · exact close (State.chroma_inUse c hcf) (State.segmentStores_inPlane hx hy hw (.inr ⟨rfl, rfl⟩) h)

/-! ## Canonical form and bound -/

theorem writeLines_wf {s : State} (h : s.memory.wf) (c : Plane) (dir : Dir) (x y : Nat) (ls : List Line) :
    (writeLines c dir x y ls s).memory.wf := Memory.wf_writeEntries h _

theorem filterChromaSegment_wf {s : State} (h : s.memory.wf) (dir : Dir) (gx gy : Nat) (e : LfpEntry) (c : Plane) :
    (filterChromaSegment dir gx gy e c s).memory.wf := by
  unfold filterChromaSegment
  split
  · exact writeLines_wf h ..
  · exact h

theorem filterUnit_wf {s : State} (h : s.memory.wf) (dir : Dir) (cx cy : Nat) (u : Nat × Nat) :
    (filterUnit dir cx cy s u).memory.wf := by
  unfold filterUnit filterPlanes
  simp only
  split
  · split
    · exact writeLines_wf h ..
    · exact filterChromaSegment_wf (filterChromaSegment_wf (writeLines_wf h ..) ..) ..
  · exact h

theorem filterUnits_wf {s : State} (h : s.memory.wf) (dir : Dir) (cx cy : Nat) (us : List (Nat × Nat)) :
    (us.foldl (filterUnit dir cx cy) s).memory.wf := by
  induction us generalizing s with
  | nil => exact h
  | cons u us ih => exact ih (filterUnit_wf h dir cx cy u)

/-- Filtering keeps the canonical form. -/
theorem filterCtu_wf {s : State} (h : s.memory.wf) (dir : Dir) (cx cy : Nat) : (filterCtu dir cx cy s).memory.wf :=
  filterUnits_wf h ..

theorem writeLines_within {s : State} {size : Nat} {c : Plane} {dir : Dir} {x y n lines : Nat} {ls : List Line}
    (hm : s.memory.within size) (hl : ls.length = lines) (hs : ∀ l ∈ ls, l.p.length ≤ n ∧ l.q.length ≤ n)
    (h : ∀ a, s.segmentStores c dir x y lines n a → a < size) : (writeLines c dir x y ls s).memory.within size := by
  refine Memory.within_writeEntries hm fun w hw => ?_
  have := h (w.1 + 1) (hl ▸ State.segmentWrites_stores hs hw (by unfold inBuffer; omega))
  omega

/-- Filtering a unit writes below a bound on the samples it may store to. -/
theorem filterUnit_within {s : State} {size : Nat} {dir : Dir} {cx cy : Nat} {u : Nat × Nat} (hm : s.memory.within size)
    (h : ∀ a, s.unitStores dir cx cy u (s.lfpEntry cx cy dir u.1 u.2) a → a < size) :
    (filterUnit dir cx cy s u).memory.within size := by
  unfold filterUnit
  simp only
  split
  · next hf =>
    have chroma : ∀ (t : State) (c : Plane), t = s.setMemory t.memory → t.memory.within size → c ≠ .y → s.chroma ≠ 0 →
        (filterChromaSegment dir (cx * s.units + u.1) (cy * s.units + u.2) (s.lfpEntry cx cy dir u.1 u.2) c t).memory.within size := by
      intro t c ht htm hc hcf
      unfold filterChromaSegment
      split
      · next ha =>
        refine writeLines_within htm (t.chromaNew_length ..) (fun _ => State.chromaNew_short) fun a hs => ?_
        rw [ht] at ha hs
        exact h a ⟨hf, .inr ⟨c, hc, hcf, ha, hs⟩⟩
      · exact htm
    have h1 : (filterLumaSegment dir (cx * s.units + u.1) (cy * s.units + u.2) (s.lfpEntry cx cy dir u.1 u.2) s).memory.within size :=
      writeLines_within hm (s.lumaLines_length ..) (fun _ => State.lumaLines_short) fun a hs => h a ⟨hf, .inl hs⟩
    have e1 := filterLumaSegment_eq dir (cx * s.units + u.1) (cy * s.units + u.2) (s.lfpEntry cx cy dir u.1 u.2) s
    unfold filterPlanes
    simp only
    split
    · exact h1
    · next hc =>
      exact chroma _ .cr (memoryOnly_trans e1 (filterChromaSegment_eq ..)) (chroma _ .cb e1 h1 (by simp) hc) (by simp) hc
  · exact hm

/-! ## The traversal -/

theorem State.lfpEntry_congr {s t : State} {cx cy : Nat} {dir : Dir} {u : Nat × Nat} (ht : t = s.setMemory t.memory)
    (h : ∀ a, inBuffer (s.lfpAddr cx cy dir u.1 u.2) 2 a → t.memory.readByte a = s.memory.readByte a) :
    t.lfpEntry cx cy dir u.1 u.2 = s.lfpEntry cx cy dir u.1 u.2 := by
  have ha : t.lfpAddr cx cy dir u.1 u.2 = s.lfpAddr cx cy dir u.1 u.2 := by rw [ht]; rfl
  unfold State.lfpEntry
  rw [ha, Memory.read_congr h]

/-- Where the samples of the units lie apart from their entries, the traversal reads the entries it found, and stores to
no byte but the samples of the filterable segments (R81, R233). -/
theorem filterUnits_outside {dir : Dir} {cx cy : Nat} {all : List (Nat × Nat)} {s0 : State}
    (apart : ∀ u ∈ all, ∀ a, s0.unitStores dir cx cy u (s0.lfpEntry cx cy dir u.1 u.2) a →
      ∀ v ∈ all, ¬inBuffer (s0.lfpAddr cx cy dir v.1 v.2) 2 a)
    (us : List (Nat × Nat)) (hsub : ∀ u ∈ us, u ∈ all) (s : State) (hs : s = s0.setMemory s.memory)
    (hent : ∀ v ∈ all, s.lfpEntry cx cy dir v.1 v.2 = s0.lfpEntry cx cy dir v.1 v.2) :
    (∀ v ∈ all, (us.foldl (filterUnit dir cx cy) s).lfpEntry cx cy dir v.1 v.2 = s0.lfpEntry cx cy dir v.1 v.2)
      ∧ (∀ a, (∀ u ∈ us, ¬s0.unitStores dir cx cy u (s0.lfpEntry cx cy dir u.1 u.2) a) →
        (us.foldl (filterUnit dir cx cy) s).memory.readByte a = s.memory.readByte a)
      ∧ ∀ size, s.memory.within size →
        (∀ u ∈ us, ∀ a, s0.unitStores dir cx cy u (s0.lfpEntry cx cy dir u.1 u.2) a → a < size) →
        (us.foldl (filterUnit dir cx cy) s).memory.within size := by
  induction us generalizing s with
  | nil => exact ⟨hent, fun _ _ => rfl, fun _ h _ => h⟩
  | cons u us ih =>
    have hu := hsub u List.mem_cons_self
    have huent := hent u hu
    have hst : ∀ a, s.unitStores dir cx cy u (s.lfpEntry cx cy dir u.1 u.2) a ↔
        s0.unitStores dir cx cy u (s0.lfpEntry cx cy dir u.1 u.2) a := fun a => by rw [huent, hs, State.setMemory_unitStores]
    have hout : ∀ a, ¬s0.unitStores dir cx cy u (s0.lfpEntry cx cy dir u.1 u.2) a →
        (filterUnit dir cx cy s u).memory.readByte a = s.memory.readByte a := fun a ha =>
      filterUnit_outside fun h => ha ((hst a).mp h)
    have heq := filterUnit_eq dir cx cy s u
    have hnext := memoryOnly_trans hs heq
    have hent' : ∀ v ∈ all, (filterUnit dir cx cy s u).lfpEntry cx cy dir v.1 v.2 = s0.lfpEntry cx cy dir v.1 v.2 := by
      intro v hv
      rw [← hent v hv]
      refine State.lfpEntry_congr heq fun a ha => hout a fun hst => apart u hu a hst v hv ?_
      rw [hs] at ha
      exact ha
    obtain ⟨h1, h2, h3⟩ := ih (fun v hv => hsub v (List.mem_cons_of_mem _ hv)) _ hnext hent'
    refine ⟨h1, fun a ha => ?_, fun size hm hb => ?_⟩
    · rw [List.foldl_cons, h2 a fun v hv => ha v (List.mem_cons_of_mem _ hv)]
      exact hout a (ha u List.mem_cons_self)
    · exact h3 size (filterUnit_within hm fun a h => hb u List.mem_cons_self a ((hst a).mp h))
        fun v hv => hb v (List.mem_cons_of_mem _ hv)

/-- In a picture whose geometry fits, filtering a CTU whose entries are well formed changes no `LFP` entry of the CTU, no
byte but the samples of its filterable segments, and none outside the planes (R62, R81, R244). -/
theorem filterCtu_outside {dir : Dir} {cx cy : Nat} {s : State} (hg : s.GeometryFits) (hx : cx < s.ctusW) (hy : cy < s.ctusH)
    (hb : ∀ u ∈ s.insideUnits cx cy,
      s.badEntry dir (cx * s.units + u.1) (cy * s.units + u.2) (s.lfpEntry cx cy dir u.1 u.2) = false) :
    (∀ a, ¬s.filterStores dir cx cy a → (filterCtu dir cx cy s).memory.readByte a = s.memory.readByte a)
      ∧ (∀ a, s.filterStores dir cx cy a →
        ∃ c ∈ s.planesInUse, (s.planeRegion c).base ≤ a ∧ a < (s.planeRegion c).stop)
      ∧ (s.memory.within s.config.bmemSize → (filterCtu dir cx cy s).memory.within s.config.bmemSize) := by
  have region : ∀ u ∈ s.insideUnits cx cy, ∀ a, s.unitStores dir cx cy u (s.lfpEntry cx cy dir u.1 u.2) a →
      ∃ c ∈ s.planesInUse, (s.planeRegion c).base ≤ a ∧ a < (s.planeRegion c).stop :=
    fun u hu a h => State.unitStores_inRegion hu (hb u hu) h
  obtain ⟨_, h2, h3⟩ := filterUnits_outside (dir := dir) (cx := cx) (cy := cy) (all := s.insideUnits cx cy) (s0 := s)
    (fun u hu a h v hv ha => by
      obtain ⟨c, hc, h1, h2⟩ := region u hu a h
      obtain ⟨⟨hv1, hv2⟩, _⟩ := State.mem_insideUnits.mp hv
      have h3 := State.lfpAddr_inRegion dir hx hy hv1 hv2
      have h4 := (hg.apart.1 c hc).2
      unfold inBuffer at ha
      omega)
    (s.insideUnits cx cy) (fun _ h => h) s rfl fun _ _ => rfl
  refine ⟨fun a ha => h2 a fun u hu h => ha ⟨u, hu, h⟩, fun a ⟨u, hu, h⟩ => region u hu a h, fun hm => h3 _ hm fun u hu a h => ?_⟩
  obtain ⟨c, hc, _, h5⟩ := region u hu a h
  have := hg.inside _ (State.mem_regions_plane hc)
  omega

/-! ## The samples a segment writes -/

/-- A row of a plane fits its stride, so different samples of the plane are at different items (R66, R273 b). -/
theorem State.pixAddr_apart {s : State} {c : Plane} (hs : 2 * s.planeW c ≤ s.planeStride c) {x y x' y' : Nat}
    (hx : x < s.planeW c) (hx' : x' < s.planeW c) (h : x ≠ x' ∨ y ≠ y') :
    s.pixAddr c x y + 2 ≤ s.pixAddr c x' y' ∨ s.pixAddr c x' y' + 2 ≤ s.pixAddr c x y := by
  unfold State.pixAddr
  rcases Nat.lt_trichotomy y y' with hy | rfl | hy
  · have := Nat.mul_le_mul_right (s.planeStride c) hy
    rw [Nat.succ_mul] at this
    omega
  · omega
  · have := Nat.mul_le_mul_right (s.planeStride c) hy
    rw [Nat.succ_mul] at this
    omega

/-- The new samples of a side are at different items when its positions are. -/
theorem State.sideWrites_apart {s : State} {c : Plane} {pos : Nat → Nat × Nat} {vs : List Int}
    (hs : 2 * s.planeW c ≤ s.planeStride c) (hx : ∀ k < vs.length, (pos k).1 < s.planeW c)
    (h : ∀ j k, j < k → k < vs.length → pos j ≠ pos k) :
    (s.sideWrites c pos vs).Pairwise fun e f => e.1 + 2 ≤ f.1 ∨ f.1 + 2 ≤ e.1 := by
  unfold State.sideWrites
  rw [List.pairwise_map, List.pairwise_iff_getElem]
  intro j k hj hk hjk
  simp only [List.length_range] at hj hk
  simp only [List.getElem_range]
  refine State.pixAddr_apart hs (hx j hj) (hx k hk) ?_
  by_contra hn
  exact h j k hjk hk (Prod.ext (by tauto) (by tauto))

/-- The room a segment needs: `n` samples a side, and as many lines as it has. -/
def State.roomFor (s : State) (c : Plane) (dir : Dir) (x y lines n : Nat) : Prop :=
  match dir with
  | .ver => n ≤ x ∧ x + n ≤ s.planeW c
  | .hor => n ≤ y ∧ x + lines ≤ s.planeW c

/-- The new samples of a segment are at different items. -/
theorem State.segmentWrites_apart {s : State} {c : Plane} {dir : Dir} {x y n : Nat} {ls : List Line}
    (hs : 2 * s.planeW c ≤ s.planeStride c) (hn : ∀ l ∈ ls, l.p.length ≤ n ∧ l.q.length ≤ n)
    (hr : s.roomFor c dir x y ls.length n) :
    (s.segmentWrites c dir x y ls).Pairwise fun e f => e.1 + 2 ≤ f.1 ∨ f.1 + 2 ≤ e.1 := by
  unfold State.segmentWrites
  rw [List.pairwise_flatMap]
  constructor
  · intro i hi
    have hi := List.mem_range.mp hi
    have hl := hn _ (lineAt_mem hi)
    unfold State.lineWrites
    rw [List.pairwise_append]
    refine ⟨State.sideWrites_apart hs ?_ ?_, State.sideWrites_apart hs ?_ ?_, ?_⟩
    all_goals first
      | (intro k hk; cases dir <;> simp only [State.roomFor, pPos, qPos, linePos] at hr ⊢ <;> omega)
      | (intro j k hjk hk; cases dir <;> simp only [State.roomFor, pPos, qPos, linePos, ne_eq, Prod.mk.injEq] at hr ⊢ <;> omega)
      | skip
    intro e he f hf
    obtain ⟨j, hj, rfl⟩ := State.sideWrites_addr he
    obtain ⟨k, hk, rfl⟩ := State.sideWrites_addr hf
    refine State.pixAddr_apart hs ?_ ?_ ?_ <;> cases dir <;> simp only [State.roomFor, pPos, qPos, linePos] at hr ⊢ <;> omega
  · rw [List.pairwise_iff_getElem]
    intro i i' hi hi' hii e he f hf
    simp only [List.length_range, List.getElem_range] at hi hi' he hf
    have hl := hn _ (lineAt_mem hi)
    have hl' := hn _ (lineAt_mem hi')
    simp only [State.lineWrites, List.mem_append] at he hf
    rcases he with he | he <;> rcases hf with hf | hf <;>
      obtain ⟨j, hj, rfl⟩ := State.sideWrites_addr he <;>
      obtain ⟨k, hk, rfl⟩ := State.sideWrites_addr hf <;>
      refine State.pixAddr_apart hs ?_ ?_ ?_ <;> cases dir <;> simp only [State.roomFor, pPos, qPos, linePos] at hr ⊢ <;> omega

/-- What `writeLines` does to the samples it writes: each reads as its new value afterwards (R243, R264). -/
theorem writeLines_pix {s : State} {c : Plane} {dir : Dir} {x y n : Nat} {ls : List Line}
    (hs : 2 * s.planeW c ≤ s.planeStride c) (hn : ∀ l ∈ ls, l.p.length ≤ n ∧ l.q.length ≤ n)
    (hr : s.roomFor c dir x y ls.length n) {i k : Nat} (hi : i < ls.length) :
    (k < (lineAt ls i).p.length →
        (writeLines c dir x y ls s).pix c (pPos dir (linePos dir x y i).1 (linePos dir x y i).2 k).1
          (pPos dir (linePos dir x y i).1 (linePos dir x y i).2 k).2 = half ((lineAt ls i).p.getD k 0))
      ∧ (k < (lineAt ls i).q.length →
        (writeLines c dir x y ls s).pix c (qPos dir (linePos dir x y i).1 (linePos dir x y i).2 k).1
          (qPos dir (linePos dir x y i).1 (linePos dir x y i).2 k).2 = half ((lineAt ls i).q.getD k 0)) := by
  have key : ∀ w ∈ s.segmentWrites c dir x y ls, (writeLines c dir x y ls s).memory.read w.1 2 = w.2 % 65536 :=
    fun w hw => Memory.read_writeEntries _ (State.segmentWrites_apart hs hn hr) hw
  have mem : ∀ w ∈ s.lineWrites c dir (linePos dir x y i) (lineAt ls i), w ∈ s.segmentWrites c dir x y ls := fun w hw =>
    List.mem_flatMap.mpr ⟨i, List.mem_range.mpr hi, hw⟩
  constructor <;> intro hk
  · have := key _ (mem _ (List.mem_append.mpr (.inl (List.mem_map.mpr ⟨k, List.mem_range.mpr hk, rfl⟩))))
    rw [Nat.mod_eq_of_lt (half_lt _)] at this
    exact congrArg Nat.cast this
  · have := key _ (mem _ (List.mem_append.mpr (.inr (List.mem_map.mpr ⟨k, List.mem_range.mpr hk, rfl⟩))))
    rw [Nat.mod_eq_of_lt (half_lt _)] at this
    exact congrArg Nat.cast this

/-! ## The range of the new samples -/

theorem clipPix_range (bd : Nat) (v : Int) : 0 ≤ clipPix bd v ∧ clipPix bd v ≤ 2 ^ bd - 1 := by
  have : (1 : Int) ≤ 2 ^ bd := one_le_pow₀ (by norm_num)
  simp only [clipPix, clip3, Nat.cast_pow, Nat.cast_ofNat]
  split
  · omega
  · split <;> omega

/-- Every new luma sample is a legal one, whatever the samples of the line (R66, R245 c). -/
theorem filterLine_range {cfg : Config} {bd : Nat} {tc : Int} {lenP lenQ : Nat} {choice : LumaChoice} {l : Line} {v : Int}
    (h : v ∈ (filterLine cfg bd tc lenP lenQ choice l).p ++ (filterLine cfg bd tc lenP lenQ choice l).q) :
    0 ≤ v ∧ v ≤ 2 ^ bd - 1 := by
  have side : ∀ {t d : Int} {b : Bool} {x : List Int}, v ∈ weakSide bd t d b x → 0 ≤ v ∧ v ≤ 2 ^ bd - 1 := by
    intro t d b x hv
    cases b <;> simp only [weakSide, Bool.false_eq_true, if_true, if_false, List.mem_cons, List.not_mem_nil, or_false] at hv
    · exact hv ▸ clipPix_range ..
    · rcases hv with rfl | rfl <;> exact clipPix_range ..
  cases choice with
  | off => simp [filterLine] at h
  | strong =>
    simp only [filterLine, strongFilter, strongSide, boundTo, List.mem_append, List.mem_cons, List.not_mem_nil, or_false] at h
    rcases h with (rfl | rfl | rfl) | (rfl | rfl | rfl) <;> exact clipPix_range ..
  | weak a b =>
    simp only [filterLine, weakFilter] at h
    split at h
    · exact (List.mem_append.mp h).elim side side
    · simp at h

theorem State.bitDepth_lt (s : State) : s.bitDepth < 16 := Nat.mod_lt _ (by norm_num)

/-- A legal sample is stored as it is. -/
theorem State.half_sample (s : State) {v : Int} (h : 0 ≤ v ∧ v ≤ 2 ^ s.bitDepth - 1) : (half v : Int) = v := by
  have : (2 : Int) ^ s.bitDepth ≤ 2 ^ 15 := pow_le_pow_right₀ (by norm_num) (Nat.le_of_lt_succ s.bitDepth_lt)
  exact half_of_nonneg h.1 (by omega)

end Sys2Proof.Machine
end

