-- ==== Sys2Proof/Laws/Ops.lean ====
section
/-! SUPPORT. What the shared operations can do, said once: fault entry, refusal, completion, and the shape of a command. -/

namespace Sys2Proof.Machine

/-! ## Checks -/

@[simp] theorem failIf_eq_none {b : Bool} {c : Cause} {i : Nat} : failIf b c i = none ↔ b = false := by
  cases b <;> simp [failIf]

theorem failIf_eq_some {b : Bool} {c : Cause} {i : Nat} {r : Raised} :
    failIf b c i = some r ↔ b = true ∧ r = ⟨c, i⟩ := by
  cases b <;> simp [failIf, eq_comm]

/-- No check fails exactly when each of them passes. -/
theorem firstRaised_eq_none {l : List (Option Raised)} : firstRaised l = none ↔ ∀ x ∈ l, x = none := by
  induction l with
  | nil => simp [firstRaised]
  | cons x rest ih => cases x <;> simp [firstRaised, ih]

/-- The fault raised is one of the checks'. -/
theorem firstRaised_mem {l : List (Option Raised)} {r : Raised} (h : firstRaised l = some r) : some r ∈ l := by
  induction l with
  | nil => simp [firstRaised] at h
  | cons x rest ih => cases x <;> simp_all [firstRaised]

@[simp] theorem firstRaised_some (r : Raised) (l : List (Option Raised)) : firstRaised (some r :: l) = some r := rfl

@[simp] theorem firstRaised_none (l : List (Option Raised)) : firstRaised (none :: l) = firstRaised l := rfl

theorem firstRaised_append (l l' : List (Option Raised)) :
    firstRaised (l ++ l') = (firstRaised l).or (firstRaised l') := by
  induction l with
  | nil => simp [firstRaised]
  | cons x rest ih => cases x <;> simp [ih]

/-! ## Replies -/

/-- The reply word of a fault: bit 0, and the code from bit 8 up (R102). -/
theorem faultWord_eq (code : BitVec 8) : faultWord code = BitVec.ofNat 32 (1 + 2 ^ 8 * code.toNat) := by
  have hc : code.toNat < 2 ^ 8 := code.isLt
  apply BitVec.eq_of_toNat_eq
  have h : (faultWord code).toNat = code.toNat * 256 + 1 := by
    show (0#16 ++ code ++ 1#8 : BitVec 32).toNat = _
    rw [BitVec.toNat_append, BitVec.toNat_append, ← Nat.shiftLeft_add_eq_or_of_lt (by simp)]
    simp [Nat.shiftLeft_eq]
  rw [h, BitVec.toNat_ofNat]
  omega

/-- Fault entry (R290). -/
theorem raiseFault_eq (r : Raised) (s : State) :
    raiseFault r s = .next (s.afterFault r.cause.code.toNat r.info) := by
  simp [raiseFault, State.afterFault, State.answer, State.recordFault, faultWord_eq]

/-- Refusal (R291). -/
theorem refuseFaulted_eq (s : State) : refuseFaulted s = .next s.afterRefusal := by
  have h : faultWord refusedCode = 0x00000B01 := by decide
  simp [refuseFaulted, State.afterRefusal, State.answer, h]

/-- Completion. -/
theorem replyOk_eq (v : Word) (s : State) : replyOk v s = .next (s.afterOk v) := rfl

theorem Cause.code_range (c : Cause) : 1 ≤ c.code.toNat ∧ c.code.toNat ≤ 10 := by
  cases c <;> decide

/-! ## The shape of a command -/

theorem runChecked_faulted {s : State} (h : s.faulted = true) (cs : List (Option Raised)) (e : State) :
    runChecked s cs e = .next s.afterRefusal := by
  simp [runChecked, h, refuseFaulted_eq]

theorem runChecked_fault {s : State} {cs : List (Option Raised)} {r : Raised} (h : s.faulted = false)
    (hr : firstRaised cs = some r) (e : State) :
    runChecked s cs e = .next (s.afterFault r.cause.code.toNat r.info) := by
  simp [runChecked, h, hr, raiseFault_eq]

theorem runChecked_ok {s : State} {cs : List (Option Raised)} (h : s.faulted = false)
    (hr : ∀ x ∈ cs, x = none) (e : State) : runChecked s cs e = .next (e.afterOk 0) := by
  simp [runChecked, h, firstRaised_eq_none.mpr hr, replyOk_eq]

/-- What a checked command does: it is refused, or it faults with the record of its first failing check, or it
completes. -/
theorem runChecked_cases (s : State) (cs : List (Option Raised)) (e : State) :
    (s.faulted = true ∧ runChecked s cs e = .next s.afterRefusal) ∨
    (∃ r, s.faulted = false ∧ firstRaised cs = some r ∧
      runChecked s cs e = .next (s.afterFault r.cause.code.toNat r.info)) ∨
    (s.faulted = false ∧ (∀ x ∈ cs, x = none) ∧ runChecked s cs e = .next (e.afterOk 0)) := by
  cases hf : s.faulted with
  | true => exact .inl ⟨rfl, runChecked_faulted hf _ _⟩
  | false =>
    cases hr : firstRaised cs with
    | some r => exact .inr (.inl ⟨r, rfl, rfl, runChecked_fault hf hr _⟩)
    | none => exact .inr (.inr ⟨rfl, firstRaised_eq_none.mp hr, runChecked_ok hf (firstRaised_eq_none.mp hr) _⟩)

/-! ## The commands -/

/-- What each command does when it is neither refused nor faulting. -/
def okState (i : Instr) (s : State) : State :=
  match i with
  | .nop => s
  | .cfgWr reg value =>
    match regOf s.config reg with
    | none => s
    | some r => s.setRegs (s.regs.set value r)
  | .cfgRd _ => s
  | .picStart => s.setPicture true
  | .sreset => s.resetBlock
  | .picEnd => s.setPicture false
  | .itxBlk o => itxBlkEffect o s
  | .itx1d o => s.setMemory (s.memory.writeRows o.dstAddr.toNat (2 * 2 ^ o.log2N.toNat) (itx1dLines o s))
  | .bsCtu cx cy => bsCtuEffect cx.toNat cy.toNat s
  | .dbfCtu dir cx cy => dbfCtuEffect dir cx.toNat cy.toNat s

/-- The checks each command makes after the refusal (R288). -/
def checksOf (i : Instr) (s : State) : List (Option Raised) :=
  match i with
  | .nop => []
  | .cfgWr reg value =>
    match regOf s.config reg with
    | none => [some ⟨.badReg, reg.toNat⟩]
    | some r => cfgWrChecks r reg value s
  | .cfgRd reg =>
    match regOf s.config reg with
    | none => [some ⟨.badReg, reg.toNat⟩]
    | some _ => []
  | .picStart => failIf s.picActive .order 0 :: picStartChecks s
  | .sreset => []
  | .picEnd => [failIf (!s.picActive) .order 0]
  | .itxBlk o => itxBlkChecks o s
  | .itx1d o => itx1dChecks o s
  | .bsCtu cx cy => bsCtuChecks cx.toNat cy.toNat s
  | .dbfCtu dir cx cy => dbfCtuChecks dir cx.toNat cy.toNat s

/-- A command that reads an existing register answers it, faulted or not (R272, R291). -/
theorem execCfgRd_exists {s : State} {reg : BitVec 12} {r : Reg} (h : regOf s.config reg = some r) :
    execCfgRd reg s = .next (s.afterOk (s.readReg r)) := by
  simp [execCfgRd, h, replyOk_eq]

theorem execSreset_eq (s : State) : execSreset s = .next { s.resetBlock with reply := some ⟨0, 0⟩ } := rfl

/-- Every command but `SRESET` and a `CFG_RD` of an existing register has the shape of R288. -/
theorem exec_eq_runChecked (i : Instr) (s : State) (h1 : i ≠ .sreset)
    (h2 : ∀ reg, i = .cfgRd reg → regOf s.config reg = none) :
    exec i s = runChecked s (checksOf i s) (okState i s) := by
  cases i with
  | sreset => exact absurd rfl h1
  | cfgRd reg => simp [exec, execCfgRd, checksOf, okState, h2 reg rfl]
  | cfgWr reg value => simp only [exec, execCfgWr, checksOf, okState]; split <;> simp_all
  | nop => rfl
  | picStart => rfl
  | picEnd => rfl
  | itxBlk o => rfl
  | itx1d o => rfl
  | bsCtu cx cy => rfl
  | dbfCtu dir cx cy => rfl

/-- Everything a command can do (R288 to R291): `SRESET` resets; an existing register is read; and otherwise the command
is refused, or faults with the record of a failing check and no other change, or completes. -/
theorem exec_cases (i : Instr) (s : State) :
    (i = .sreset ∧ exec i s = .next { s.resetBlock with reply := some ⟨0, 0⟩ }) ∨
    (∃ reg r, i = .cfgRd reg ∧ regOf s.config reg = some r ∧ exec i s = .next (s.afterOk (s.readReg r))) ∨
    (s.faulted = true ∧ exec i s = .next s.afterRefusal) ∨
    (∃ r, s.faulted = false ∧ firstRaised (checksOf i s) = some r ∧
      exec i s = .next (s.afterFault r.cause.code.toNat r.info)) ∨
    (s.faulted = false ∧ (∀ x ∈ checksOf i s, x = none) ∧ exec i s = .next ((okState i s).afterOk 0)) := by
  by_cases h1 : i = .sreset
  · subst h1; exact .inl ⟨rfl, rfl⟩
  by_cases h2 : ∃ reg r, i = .cfgRd reg ∧ regOf s.config reg = some r
  · obtain ⟨reg, r, rfl, h⟩ := h2
    exact .inr (.inl ⟨reg, r, rfl, h, execCfgRd_exists h⟩)
  · have h3 : ∀ reg, i = .cfgRd reg → regOf s.config reg = none := fun reg hi =>
      Option.eq_none_iff_forall_not_mem.mpr fun r hr => h2 ⟨reg, r, hi, hr⟩
    rw [exec_eq_runChecked i s h1 h3]
    exact .inr (.inr (runChecked_cases _ _ _))

/-- A presented command that decodes is executed (R2). -/
theorem step_present {s : State} {c : Command} {rest : List HostMove} {i : Instr} (h : s.host = .present c :: rest)
    (hd : decode c = .ok i) : step s = exec i (s.present c rest) := by
  simp [step, h, runCommand, hd]

/-- A presented command that does not decode is illegal (R99). -/
theorem step_illegal {s : State} {c : Command} {rest : List HostMove} {e : Reject} (h : s.host = .present c :: rest)
    (hd : decode c = .error e) : step s = illegalCommand (s.present c rest) := by
  simp [step, h, runCommand, hd]

/-- An illegal command is refused while faulted, else it faults with `ILLEGAL_CMD` (R99, R291). -/
theorem illegalCommand_eq (s : State) :
    illegalCommand s = .next (if s.faulted then s.afterRefusal else s.afterFault 1 s.latch.w0.toNat) := by
  unfold illegalCommand
  cases h : s.faulted with
  | true => simp [runChecked_faulted h]
  | false => rw [runChecked_fault h (firstRaised_some _ _)]; rfl

end Sys2Proof.Machine
end

