-- ==== Sys2Proof/Laws/Effects.lean ====
section
/-! SUPPORT. What each command's effect leaves alone, and what it does to the phases, the canonical form of `BMEM` and the
registers. -/

namespace Sys2Proof.Machine

/-! ## Phases -/

/-- Setting one phase (R38). -/
theorem State.phaseOf_setPhase (s : State) (i j : Nat) (p : Phase) :
    (s.setPhase i p).phaseOf j = if j = i then p else s.phaseOf j := by
  unfold State.phaseOf
  cases p <;> simp only [State.setPhase_phase, putPhase, valueAt_putAt, valueAt_dropAt] <;> split <;> simp

theorem rising_putPhase {l : List (Nat × Phase)} (h : rising l) (i : Nat) (p : Phase) : rising (putPhase i p l) := by
  cases p <;> first | exact rising_dropAt h _ | exact rising_putAt h _ _

theorem mem_putPhase {l : List (Nat × Phase)} {i : Nat} {p : Phase} {e : Nat × Phase} (h : e ∈ putPhase i p l) :
    (e = (i, p) ∧ p ≠ .idle) ∨ e ∈ l := by
  cases p
  · exact .inr (mem_dropAt h)
  all_goals
    rcases mem_putAt h with h | h
    · exact .inl ⟨h, by simp⟩
    · exact .inr h

/-- No phase listed: every phase is `IDLE`. -/
theorem State.phaseOf_nil {s : State} (h : s.phase = []) (i : Nat) : s.phaseOf i = .idle := by
  simp [State.phaseOf, h, valueAt]

theorem Phase.rank_eq_zero {p : Phase} : p.rank = 0 ↔ p = .idle := by cases p <;> simp [Phase.rank]

theorem Phase.two_le_rank {p : Phase} : 2 ≤ p.rank ↔ p = .verDone ∨ p = .horDone := by cases p <;> simp [Phase.rank]

theorem Phase.rank_lt_two {p : Phase} : p.rank < 2 ↔ p = .idle ∨ p = .bsDone := by cases p <;> simp [Phase.rank]

theorem Phase.three_le_rank {p : Phase} : 3 ≤ p.rank ↔ p = .horDone := by cases p <;> simp [Phase.rank]

/-- Every CTU has a phase of at least a rank (R23), by position. -/
theorem State.allPhases_iff {s : State} {n : Nat} : s.allPhases n = true ↔
    ∀ cx < s.ctusW, ∀ cy < s.ctusH, n ≤ (s.phaseOf (s.ctuIdx cx cy)).rank := by
  simp only [State.allPhases, State.ctuIndices, List.all_eq_true, List.mem_range, decide_eq_true_eq]
  constructor
  · exact fun h cx hx cy hy => h _ (State.ctuIdx_lt hx hy)
  · intro h i hi
    obtain ⟨cx, hx, cy, hy, rfl⟩ := State.ctuIdx_surj hi
    exact h cx hx cy hy

/-! ## Effects -/

/-- `ITX_BLK` changes memory only (R192). -/
theorem itxBlkEffect_eq (o : BlkOps) (s : State) : itxBlkEffect o s = s.setMemory (itxBlkEffect o s).memory := by
  unfold itxBlkEffect
  split <;> rfl

/-- `BS_CTU` changes memory and one phase (R213). -/
theorem bsCtuEffect_eq (cx cy : Nat) (s : State) :
    bsCtuEffect cx cy s = (s.setMemory (bsCtuEffect cx cy s).memory).setPhase (s.ctuIdx cx cy) .bsDone := rfl

/-- `DBF_CTU` changes memory and one phase (R244). -/
theorem dbfCtuEffect_eq (dir : Dir) (cx cy : Nat) (s : State) :
    dbfCtuEffect dir cx cy s = (s.setMemory (dbfCtuEffect dir cx cy s).memory).setPhase (s.ctuIdx cx cy) (phaseAfter dir) := by
  unfold dbfCtuEffect
  split
  · rw [State.setPhase_memory, ← filterCtu_eq]
  · rfl

/-- What the effect of a command other than `SRESET` never changes. -/
structure SameOutside (s t : State) : Prop where
  config : t.config = s.config
  host : t.host = s.host
  latch : t.latch = s.latch
  reply : t.reply = s.reply
  faulted : t.faulted = s.faulted
  faultCause : t.faultCause = s.faultCause
  faultInfo : t.faultInfo = s.faultInfo
  faultW0 : t.faultW0 = s.faultW0
  cmdCount : t.cmdCount = s.cmdCount

theorem sameOutside_setMemory (s : State) (m : Memory) : SameOutside s (s.setMemory m) :=
  ⟨rfl, rfl, rfl, rfl, rfl, rfl, rfl, rfl, rfl⟩

theorem okState_sameOutside {i : Instr} (h : i ≠ .sreset) (s : State) : SameOutside s (okState i s) := by
  cases i with
  | sreset => exact absurd rfl h
  | cfgWr reg value => simp only [okState]; split <;> exact ⟨rfl, rfl, rfl, rfl, rfl, rfl, rfl, rfl, rfl⟩
  | itxBlk o => rw [okState, itxBlkEffect_eq]; exact sameOutside_setMemory ..
  | dbfCtu dir cx cy => rw [okState, dbfCtuEffect_eq]; exact ⟨rfl, rfl, rfl, rfl, rfl, rfl, rfl, rfl, rfl⟩
  | nop => exact ⟨rfl, rfl, rfl, rfl, rfl, rfl, rfl, rfl, rfl⟩
  | cfgRd reg => exact ⟨rfl, rfl, rfl, rfl, rfl, rfl, rfl, rfl, rfl⟩
  | picStart => exact ⟨rfl, rfl, rfl, rfl, rfl, rfl, rfl, rfl, rfl⟩
  | picEnd => exact ⟨rfl, rfl, rfl, rfl, rfl, rfl, rfl, rfl, rfl⟩
  | itx1d o => exact sameOutside_setMemory ..
  | bsCtu cx cy => exact ⟨rfl, rfl, rfl, rfl, rfl, rfl, rfl, rfl, rfl⟩

/-- Only `CFG_WR` and `SRESET` write registers. -/
theorem okState_regs {i : Instr} (h1 : i ≠ .sreset) (h2 : ∀ reg value, i ≠ .cfgWr reg value) (s : State) :
    (okState i s).regs = s.regs := by
  cases i with
  | sreset => exact absurd rfl h1
  | cfgWr reg value => exact absurd rfl (h2 reg value)
  | itxBlk o => rw [okState, itxBlkEffect_eq]; rfl
  | dbfCtu dir cx cy => rw [okState, dbfCtuEffect_eq]; rfl
  | _ => rfl

/-- The canonical form is kept by every effect. -/
theorem okState_wf (i : Instr) {s : State} (h : s.memory.wf) : (okState i s).memory.wf := by
  cases i with
  | cfgWr reg value => simp only [okState]; split <;> exact h
  | itxBlk o => simp only [okState, itxBlkEffect]; split <;> exact Memory.wf_writeRows h ..
  | itx1d o => exact Memory.wf_writeRows h ..
  | bsCtu cx cy => exact Memory.wf_writeEntries h ..
  | dbfCtu dir cx cy =>
    simp only [okState, dbfCtuEffect]
    split
    · exact filterCtu_wf h ..
    · exact h
  | _ => exact h

/-! ## Registers -/

theorem Regs.get_set {g : Regs} {v : Word} {r r' : Reg} (h : r.readOnly = false) :
    (g.set v r).get r' = if r' = r then v else g.get r' := by
  cases r <;> first
    | exact absurd h (by decide)
    | (cases r' <;> rfl)

theorem regOf_eq_some {cfg : Config} {n : BitVec 12} {r : Reg} :
    regOf cfg n = some r ↔ valueAt n.toNat regMap = some r ∧ (r.isLadf = true → cfg.hasLadf = true) := by
  unfold regOf
  cases h : valueAt n.toNat regMap with
  | none => simp
  | some r' =>
    cases hl : r'.isLadf <;> cases hc : cfg.hasLadf <;> simp_all <;> intro h' <;> subst h' <;> simp_all

end Sys2Proof.Machine
end

