-- ==== Sys2Proof/Laws/Encoding.lean ====
section
/-! SUPPORT. Bits of concatenated fields, and the codes of types and directions: what decoding and encoding rest on. -/

namespace Sys2Proof

/-- Bits above the lower part of a concatenation are bits of the upper part. -/
theorem extract_high {n m k len : Nat} (x : BitVec n) (y : BitVec m) (h : m ≤ k) :
    (x ++ y).extractLsb' k len = x.extractLsb' (k - m) len := by
  apply BitVec.eq_of_getLsbD_eq
  intro i hi
  have h1 : ¬ (k + i < m) := by omega
  simp [BitVec.getLsbD_append, hi, h1, show k + i - m = k - m + i by omega]

/-- Bits inside the lower part of a concatenation are bits of the lower part. -/
theorem extract_low {n m k len : Nat} (x : BitVec n) (y : BitVec m) (h : k + len ≤ m) :
    (x ++ y).extractLsb' k len = y.extractLsb' k len := by
  apply BitVec.eq_of_getLsbD_eq
  intro i hi
  have h1 : k + i < m := by omega
  simp [BitVec.getLsbD_append, hi, h1]

/-- All the bits of a field are the field. -/
theorem extract_all {n : Nat} (x : BitVec n) : x.extractLsb' 0 n = x := by simp

/-- The lower part of a concatenation. -/
theorem extract_lower {n m : Nat} (x : BitVec n) (y : BitVec m) : (x ++ y).extractLsb' 0 m = y := by
  rw [extract_low x y (by omega), extract_all]

@[simp] theorem TrType.ofCode_code (t : TrType) : TrType.ofCode t.code = t := by cases t <;> rfl

@[simp] theorem TrType.code_ofCode (c : BitVec 2) : (TrType.ofCode c).code = c := by revert c; decide

@[simp] theorem Dir.ofBit_bit (d : Dir) : Dir.ofBit d.bit = d := by cases d <;> rfl

@[simp] theorem Dir.bit_ofBit (b : BitVec 1) : (Dir.ofBit b).bit = b := by revert b; decide

/-! ## The fields of the encoded words -/

theorem BlkOps.word0_opcode (o : BlkOps) : Command.bits o.word0 0 8 = 0x10 :=
  extract_lower _ _
theorem BlkOps.word0_trH (o : BlkOps) : Command.bits o.word0 8 2 = o.trH.code :=
  (extract_high _ _ (by decide)).trans (extract_lower _ _)
theorem BlkOps.word0_trV (o : BlkOps) : Command.bits o.word0 10 2 = o.trV.code :=
  (extract_high _ _ (by decide)).trans ((extract_high _ _ (by decide)).trans (extract_lower _ _))
theorem BlkOps.word0_log2W (o : BlkOps) : Command.bits o.word0 12 3 = o.log2W :=
  (extract_high _ _ (by decide)).trans ((extract_high _ _ (by decide)).trans ((extract_high _ _ (by decide)).trans (extract_lower _ _)))
theorem BlkOps.word0_log2H (o : BlkOps) : Command.bits o.word0 15 3 = o.log2H :=
  (extract_high _ _ (by decide)).trans ((extract_high _ _ (by decide)).trans ((extract_high _ _ (by decide)).trans ((extract_high _ _ (by decide)).trans (extract_lower _ _))))
theorem BlkOps.word0_comp (o : BlkOps) : Command.bits o.word0 18 2 = o.comp :=
  (extract_high _ _ (by decide)).trans ((extract_high _ _ (by decide)).trans ((extract_high _ _ (by decide)).trans ((extract_high _ _ (by decide)).trans ((extract_high _ _ (by decide)).trans (extract_lower _ _)))))
theorem BlkOps.word0_resOnly (o : BlkOps) : Command.bits o.word0 20 1 = BitVec.ofBool o.resOnly :=
  (extract_high _ _ (by decide)).trans ((extract_high _ _ (by decide)).trans ((extract_high _ _ (by decide)).trans ((extract_high _ _ (by decide)).trans ((extract_high _ _ (by decide)).trans ((extract_high _ _ (by decide)).trans (extract_lower _ _))))))
theorem BlkOps.word0_qp (o : BlkOps) : Command.bits o.word0 21 7 = o.qp :=
  (extract_high _ _ (by decide)).trans ((extract_high _ _ (by decide)).trans ((extract_high _ _ (by decide)).trans ((extract_high _ _ (by decide)).trans ((extract_high _ _ (by decide)).trans ((extract_high _ _ (by decide)).trans ((extract_high _ _ (by decide)).trans (extract_lower _ _)))))))
theorem BlkOps.word0_zero (o : BlkOps) : Command.bits o.word0 28 4 = 0 :=
  (extract_high _ _ (by decide)).trans ((extract_high _ _ (by decide)).trans ((extract_high _ _ (by decide)).trans ((extract_high _ _ (by decide)).trans ((extract_high _ _ (by decide)).trans ((extract_high _ _ (by decide)).trans ((extract_high _ _ (by decide)).trans ((extract_high _ _ (by decide)).trans (extract_all _))))))))
theorem KernelOps.word0_opcode (o : KernelOps) : Command.bits o.word0 0 8 = 0x11 :=
  extract_lower _ _
theorem KernelOps.word0_tr (o : KernelOps) : Command.bits o.word0 8 2 = o.tr.code :=
  (extract_high _ _ (by decide)).trans (extract_lower _ _)
theorem KernelOps.word0_log2N (o : KernelOps) : Command.bits o.word0 10 3 = o.log2N :=
  (extract_high _ _ (by decide)).trans ((extract_high _ _ (by decide)).trans (extract_lower _ _))
theorem KernelOps.word0_shift (o : KernelOps) : Command.bits o.word0 13 5 = o.shift :=
  (extract_high _ _ (by decide)).trans ((extract_high _ _ (by decide)).trans ((extract_high _ _ (by decide)).trans (extract_lower _ _)))
theorem KernelOps.word0_lines (o : KernelOps) : Command.bits o.word0 18 7 = o.lines :=
  (extract_high _ _ (by decide)).trans ((extract_high _ _ (by decide)).trans ((extract_high _ _ (by decide)).trans ((extract_high _ _ (by decide)).trans (extract_lower _ _))))
theorem KernelOps.word0_zero (o : KernelOps) : Command.bits o.word0 25 7 = 0 :=
  (extract_high _ _ (by decide)).trans ((extract_high _ _ (by decide)).trans ((extract_high _ _ (by decide)).trans ((extract_high _ _ (by decide)).trans ((extract_high _ _ (by decide)).trans (extract_all _)))))
theorem regWord_reg (reg : BitVec 12) (op : BitVec 8) : Command.bits (0#12 ++ reg ++ op) 8 12 = reg :=
  (extract_high _ _ (by decide)).trans (extract_lower _ _)
theorem regWord_zero (reg : BitVec 12) (op : BitVec 8) : Command.bits (0#12 ++ reg ++ op) 20 12 = 0 :=
  (extract_high _ _ (by decide)).trans ((extract_high _ _ (by decide)).trans (extract_all _))
theorem dirWord_dir (d : BitVec 1) (op : BitVec 8) : Command.bits (0#23 ++ d ++ op) 8 1 = d :=
  (extract_high _ _ (by decide)).trans (extract_lower _ _)
theorem dirWord_zero (d : BitVec 1) (op : BitVec 8) : Command.bits (0#23 ++ d ++ op) 9 23 = 0 :=
  (extract_high _ _ (by decide)).trans ((extract_high _ _ (by decide)).trans (extract_all _))
theorem ctuWord_cx (cx cy : BitVec 16) : Command.bits (ctuWord cx cy) 0 16 = cx := extract_lower _ _
theorem ctuWord_cy (cx cy : BitVec 16) : Command.bits (ctuWord cx cy) 16 16 = cy :=
  (extract_high _ _ (by decide)).trans (extract_all _)

/-- A row whose must-be-zero bits are 0 gives its instruction. -/
@[simp] theorem rowIf_eq_ok {b : Bool} {i j : Instr} : rowIf b i = .ok j ↔ b = true ∧ i = j := by
  cases b <;> simp [rowIf]

/-! ## The rows of the opcode map -/

theorem decode_nopRow {c : Command} (h : c.opcode = 0x00) : decode c = decodeS c .nop := by simp [decode, h]
theorem decode_cfgWrRow {c : Command} (h : c.opcode = 0x01) : decode c = decodeCfgWr c := by simp [decode, h]
theorem decode_cfgRdRow {c : Command} (h : c.opcode = 0x02) : decode c = decodeCfgRd c := by simp [decode, h]
theorem decode_picStartRow {c : Command} (h : c.opcode = 0x03) : decode c = decodeS c .picStart := by simp [decode, h]
theorem decode_sresetRow {c : Command} (h : c.opcode = 0x04) : decode c = decodeS c .sreset := by simp [decode, h]
theorem decode_picEndRow {c : Command} (h : c.opcode = 0x05) : decode c = decodeS c .picEnd := by simp [decode, h]
theorem decode_itxBlkRow {c : Command} (h : c.opcode = 0x10) : decode c = decodeItxBlk c := by simp [decode, h]
theorem decode_itx1dRow {c : Command} (h : c.opcode = 0x11) : decode c = decodeItx1d c := by simp [decode, h]
theorem decode_bsCtuRow {c : Command} (h : c.opcode = 0x20) : decode c = decodeBsCtu c := by simp [decode, h]
theorem decode_dbfCtuRow {c : Command} (h : c.opcode = 0x30) : decode c = decodeDbfCtu c := by simp [decode, h]

/-- What decodes comes from one of the ten rows of R98. -/
theorem decode_ok_cases {c : Command} {i : Instr} (h : decode c = .ok i) :
    (c.opcode = 0x00 ∧ decodeS c .nop = .ok i) ∨
    (c.opcode = 0x01 ∧ decodeCfgWr c = .ok i) ∨
    (c.opcode = 0x02 ∧ decodeCfgRd c = .ok i) ∨
    (c.opcode = 0x03 ∧ decodeS c .picStart = .ok i) ∨
    (c.opcode = 0x04 ∧ decodeS c .sreset = .ok i) ∨
    (c.opcode = 0x05 ∧ decodeS c .picEnd = .ok i) ∨
    (c.opcode = 0x10 ∧ decodeItxBlk c = .ok i) ∨
    (c.opcode = 0x11 ∧ decodeItx1d c = .ok i) ∨
    (c.opcode = 0x20 ∧ decodeBsCtu c = .ok i) ∨
    (c.opcode = 0x30 ∧ decodeDbfCtu c = .ok i) := by
  unfold decode at h
  repeat' split at h
  all_goals first
    | (exact absurd h (by simp))
    | (simp_all)

end Sys2Proof
end

