-- ==== Sys2Proof/Laws/Picture.lean ====
section
/-! SUPPORT. When the checks of the picture commands pass (R201, R230, R273), and what the picture's geometry depends
on. -/

namespace Sys2Proof.Machine

theorem Region.overlaps_iff {a b : Region} : a.overlaps b = true ↔ a.base < b.stop ∧ b.base < a.stop := by
  simp [Region.overlaps]

/-- No overlapping pair is found exactly when the regions are pairwise disjoint (R273 e). -/
theorem firstOverlap_eq_none {l : List Region} :
    firstOverlap l = none ↔ l.Pairwise fun a b => ¬(a.base < b.stop ∧ b.base < a.stop) := by
  induction l with
  | nil => simp [firstOverlap]
  | cons a l ih =>
    rw [List.pairwise_cons, ← ih, firstOverlap]
    cases h : l.find? a.overlaps with
    | none =>
      have h' := List.find?_eq_none.mp h
      simp only [Region.overlaps_iff] at h'
      exact ⟨fun h => ⟨h', h⟩, fun h => h.2⟩
    | some b =>
      have hb := List.find?_some h
      have hm := List.mem_of_find?_eq_some h
      simp only [reduceCtorEq, false_iff, not_and]
      exact fun h => absurd (Region.overlaps_iff.mp hb) fun hh => h b hm hh.1 hh.2

/-- No region is found outside `BMEM` exactly when all end inside it (R273 d). -/
theorem State.outsideBmem_eq_none {s : State} {l : List Region} :
    s.outsideBmem l = none ↔ ∀ r ∈ l, r.stop ≤ s.config.bmemSize := by
  simp [State.outsideBmem, Option.map_eq_none_iff, List.find?_eq_none]

/-- The checks of `PIC_START` pass exactly when the geometry fits (R273). -/
theorem picStartChecks_pass {s : State} : (∀ x ∈ picStartChecks s, x = none) ↔ s.GeometryFits := by
  constructor
  · intro h
    simp only [picStartChecks, List.mem_append, List.mem_cons, List.mem_map, List.not_mem_nil, or_false] at h
    have h1 := failIf_eq_none.mp (h _ (.inl (.inl rfl)))
    have h2 : ∀ c ∈ s.planesInUse, 2 * s.planeW c ≤ s.planeStride c := fun c hc => by
      simpa using failIf_eq_none.mp (h _ (.inl (.inr ⟨c, hc, rfl⟩)))
    have h3 := failIf_eq_none.mp (h _ (.inr (.inl rfl)))
    have h4 := h _ (.inr (.inr (.inl rfl)))
    have h5 := h _ (.inr (.inr (.inr rfl)))
    simp only [Bool.or_eq_false_iff, beq_eq_false_iff_ne] at h1
    exact ⟨⟨Nat.pos_of_ne_zero h1.1, Nat.pos_of_ne_zero h1.2⟩, h2, by simpa using h3, State.outsideBmem_eq_none.mp h4,
      firstOverlap_eq_none.mp h5⟩
  · intro h x hx
    simp only [picStartChecks, List.mem_append, List.mem_cons, List.mem_map, List.not_mem_nil, or_false] at hx
    rcases hx with (rfl | ⟨c, hc, rfl⟩) | rfl | rfl | rfl
    · have := h.sized
      exact failIf_eq_none.mpr (by simp; omega)
    · exact failIf_eq_none.mpr (by simpa using h.planeStrides c hc)
    · exact failIf_eq_none.mpr (by simpa using h.metaStride)
    · exact State.outsideBmem_eq_none.mpr h.inside
    · exact firstOverlap_eq_none.mpr h.disjoint

/-- Two states with the same parameters and the same registers of the geometry class (R37). -/
structure SameGeometry (s t : State) : Prop where
  config : t.config = s.config
  regs : ∀ r : Reg, r.geometry = true → t.regs.get r = s.regs.get r

namespace SameGeometry

variable {s t : State}

theorem picW (h : SameGeometry s t) : t.picW = s.picW := congrArg (fun w : Word => field w.toNat 15 0) (h.regs .picSize rfl)
theorem picH (h : SameGeometry s t) : t.picH = s.picH := congrArg (fun w : Word => field w.toNat 31 16) (h.regs .picSize rfl)
theorem chroma (h : SameGeometry s t) : t.chroma = s.chroma := congrArg (fun w : Word => field w.toNat 1 0) (h.regs .format rfl)
theorem ctuSize (h : SameGeometry s t) : t.ctuSize = s.ctuSize :=
  congrArg (fun w : Word => 2 ^ field w.toNat 10 8) (h.regs .format rfl)
theorem units (h : SameGeometry s t) : t.units = s.units := congrArg (· / 4) h.ctuSize
theorem ctusW (h : SameGeometry s t) : t.ctusW = s.ctusW := by simp [State.ctusW, h.picW, h.ctuSize]
theorem ctusH (h : SameGeometry s t) : t.ctusH = s.ctusH := by simp [State.ctusH, h.picH, h.ctuSize]
theorem ctuIdx (h : SameGeometry s t) (cx cy : Nat) : t.ctuIdx cx cy = s.ctuIdx cx cy := by simp [State.ctuIdx, h.ctusW]
theorem planesInUse (h : SameGeometry s t) : t.planesInUse = s.planesInUse := by simp [State.planesInUse, h.chroma]
theorem planeW (h : SameGeometry s t) (c : Plane) : t.planeW c = s.planeW c := by
  simp [State.planeW, State.shiftX, h.picW, h.chroma]
theorem planeH (h : SameGeometry s t) (c : Plane) : t.planeH c = s.planeH c := by
  simp [State.planeH, State.shiftY, h.picH, h.chroma]
theorem planeBase (h : SameGeometry s t) (c : Plane) : t.planeBase c = s.planeBase c := by
  cases c
  · exact congrArg BitVec.toNat (h.regs .planeBase0 rfl)
  · exact congrArg BitVec.toNat (h.regs .planeBase1 rfl)
  · exact congrArg BitVec.toNat (h.regs .planeBase2 rfl)
theorem planeStride (h : SameGeometry s t) (c : Plane) : t.planeStride c = s.planeStride c := by
  cases c
  · exact congrArg BitVec.toNat (h.regs .planeStride0 rfl)
  · exact congrArg BitVec.toNat (h.regs .planeStride1 rfl)
  · exact congrArg BitVec.toNat (h.regs .planeStride2 rfl)
theorem metaStride (h : SameGeometry s t) : t.regs.metaStride = s.regs.metaStride := h.regs .metaStride rfl
theorem metaBase (h : SameGeometry s t) : t.regs.metaBase = s.regs.metaBase := h.regs .metaBase rfl
theorem lfpBase (h : SameGeometry s t) : t.regs.lfpBase = s.regs.lfpBase := h.regs .lfpBase rfl

theorem regions (h : SameGeometry s t) : t.regions = s.regions := by
  simp [State.regions, State.planeRegion, State.metaRegion, State.lfpRegion, h.planesInUse, h.planeW, h.planeH,
    h.planeBase, h.planeStride, h.metaStride, h.metaBase, h.lfpBase, h.picW, h.picH, h.ctusW, h.ctusH, h.units]

/-- What `PIC_START` accepted stays acceptable. -/
theorem fits (h : SameGeometry s t) (hs : s.GeometryFits) : t.GeometryFits where
  sized := by rw [h.picW, h.picH]; exact hs.sized
  planeStrides := by
    intro c hc
    rw [h.planesInUse] at hc
    rw [h.planeW, h.planeStride]
    exact hs.planeStrides c hc
  metaStride := by rw [h.picW, h.metaStride]; exact hs.metaStride
  inside := by rw [h.regions, h.config]; exact hs.inside
  disjoint := by rw [h.regions]; exact hs.disjoint

end SameGeometry

/-- The checks of `BS_CTU` pass (R201). -/
theorem bsCtuChecks_pass {cx cy : Nat} {s : State} : (∀ x ∈ bsCtuChecks cx cy s, x = none) ↔
    s.picActive = true ∧ (cx < s.ctusW ∧ cy < s.ctusH) ∧ (s.phaseOf (s.ctuIdx cx cy)).rank < 2
      ∧ ∀ g ∈ s.bsUnits cx cy, (s.metaRec g.1 g.2).malformed = false := by
  simp [bsCtuChecks, failIf_eq_none, State.badMeta, Option.map_eq_none_iff, List.find?_eq_none]

/-- The checks of `DBF_CTU` pass (R230). -/
theorem dbfCtuChecks_pass {dir : Dir} {cx cy : Nat} {s : State} : (∀ x ∈ dbfCtuChecks dir cx cy s, x = none) ↔
    s.picActive = true ∧ (cx < s.ctusW ∧ cy < s.ctusH) ∧ s.filterTooEarly dir cx cy = false
      ∧ (s.dbfEn = true → ∀ u ∈ s.insideUnits cx cy,
          s.badEntry dir (cx * s.units + u.1) (cy * s.units + u.2) (s.lfpEntry cx cy dir u.1 u.2) = false) := by
  cases h : s.dbfEn <;>
    simp [dbfCtuChecks, failIf_eq_none, State.badLfp, Option.map_eq_none_iff, List.find?_eq_none, h]

/-- `DBF_CTU dir=VER` in time (R317, R319). -/
theorem State.verInTime {s : State} {cx cy : Nat} : s.filterTooEarly .ver cx cy = false ↔
    s.phaseOf (s.ctuIdx cx cy) = .bsDone ∧ (cx ≠ 0 → 2 ≤ (s.phaseOf (s.ctuIdx (cx - 1) cy)).rank) := by
  simp [State.filterTooEarly]
  exact fun _ => Iff.rfl

/-- `DBF_CTU dir=HOR` in time (R318, R319). -/
theorem State.horInTime {s : State} {cx cy : Nat} : s.filterTooEarly .hor cx cy = false ↔
    s.phaseOf (s.ctuIdx cx cy) = .verDone ∧ s.allPhases 2 = true
      ∧ (cy ≠ 0 → s.phaseOf (s.ctuIdx cx (cy - 1)) = .horDone) := by
  simp [State.filterTooEarly, and_assoc]

end Sys2Proof.Machine
end

