-- ==== Sys2Proof/Laws/Invariant.lean ====
section
/-! SUPPORT. How the invariant of Safety.lean fares under each kind of update: reports, memory, reset, the brackets of a
picture, and one phase moved as R314 allows. -/

namespace Sys2Proof.Machine

/-- The invariant says nothing of the host's moves, the latches, the reply and the count. -/
theorem State.Inv.report {s : State} (h : s.Inv) (ho : List HostMove) (l : Command) (r : Option Reply) (n : Word) :
    ({ s with host := ho, latch := l, reply := r, cmdCount := n } : State).Inv :=
  ⟨h.config, h.memory, h.legal, h.recorded, h.outside, h.phasesRise, h.phasesListed,
    fun hp => SameGeometry.fits (s := s) ⟨rfl, fun _ _ => rfl⟩ (h.picture hp), h.directions, h.leftFirst, h.topFirst⟩

/-- Of `BMEM` it says only that the form is canonical. -/
theorem State.Inv.setMemory {s : State} (h : s.Inv) {m : Memory} (hm : m.wf) : (s.setMemory m).Inv :=
  ⟨h.config, hm, h.legal, h.recorded, h.outside, h.phasesRise, h.phasesListed,
    fun hp => SameGeometry.fits (s := s) ⟨rfl, fun _ _ => rfl⟩ (h.picture hp), h.directions, h.leftFirst, h.topFirst⟩

/-- The reset values are legal (R44, R271). -/
theorem Regs.reset_legal (c : Config) (r : Reg) (h : r.readOnly = false) : legalValue c r (Regs.reset.get r) = true := by
  cases r <;> first | exact absurd h (by decide) | simp [legalValue, Regs.reset, Regs.get, field, flag]

/-- Every reset leads to the invariant (R310). -/
theorem State.Inv.atReset (c : Config) (hc : c.valid = true) (ho : List HostMove) (l : Command) (r : Option Reply)
    (m : Memory) (hm : m.wf) :
    ({ State.reset with config := c, host := ho, latch := l, reply := r, memory := m } : State).Inv := by
  refine ⟨hc, hm, Regs.reset_legal c, by simp [State.reset], fun _ => rfl, List.Pairwise.nil, by simp [State.reset],
    by simp [State.reset], ?_, ?_, ?_⟩
  · intro i _ h; simp [State.phaseOf, State.reset, valueAt] at h
  · intro cx cy _ _ h; simp [State.phaseOf, State.reset, valueAt, Phase.rank] at h
  · intro cx cy _ _ h; simp [State.phaseOf, State.reset, valueAt] at h

/-- With no phase listed, legal registers are enough, and, in a picture, a geometry that fits (R273, R274). -/
theorem State.Inv.noPhases {s : State} (h : s.Inv) {g : Regs}
    (hl : ∀ r : Reg, r.readOnly = false → legalValue s.config r (g.get r) = true) (b : Bool)
    (hb : b = true → ({ s with regs := g, picActive := b, phase := [] } : State).GeometryFits) :
    ({ s with regs := g, picActive := b, phase := [] } : State).Inv := by
  refine ⟨h.config, h.memory, hl, h.recorded, fun _ => rfl, List.Pairwise.nil, by simp, hb, ?_, ?_, ?_⟩
  · intro i _ h; simp [State.phaseOf, valueAt] at h
  · intro cx cy _ _ h; simp [State.phaseOf, valueAt, Phase.rank] at h
  · intro cx cy _ _ h; simp [State.phaseOf, valueAt] at h

/-- A move of one CTU's phase by a row of R314 keeps the invariant. -/
theorem State.Inv.setPhase {s : State} (h : s.Inv) {cx cy : Nat} {p : Phase} (hp : s.picActive = true) (hx : cx < s.ctusW)
    (hy : cy < s.ctusH)
    (hc : (p = .bsDone ∧ (s.phaseOf (s.ctuIdx cx cy)).rank < 2) ∨
      (p = .verDone ∧ s.phaseOf (s.ctuIdx cx cy) = .bsDone ∧ (cx ≠ 0 → 2 ≤ (s.phaseOf (s.ctuIdx (cx - 1) cy)).rank)) ∨
      (p = .horDone ∧ s.phaseOf (s.ctuIdx cx cy) = .verDone ∧ (∀ j < s.ctusW * s.ctusH, 2 ≤ (s.phaseOf j).rank)
        ∧ (cy ≠ 0 → s.phaseOf (s.ctuIdx cx (cy - 1)) = .horDone))) : (s.setPhase (s.ctuIdx cx cy) p).Inv := by
  have hi := State.ctuIdx_lt hx hy
  have e1 : (s.setPhase (s.ctuIdx cx cy) p).ctusW = s.ctusW := rfl
  have e2 : (s.setPhase (s.ctuIdx cx cy) p).ctusH = s.ctusH := rfl
  have e3 : ∀ x y, (s.setPhase (s.ctuIdx cx cy) p).ctuIdx x y = s.ctuIdx x y := fun _ _ => rfl
  refine ⟨h.config, h.memory, h.legal, h.recorded, ?_, rising_putPhase h.phasesRise .., ?_,
    fun hp => SameGeometry.fits (s := s) ⟨rfl, fun _ _ => rfl⟩ (h.picture hp), ?_, ?_, ?_⟩
  · intro hf; exact absurd hp (by rw [show s.picActive = false from hf]; simp)
  · intro e he
    rcases mem_putPhase he with ⟨rfl, hn⟩ | he
    · exact ⟨hn, hi⟩
    · exact h.phasesListed e he
  · intro i hi' hh j hj
    rw [State.phaseOf_setPhase] at hh ⊢
    rw [e1, e2] at hi' hj
    have hd := h.directions
    split at hh
    · next hij =>
      subst hh
      rcases hc with ⟨h1, _⟩ | ⟨h1, _⟩ | ⟨_, h2, h3, _⟩
      · exact absurd h1 (by simp)
      · exact absurd h1 (by simp)
      · split
        · simp [Phase.rank]
        · exact h3 j hj
    · have := hd i hi' hh
      have hcur := this _ hi
      split
      · rcases hc with ⟨h1, h2⟩ | ⟨h1, h2, _⟩ | ⟨h1, h2, _⟩
        · omega
        · rw [h2] at hcur; simp [Phase.rank] at hcur
        · subst h1; simp [Phase.rank]
      · exact this j hj
  · intro x y hx' hy' hr
    rw [State.phaseOf_setPhase] at hr ⊢
    simp only [e1, e2, e3] at *
    have hl := h.leftFirst x y hx' hy'
    by_cases hA : s.ctuIdx (x+1) y = s.ctuIdx cx cy
    · obtain ⟨ha, hb⟩ := State.ctuIdx_inj hx' hx hA
      rw [if_pos hA] at hr
      have hne' : s.ctuIdx x y ≠ s.ctuIdx cx cy := by
        intro hB; obtain ⟨hc', _⟩ := State.ctuIdx_inj (by omega) hx hB; omega
      rw [if_neg hne']
      rcases hc with ⟨h1, h2⟩ | ⟨h1, h2, h3⟩ | ⟨h1, h2, h3, _⟩
      · subst h1; simp [Phase.rank] at hr
      · have := h3 (by omega); rwa [← ha, Nat.add_sub_cancel, ← hb] at this
      · exact h3 _ (State.ctuIdx_lt (by omega) hy')
    · rw [if_neg hA] at hr
      have := hl hr
      split
      · next hB =>
        rw [hB] at this
        rcases hc with ⟨h1, h2⟩ | ⟨h1, h2, h3⟩ | ⟨h1, h2, h3, _⟩
        · omega
        · subst h1; simp [Phase.rank]
        · subst h1; simp [Phase.rank]
      · exact this
  · intro x y hx' hy' hr
    rw [State.phaseOf_setPhase] at hr ⊢
    simp only [e1, e2, e3] at *
    have hl := h.topFirst x y hx' hy'
    by_cases hA : s.ctuIdx x (y+1) = s.ctuIdx cx cy
    · obtain ⟨ha, hb⟩ := State.ctuIdx_inj hx' hx hA
      rw [if_pos hA] at hr
      have hne' : s.ctuIdx x y ≠ s.ctuIdx cx cy := by
        intro hB; obtain ⟨_, hc'⟩ := State.ctuIdx_inj hx' hx hB; omega
      rw [if_neg hne']
      rcases hc with ⟨h1, h2⟩ | ⟨h1, h2, h3⟩ | ⟨h1, h2, h3, h4⟩
      · subst h1; simp at hr
      · subst h1; simp at hr
      · have := h4 (by omega); rwa [← ha, ← hb, Nat.add_sub_cancel] at this
    · rw [if_neg hA] at hr
      have := hl hr
      split
      · next hB =>
        rw [hB] at this
        rcases hc with ⟨h1, h2⟩ | ⟨h1, h2, h3⟩ | ⟨h1, h2, h3, _⟩
        · rw [this] at h2; simp [Phase.rank] at h2
        · rw [this] at h2; simp at h2
        · exact h1
      · exact this

end Sys2Proof.Machine
end

