-- ==== Sys2Proof/Laws/Layout.lean ====
section
/-! SUPPORT. The fields of `META` records and `LFP` entries as quotients and remainders of the values in `BMEM` (R70 to
R73), the tests of R71 and R232 in those terms, and the orders in which the commands go through them (R203, R232). -/

namespace Sys2Proof.Machine

theorem field_zero (w hi : Nat) : field w hi 0 = w % 2 ^ (hi + 1) := by simp [field]

theorem flag_iff (w i : Nat) : flag w i = true ↔ w / 2 ^ i % 2 = 1 := by simp [flag, field]

/-- A field that ends at the top of its word is a quotient. -/
theorem field_top {w hi lo : Nat} (h : w < 2 ^ (hi + 1)) (hl : lo ≤ hi + 1) : field w hi lo = w / 2 ^ lo := by
  refine Nat.mod_eq_of_lt (Nat.div_lt_of_lt_mul ?_)
  rwa [← Nat.pow_add, Nat.add_sub_cancel' hl]

/-- What `sext_16` gives: the signed value with the same low 16 bits (R11). -/
theorem sext_half_field (w lo : Nat) : sext 16 (field w (lo + 15) lo) % 2 ^ 16 = (w / 2 ^ lo % 2 ^ 16 : Nat)
    ∧ -2 ^ 15 ≤ sext 16 (field w (lo + 15) lo) ∧ sext 16 (field w (lo + 15) lo) < 2 ^ 15 := by
  have h : field w (lo + 15) lo = w / 2 ^ lo % 65536 := by
    unfold field
    rw [show lo + 15 + 1 - lo = 16 by omega]
    norm_num
  rw [h]
  generalize w / 2 ^ lo = z
  unfold sext
  norm_num
  split <;> omega

/-- The first element that passes a test. -/
theorem find?_first {α : Type} {p : α → Bool} {l before after : List α} {x : α} (hl : l = before ++ x :: after)
    (hb : ∀ y ∈ before, ¬p y = true) (hx : p x = true) : l.find? p = some x := by
  rw [hl, List.find?_append, List.find?_eq_none.mpr hb, List.find?_cons_of_pos hx]
  rfl

/-! ## Records -/

/-- The test of R71 on a record's fields. -/
theorem MetaRec.malformed_iff {r : MetaRec} : r.malformed = true ↔ r.predMode = 3 ∨ r.numMv = 3 ∨ r.log2CuW < 2
    ∨ r.log2CuH < 2 ∨ r.log2TuW < 2 ∨ r.log2TuW = 7 ∨ r.log2TuH < 2 ∨ r.log2TuH = 7 := by
  simp only [MetaRec.malformed, Bool.or_eq_true, beq_iff_eq, decide_eq_true_eq]
  constructor
  · rintro (((((((h | h) | h) | h) | h) | h) | h) | h) <;> simp [h]
  · rintro (h | h | h | h | h | h | h | h) <;> simp [h]

/-- The test of R71 on the words `M1` and `M2`. -/
theorem MetaRec.malformed_ofWords {m0 m1 m2 m3 m4 : Nat} : (MetaRec.ofWords m0 m1 m2 m3 m4).malformed = true ↔
    m1 % 4 = 3 ∨ m2 % 4 = 3 ∨ m1 / 2 ^ 16 % 8 < 2 ∨ m1 / 2 ^ 19 % 8 < 2
      ∨ m1 / 2 ^ 22 % 8 < 2 ∨ m1 / 2 ^ 22 % 8 = 7 ∨ m1 / 2 ^ 25 % 8 < 2 ∨ m1 / 2 ^ 25 % 8 = 7 := by
  rw [MetaRec.malformed_iff, MetaRec.ofWords]
  simp only [field, Nat.pow_zero, Nat.div_one, Nat.reduceAdd, Nat.reduceSub, Nat.reducePow]

/-- The units whose records `BS_CTU` reads, with the lists of R203 written out. -/
theorem State.bsUnits_eq (s : State) (cx cy : Nat) : s.bsUnits cx cy =
    (((List.range s.units).flatMap fun uy => (List.range s.units).map fun ux => (cx * s.units + ux, cy * s.units + uy))
      ++ (if cx = 0 then [] else (List.range s.units).map fun uy => (cx * s.units - 1, cy * s.units + uy))
      ++ (if cy = 0 then [] else (List.range s.units).map fun ux => (cx * s.units + ux, cy * s.units - 1))).filter
        fun g => decide (g.1 < s.picW / 4 ∧ g.2 < s.picH / 4) := by
  simp [State.bsUnits, unitGrid, State.unitInside, List.map_flatMap, Function.comp_def]

/-- A unit before the CTU's first one, along either axis, is inside the picture when the CTU is (R203). -/
theorem unitBefore_inside {w l c : Nat} (h : c < (w + 2 ^ l - 1) / 2 ^ l) (h0 : c ≠ 0) (hu : 0 < 2 ^ l / 4) :
    c * (2 ^ l / 4) - 1 < w / 4 := by
  have h1 : c * 2 ^ l < w := by
    have := (Nat.le_div_iff_mul_le (Nat.two_pow_pos l)).mp h
    rw [Nat.succ_mul] at this
    have := Nat.two_pow_pos l
    omega
  have h2 := Nat.mul_le_mul_left c (Nat.div_mul_le_self (2 ^ l) 4)
  have h3 : 0 < c * (2 ^ l / 4) := Nat.mul_pos (Nat.pos_of_ne_zero h0) hu
  rw [← Nat.mul_assoc] at h2
  omega

/-! ## Entries -/

/-- `Filterable` of R234 on the bits of an entry. -/
theorem LfpEntry.filterable_ofBits {e : Nat} : (LfpEntry.ofBits e).filterable = true ↔
    e % 4 ≠ 0 ∧ e / 2 ^ 9 % 2 = 1 ∧ e / 2 ^ 10 % 2 = 0 ∧ e / 2 ^ 2 % 8 ≠ 0 ∧ e / 2 ^ 5 % 8 ≠ 0 := by
  have h : flag e 10 = false ↔ e / 2 ^ 10 % 2 = 0 := by
    rw [← Bool.not_eq_true, flag_iff]
    omega
  simp only [LfpEntry.filterable, LfpEntry.ofBits, Bool.and_eq_true, bne_iff_ne, ne_eq, Bool.not_eq_true', flag_iff, h, field,
    Nat.pow_zero, Nat.div_one, Nat.reduceAdd, Nat.reduceSub, Nat.reducePow]
  tauto

/-- R232 c on the two sides' lengths. -/
theorem State.windowOutside_iff {s : State} {dir : Dir} {gx gy : Nat} {e : LfpEntry} :
    s.windowOutside dir gx gy e = true ↔ match dir with
      | .ver => 4 * gx < (if 3 < e.lenP then 8 else 4) ∨ s.picW < 4 * gx + (if 3 < e.lenQ then 8 else 4)
      | .hor => 4 * gy < (if 3 < e.lenP then 8 else 4) ∨ s.picH < 4 * gy + (if 3 < e.lenQ then 8 else 4) := by
  cases dir <;> simp only [State.windowOutside, Bool.or_eq_true, decide_eq_true_eq] <;> rfl

/-- The units of a CTU that lie inside the picture, with the list of R232 written out. -/
theorem State.insideUnits_eq (s : State) (cx cy : Nat) : s.insideUnits cx cy =
    ((List.range s.units).flatMap fun uy => (List.range s.units).map fun ux => (ux, uy)).filter fun u =>
      decide (cx * s.units + u.1 < s.picW / 4 ∧ cy * s.units + u.2 < s.picH / 4) := by
  simp [State.insideUnits, unitGrid, State.unitInside]

end Sys2Proof.Machine
end

