-- ==== Sys2Proof/Laws/PerInstr.lean ====
section
/-! SUPPORT. Facts proved for each constructor of `Instr`, one lemma per constructor. -/

namespace Sys2Proof.Laws.OpcodeRow

/-- The opcode of each row of the opcode map (R98). -/
def code : Instr → BitVec 8
  | .nop => 0x00
  | .cfgWr _ _ => 0x01
  | .cfgRd _ => 0x02
  | .picStart => 0x03
  | .sreset => 0x04
  | .picEnd => 0x05
  | .itxBlk _ => 0x10
  | .itx1d _ => 0x11
  | .bsCtu _ _ => 0x20
  | .dbfCtu _ _ _ => 0x30

/-- The encoding of an instruction carries the opcode of its row. -/
def Statement (i : Instr) : Prop := (encode i).opcode = code i

theorem nop : Statement .nop := by unfold Statement; decide
theorem cfgWr (reg : BitVec 12) (value : Word) : Statement (.cfgWr reg value) := extract_lower (0#12 ++ reg) 0x01#8
theorem cfgRd (reg : BitVec 12) : Statement (.cfgRd reg) := extract_lower (0#12 ++ reg) 0x02#8
theorem picStart : Statement .picStart := by unfold Statement; decide
theorem sreset : Statement .sreset := by unfold Statement; decide
theorem picEnd : Statement .picEnd := by unfold Statement; decide
theorem itxBlk (o : BlkOps) : Statement (.itxBlk o) := extract_lower _ 0x10#8
theorem itx1d (o : KernelOps) : Statement (.itx1d o) := extract_lower _ 0x11#8
theorem bsCtu (cx cy : BitVec 16) : Statement (.bsCtu cx cy) := by
  show Command.bits 0x20 0 8 = 0x20
  decide
theorem dbfCtu (dir : Dir) (cx cy : BitVec 16) : Statement (.dbfCtu dir cx cy) := extract_lower _ 0x30#8

end Sys2Proof.Laws.OpcodeRow
end

