-- ==== Sys2Proof/Tests/Slice0.lean ====
section
/-! SUPPORT. The model's own tests: the smoke test of WellFormed, decoding of words written out from the spec, one-step
tests with the expected results of spec/95_test_vectors.md (named vector by vector), and, for every obligation with
hypotheses, a concrete state and operands that meet them. -/

namespace Sys2Proof.Tests
open Sys2Proof.Machine

/-! ## Helpers -/

/-- The little-endian bytes of a value (R61). -/
def le : Nat → Nat → List Byte
  | 0, _ => []
  | n + 1, v => BitVec.ofNat 8 v :: le n (v / 256)

/-- Bytes from an address up. -/
def listed (a : Nat) (bytes : List Byte) : List Host.Cell := (List.range' a bytes.length).zip bytes

/-- 16-bit values from an address up. -/
def halves (a : Nat) (vs : List Nat) : List Host.Cell := listed a (vs.flatMap (le 2))

/-- 32-bit words from an address up. -/
def words (a : Nat) (vs : List Nat) : List Host.Cell := listed a (vs.flatMap (le 4))

/-- The next state of an outcome. -/
def nextOf : Host.Outcome State Fault Refusal → Option State
  | .next s => some s
  | .fault _ => none
  | .refused _ => none

/-- The command words of a 128-bit table word. -/
def tableWord (w0 w1 w2 w3 : Nat) : Nat := w0 + 2 ^ 32 * w1 + 2 ^ 64 * w2 + 2 ^ 96 * w3

/-- The state after one step that fetches a command. -/
def ran (s : State) (w0 w1 w2 w3 : Nat) : Option State := nextOf (step (s.withFetchWord 128 (tableWord w0 w1 w2 w3)))

/-- `R0`, `R1` of the reply. -/
def answered (t : Option State) : Option (Nat × Nat) := t.bind fun t => t.reply.map fun r => (r.r0.toNat, r.r1.toNat)

/-- `R0` of the reply and the fault record. -/
def raised (t : Option State) : Option (Nat × Nat × Nat) :=
  t.bind fun t => t.reply.map fun r => (r.r0.toNat, t.faultCause.toNat, t.faultInfo.toNat)

/-- A state with one command presented. -/
def presented (s : State) (c : Command) : State := { s with host := [.present c] }

/-- A faulted state, as the first vector of V8 leaves it. -/
def broken : State := { State.reset with faulted := true, faultCause := 1, faultInfo := 7, faultW0 := 7 }

/-- A 16x8 picture of 4:0:0 samples at 8 bits, one CTU of 32: `LFP` at 0, `META` at 0x400, the plane at 0x800. -/
def smallRegs : Regs := { Regs.reset with
  ctrl         := 1
  picSize      := 0x00080010
  planeBase0   := 0x800
  planeStride0 := 0x20
  metaBase     := 0x400
  metaStride   := 0x80
  lfpBase      := 0 }

/-- Its state inside a picture, with given phases and cells of `BMEM`. -/
def small (phases : List (Nat × Phase)) (cells : List Host.Cell) : State :=
  { State.reset with regs := smallRegs, picActive := true, phase := phases, memory := ⟨0, cells⟩ }

/-- The same before `PIC_START`. -/
def closed : State := { State.reset with regs := smallRegs }

/-- The records of two intra 8x8 CUs, `QP` 32, as program P2 of spec/95_test_vectors.md has them. -/
def records : List Host.Cell :=
  (List.range 2).flatMap fun gy => (List.range 4).flatMap fun gx =>
    words (0x400 + 0x80 * gy + 0x20 * gx) [(1 + gx / 2) * 0x10001, 0x06DB0804, 0, 0, 0]

/-- The `LFP` entries of the units in the picture, as P2 has them for its upper half: vertical, then horizontal. -/
def entries : List Host.Cell :=
  halves 0x00 [0x0700, 0, 0x0BFE, 0] ++ halves 0x10 [0x0700, 0, 0x0BFE, 0]
    ++ halves 0x80 [0x0700, 0x0700, 0x0700, 0x0700] ++ halves 0x90 [0, 0, 0, 0]

/-- The samples of P2's step run. -/
def steps : List Host.Cell :=
  (List.range 8).flatMap fun y => halves (0x800 + 0x20 * y) (List.replicate 8 100 ++ List.replicate 8 160)

/-- Two CTUs side by side (40x8) and two CTUs one above the other (8x40), with given phases and `DBF_EN = 0`. -/
def wide (phases : List (Nat × Phase)) : State :=
  { State.reset with
    regs := { smallRegs with ctrl := 0, picSize := 0x00080028, planeStride0 := 0x50, metaStride := 0x140, lfpBase := 0x1000 }
    picActive := true
    phase := phases }
def tall (phases : List (Nat × Phase)) : State :=
  { State.reset with
    regs := { smallRegs with ctrl := 0, picSize := 0x00280008, planeBase0 := 0x1000, metaStride := 0x40 }
    picActive := true
    phase := phases }

/-- A 32x16 picture of 4:2:0 samples at 8 bits, one CTU of 32: `LFP` at 0, `META` at 0x400, planes at 0x800, 0xC00, 0xD00. -/
def colourRegs : Regs := { Regs.reset with
  ctrl         := 1
  picSize      := 0x00100020
  format       := 0x581
  planeBase0   := 0x800
  planeStride0 := 0x40
  planeBase1   := 0xC00
  planeStride1 := 0x20
  planeBase2   := 0xD00
  planeStride2 := 0x20
  metaBase     := 0x400
  metaStride   := 0x100
  lfpBase      := 0 }
def colour (phases : List (Nat × Phase)) : State :=
  { State.reset with regs := colourRegs, picActive := true, phase := phases }

/-! ## WellFormed refuses each reserved value (R99) -/

def goodBlk : BlkOps := ⟨.dct2, .dct2, 2, 2, 0, true, 32, 0, 0, 0x100, 0x200⟩
def goodKernel : KernelOps := ⟨.dst7, 2, 7, 1, 0x100, 0x200⟩

theorem test_wellFormed_good : (Instr.itxBlk goodBlk).wellFormed = true ∧ (Instr.itx1d goodKernel).wellFormed = true := by
  decide
theorem test_wellFormed_comp : (Instr.itxBlk { goodBlk with comp := 3 }).wellFormed = false := by decide
theorem test_wellFormed_resAddr : (Instr.itxBlk { goodBlk with resOnly := false }).wellFormed = false := by decide
theorem test_wellFormed_shift : (Instr.itx1d { goodKernel with shift := 0 }).wellFormed = false := by decide
theorem test_wellFormed_no_lines : (Instr.itx1d { goodKernel with lines := 0 }).wellFormed = false := by decide
theorem test_wellFormed_lines : (Instr.itx1d { goodKernel with lines := 65 }).wellFormed = false
    ∧ (Instr.itx1d { goodKernel with lines := 64 }).wellFormed = true := by decide

/-! ## Decoding words written out in the spec -/

-- V7 of spec/95_test_vectors.md: vectors 1, 4, 6, 11, 12; program P2: commands 8, 11, 13.
theorem test_decode_nop : decodeTableWord 128 (tableWord 0 0 0 0) = some .nop := by decide
theorem test_decode_cfgWr : decodeTableWord 128 (tableWord 0x00001301 0xFFFFFFFF 0 0) = some (.cfgWr 0x013 0xFFFFFFFF) := by
  decide
theorem test_decode_cfgRd : decodeTableWord 128 (tableWord 0x00003002 0 0 0) = some (.cfgRd 0x030) := by decide
theorem test_decode_picStart : decodeTableWord 128 (tableWord 0x00000003 0 0 0) = some .picStart := by decide
theorem test_decode_sreset : decodeTableWord 128 (tableWord 0x00000004 0 0 0) = some .sreset := by decide
theorem test_decode_picEnd : decodeTableWord 128 (tableWord 0x00000005 0 0 0) = some .picEnd := by decide
-- V3 vector 1: w = h = 64, qp = 37; vector 5: trh = DST7, trv = DCT8, w = 4, h = 32, qp = 28, resOnly = 1.
theorem test_decode_itxBlk_64 : decodeTableWord 128 (tableWord 0x04B36010 0 0 0x2000) =
    some (.itxBlk ⟨.dct2, .dct2, 6, 6, 0, true, 37, 0, 0, 0, 0x2000⟩) := by decide
theorem test_decode_itxBlk_mixed : decodeTableWord 128 (tableWord 0x0392A910 0 0x1000 0x2000) =
    some (.itxBlk ⟨.dst7, .dct8, 2, 5, 0, true, 28, 0, 0, 0x1000, 0x2000⟩) := by decide
-- V8 vectors 55 (DST7, N = 2) and 56 (DCT8, N = 64); V1 shift 31.
theorem test_decode_itx1d : decodeTableWord 128 (tableWord 0x0004FA11 0 0x100 0x200) =
    some (.itx1d ⟨.dct8, 6, 7, 1, 0x100, 0x200⟩) := by decide
theorem test_decode_itx1d_shift : decodeTableWord 128 (tableWord 0x0007F811 0 0x100 0x200) =
    some (.itx1d ⟨.dct2, 6, 31, 1, 0x100, 0x200⟩) := by decide
theorem test_decode_bsCtu : decodeTableWord 128 (tableWord 0x00000020 0x00020001 0 0) = some (.bsCtu 1 2) := by decide
theorem test_decode_dbfCtu : decodeTableWord 128 (tableWord 0x00000030 0 0 0) = some (.dbfCtu .ver 0 0)
    ∧ decodeTableWord 128 (tableWord 0x00000130 0 0 0) = some (.dbfCtu .hor 0 0) := by decide
-- V8 vectors 1 to 6 and 31, 32, 33, 36, 50, 51.
theorem test_decode_refuses : ∀ w ∈ [tableWord 7 0 0 0, tableWord 0 1 0 0, tableWord 0x104 0 0 0, tableWord 3 0 0 4,
    tableWord 0x202 5 0 0, tableWord 0x00100202 0 0 0, tableWord 0x230 0 0 0, tableWord 0x120 0 0 0, tableWord 0x20 0 4 0,
    tableWord 0x10112010 0 0x100 0x200, tableWord 0x0004E811 1 0x100 0x200, tableWord 0x0204E811 0 0x100 0x200],
    decodeTableWord 128 w = none := by decide

/-! ## One step, against the vectors -/

-- V7 vectors 1 and 2.
theorem test_nop : answered (ran .reset 0 0 0 0) = some (0, 0) := by decide +kernel
theorem test_cfgRd_id : answered (ran .reset 0x00000002 0 0 0) = some (0, 0x49544531) := by decide +kernel
-- V8 vector 8.
theorem test_cfgRd_none : raised (ran .reset 0x00002302 0 0 0) = some (0x201, 2, 0x23) := by decide +kernel
-- R277 and V8 vector 14.
theorem test_cfgWr : ((ran .reset 0x00001201 0x000005A1 0 0).map fun t => t.regs.format) = some 0x5A1 := by decide +kernel
theorem test_cfgWr_value : raised (ran .reset 0x00001201 0x000005D0 0 0) = some (0x301, 3, 0x5D0) := by decide +kernel
-- V8 vector 27; P2 command 8.
theorem test_picStart_empty : raised (ran .reset 0x00000003 0 0 0) = some (0x601, 6, 0x11) := by decide +kernel
theorem test_picStart : ((ran closed 0x00000003 0 0 0).map fun t => (t.picActive, t.faulted)) = some (true, false) := by
  decide +kernel
-- V8 vector 28; V7 vector 11.
theorem test_picEnd_outside : raised (ran .reset 0x00000005 0 0 0) = some (0x801, 8, 0) := by decide +kernel
theorem test_picEnd : ((ran (small [(0, .bsDone)] []) 0x00000005 0 0 0).map fun t => (t.picActive, t.phaseOf 0)) =
    some (false, .idle) := by decide +kernel
-- V7 vector 12; V8 vector 3.
theorem test_sreset : ((ran broken 0x00000004 0 0 0).map fun t => (t.faulted, t.cmdCount.toNat)) = some (false, 0) := by
  decide +kernel
theorem test_sreset_malformed : raised (ran .reset 0x00000104 0 0 0) = some (0x101, 1, 0x104) := by decide +kernel
-- V3 vector 2: the identity block's residual; V8 vector 45.
theorem test_itxBlk : ((ran { State.reset with memory := ⟨0, halves 0x1000 [1, 0xFFFF, 2, 0xFED4]⟩ }
    0x05109F10 0 0x1000 0x2000).map fun t => t.memory.readSigned 0x2000 4) = some [64, -64, 128, -19200] := by
  decide +kernel
theorem test_itxBlk_addr : raised (ran .reset 0x04136010 0 0x2002 0) = some (0x701, 7, 0x2002) := by decide +kernel
-- V1: `DCT2_2` on 100, -50; V8 vector 48.
theorem test_itx1d : ((ran { State.reset with memory := ⟨0, halves 0x100 [100, 0xFFCE]⟩ }
    0x0004E411 0 0x100 0x200).map fun t => t.memory.readSigned 0x200 2) = some [25, 75] := by decide +kernel
theorem test_itx1d_lines : raised (ran .reset 0x0104E811 0 0x100 0x200) = some (0x101, 1, 0x104E811) := by decide +kernel
-- R216 example 1 (P2): the entry of the edge at x = 8; V8 vector 29.
theorem test_bsCtu : ((ran (small [] records) 0x20 0 0 0).map fun t => (t.memory.read 4 2, t.phaseOf 0)) =
    some (0x0BFE, .bsDone) := by decide +kernel
theorem test_bsCtu_outside : raised (ran .reset 0x20 0 0 0) = some (0x801, 8, 0) := by decide +kernel
-- P2's step run: samples of the first row after command 11; V5 vector 17 at the unit (2, 0).
theorem test_dbfCtu : ((ran (small [(0, .bsDone)] (entries ++ records ++ steps)) 0x30 0 0 0).map fun t =>
    [6, 7, 8, 9].map fun x => t.pix .y x 0) = some [101, 103, 157, 159] := by decide +kernel
theorem test_dbfCtu_badLfp : raised (ran (small [(0, .bsDone)] (halves 0 [0x0700, 0, 0x0BFF])) 0x30 0 0 0) =
    some (0xA01, 10, 4) := by decide +kernel

/-! ## The hypotheses of the obligations are met -/

/-- A state with an invariant keeps it under another canonical memory. -/
theorem inv_cells {p : List (Nat × Phase)} {c : List Host.Cell} (h : (small p []).Inv) (hc : rising c) : (small p c).Inv :=
  ⟨h.config, hc, h.legal, h.recorded, h.outside, h.phasesRise, h.phasesListed,
    fun hp => ⟨(h.picture hp).sized, (h.picture hp).planeStrides, (h.picture hp).metaStride, (h.picture hp).inside,
      (h.picture hp).disjoint⟩, h.directions, h.leftFirst, h.topFirst⟩

theorem small_geometry (p : List (Nat × Phase)) (c : List Host.Cell) : (small p c).GeometryFits :=
  ⟨(by decide : 0 < State.picW (small [] []) ∧ 0 < State.picH (small [] [])),
    (by decide : ∀ c ∈ (small [] []).planesInUse, 2 * (small [] []).planeW c ≤ (small [] []).planeStride c),
    (by decide : 32 * ((small [] []).picW / 4) ≤ (small [] []).regs.metaStride.toNat),
    (by decide : ∀ r ∈ (small [] []).regions, r.stop ≤ (small [] []).config.bmemSize),
    (by decide : (small [] []).regions.Pairwise fun a b => ¬(a.base < b.stop ∧ b.base < a.stop))⟩

theorem small_legal : ∀ r : Reg, r.readOnly = false → legalValue defaultConfig r (smallRegs.get r) = true := by
  intro r; cases r <;> decide

theorem small_inv_idle : (small [] []).Inv :=
  ⟨defaultConfig_valid, by decide, small_legal, by decide, by decide, by decide, by decide, fun _ => small_geometry _ _,
    by decide, by intro cx cy h; exact absurd h (by simp [show (small [] []).ctusW = 1 by decide]),
    by intro cx cy _ h; exact absurd h (by simp [show (small [] []).ctusH = 1 by decide])⟩

theorem small_inv_bs : (small [(0, .bsDone)] []).Inv :=
  ⟨defaultConfig_valid, by decide, small_legal, by decide, by decide, by decide, by decide, fun _ => small_geometry _ _,
    by decide, by intro cx cy h; exact absurd h (by simp [show (small [(0, .bsDone)] []).ctusW = 1 by decide]),
    by intro cx cy _ h; exact absurd h (by simp [show (small [(0, .bsDone)] []).ctusH = 1 by decide])⟩

theorem small_inv_ver : (small [(0, .verDone)] []).Inv :=
  ⟨defaultConfig_valid, by decide, small_legal, by decide, by decide, by decide, by decide, fun _ => small_geometry _ _,
    by decide, by intro cx cy h; exact absurd h (by simp [show (small [(0, .verDone)] []).ctusW = 1 by decide]),
    by intro cx cy _ h; exact absurd h (by simp [show (small [(0, .verDone)] []).ctusH = 1 by decide])⟩

theorem small_inv_hor : (small [(0, .horDone)] []).Inv :=
  ⟨defaultConfig_valid, by decide, small_legal, by decide, by decide, by decide, by decide, fun _ => small_geometry _ _,
    by decide, by intro cx cy h; exact absurd h (by simp [show (small [(0, .horDone)] []).ctusW = 1 by decide]),
    by intro cx cy _ h; exact absurd h (by simp [show (small [(0, .horDone)] []).ctusH = 1 by decide])⟩


theorem colour_geometry : (colour [(0, .bsDone)]).GeometryFits :=
  ⟨by decide, by decide, by decide, by decide, by decide⟩

theorem colour_legal : ∀ r : Reg, r.readOnly = false → legalValue defaultConfig r (colourRegs.get r) = true := by
  intro r; cases r <;> decide

theorem colour_inv : (colour [(0, .bsDone)]).Inv :=
  ⟨defaultConfig_valid, by decide, colour_legal, by decide, by decide, by decide, by decide, fun _ => colour_geometry,
    by decide, by intro cx cy h; exact absurd h (by simp [show (colour [(0, .bsDone)]).ctusW = 1 by decide]),
    by intro cx cy _ h; exact absurd h (by simp [show (colour [(0, .bsDone)]).ctusH = 1 by decide])⟩

-- EncodeDecodeExact, IllegalCommandsFault, StepRunsDecoded: a word of each kind of illegality (V8 vectors 1, 2, 5, 6, 36,
-- 34, 35, 50, 47, 49, 48, 32, 31), and legal words at the edges of their fields.
theorem witness_illegalWords : illegalWords ⟨7, 0, 0, 0⟩ ∧ illegalWords ⟨0, 1, 0, 0⟩ ∧ illegalWords ⟨0x202, 5, 0, 0⟩
    ∧ illegalWords ⟨0x00100202, 0, 0, 0⟩ ∧ illegalWords ⟨0x10112010, 0, 0x100, 0x200⟩
    ∧ illegalWords ⟨0x001D2010, 0, 0x100, 0x200⟩ ∧ illegalWords ⟨0x00012010, 0, 0x100, 0x200⟩
    ∧ illegalWords ⟨0x0004E811, 1, 0x100, 0x200⟩ ∧ illegalWords ⟨0x00040811, 0, 0x100, 0x200⟩
    ∧ illegalWords ⟨0x0000E811, 0, 0x100, 0x200⟩ ∧ illegalWords ⟨0x0104E811, 0, 0x100, 0x200⟩
    ∧ illegalWords ⟨0x120, 0, 0, 0⟩ ∧ illegalWords ⟨0x230, 0, 0, 0⟩ := by
  simp [illegalWords, field]
theorem witness_legalWords : ¬illegalWords ⟨0x0100F811, 0, 0x2000, 0⟩ ∧ ¬illegalWords ⟨0x00012010, 0, 0x100, 0⟩
    ∧ ¬illegalWords ⟨0x00112010, 0, 0x100, 0x200⟩ ∧ ¬illegalWords ⟨0x130, 0xFFFFFFFF, 0, 0⟩ := by
  simp [illegalWords, field]
theorem witness_presented : (presented .reset ⟨0x1202, 0, 0, 0⟩).host = .present ⟨0x1202, 0, 0, 0⟩ :: []
    ∧ (presented .reset ⟨0x1202, 0, 0, 0⟩).faulted = false ∧ decode ⟨0x1202, 0, 0, 0⟩ = .ok (.cfgRd 0x012) := by decide
theorem witness_HostMoves : State.reset.host = []
    ∧ (({ State.reset with host := [.store 0x3FFF 1] } : State)).host = .store 0x3FFF 1 :: []
    ∧ 0x3FFF < State.reset.config.bmemSize := by decide
-- CommandsAreCounted, EveryCommandReplies, SresetFormIsExact, FaultedStateRefuses: a step that answers, for an ordinary
-- command, `SRESET`, its malformed form and a `CFG_RD`, faulted or not.
theorem witness_steps : (∃ t, step (presented .reset ⟨0, 0, 0, 0⟩) = .next t)
    ∧ (∃ t, step (presented .reset ⟨4, 0, 0, 0⟩) = .next t) ∧ (∃ t, step (presented .reset ⟨0x502, 0, 0, 0⟩) = .next t)
    ∧ (∃ t, step (presented broken ⟨0x104, 0, 0, 0⟩) = .next t) := ⟨⟨_, rfl⟩, ⟨_, rfl⟩, ⟨_, rfl⟩, ⟨_, rfl⟩⟩
theorem witness_SresetFormIsExact : field (0x104 : Word).toNat 7 0 = 4 ∧ field (4 : Word).toNat 7 0 = 4
    ∧ (⟨0x104, 0, 0, 0⟩ : Command) ≠ ⟨4, 0, 0, 0⟩ := by decide
theorem witness_ResetsLeave : ({ State.reset with host := [.powerOn] } : State).host = .powerOn :: [] := by decide
theorem witness_FaultedStateRefuses : broken.faulted = true ∧ decode ⟨0x00000202, 0, 0, 0⟩ = .ok (.cfgRd 0x002)
    ∧ regOf broken.config 0x002 = some .status ∧ decode ⟨0x00000702, 0, 0, 0⟩ = .ok (.cfgRd 0x007)
    ∧ regOf broken.config 0x007 = none := by decide
-- CfgWrWrites: a register free in a picture and a geometry register outside one.
theorem witness_CfgWrWrites : regOf (small [] []).config 0x013 = some .qpOffs ∧ Reg.qpOffs.readOnly = false
    ∧ Reg.qpOffs.geometry = false ∧ (small [] []).picActive = true ∧ regOf closed.config 0x011 = some .picSize
    ∧ Reg.picSize.geometry = true ∧ closed.picActive = false ∧ closed.faulted = false
    ∧ legalValue closed.config .qpOffs 0xFFFFFFFF = true ∧ legalValue closed.config .picSize 0x20002000 = true := by decide
-- CfgWrFaults: V8 vectors 9, 10, 14 and V7 vector 10.
theorem witness_CfgWrFaults : regOf State.reset.config 0x007 = none ∧ regOf State.reset.config 0x000 = some .id
    ∧ Reg.id.readOnly = true ∧ regOf State.reset.config 0x012 = some .format
    ∧ legalValue State.reset.config .format 0x5D0 = false ∧ legalValue State.reset.config .format 0x5C0 = true := by decide
-- RegisterSpace: both sides of each boundary of the number space, and legal and illegal values at each bound (V8 vectors
-- 11 to 26).
theorem witness_RegisterSpace_numbers : ([0x000, 0x006, 0x010, 0x01A, 0x020, 0x022, 0x024, 0x026, 0x028, 0x02A, 0x030,
      0x036].all fun n => (regOf defaultConfig n).isSome) = true
    ∧ ([0x007, 0x00F, 0x01B, 0x01F, 0x023, 0x027, 0x02B, 0x02F, 0x037, 0xFFF].all fun n => (regOf defaultConfig n).isNone) =
      true
    ∧ regOf { defaultConfig with hasLadf := false } 0x030 = none := by decide
def legal (n : BitVec 12) (v : Word) : Option Bool := (regOf defaultConfig n).map fun r => legalValue defaultConfig r v
theorem witness_RegisterSpace_values : [legal 0x010 0xF, legal 0x011 0x20002000, legal 0x012 0x7C3, legal 0x014 0xF, legal 0x015 0xFFF8, legal 0x020 0xFFFFFFFE,
      legal 0x028 0xFFFFFFE0, legal 0x02A 2, legal 0x030 5, legal 0x032 0xFF, legal 0x036 0xFFFF, legal 0x031 0xFFFFFFFF]
        = List.replicate 12 (some true)
    ∧ [legal 0x010 0x10, legal 0x011 0x0010000C, legal 0x012 0x480, legal 0x012 0x470, legal 0x012 0x880, legal 0x014 0x10,
      legal 0x015 4, legal 0x020 1, legal 0x028 0x410, legal 0x02A 1, legal 0x030 0, legal 0x030 6, legal 0x033 0x10000]
        = List.replicate 13 (some false) := by decide
-- PicStartCompletes and PicStartFaults: a geometry that fits; then one that fails each of the checks a to e.
theorem witness_PicStartCompletes : closed.faulted = false ∧ closed.picActive = false ∧ closed.GeometryFits :=
  ⟨by decide, by decide, (small_geometry [] []).sized, (small_geometry [] []).planeStrides, (small_geometry [] []).metaStride,
    (small_geometry [] []).inside, (small_geometry [] []).disjoint⟩
theorem witness_PicStartFaults_a : State.reset.faulted = false ∧ State.reset.picActive = false ∧ State.reset.picW = 0 := by
  decide
theorem witness_PicStartFaults_b : let s : State := { closed with regs := { smallRegs with planeStride0 := 0x1E } }
    s.picW ≠ 0 ∧ s.picH ≠ 0 ∧ s.planesInUse = [] ++ .y :: [] ∧ s.planeStride .y < 2 * s.planeW .y := by decide
theorem witness_PicStartFaults_c : let s : State := { closed with regs := { smallRegs with metaStride := 0x60 } }
    (∀ c ∈ s.planesInUse, 2 * s.planeW c ≤ s.planeStride c) ∧ s.regs.metaStride.toNat < 32 * (s.picW / 4) := by decide
theorem witness_PicStartFaults_d : let s : State := { closed with regs := { smallRegs with lfpBase := 0x3F02 } }
    s.regions = [s.planeRegion .y, s.metaRegion] ++ s.lfpRegion :: []
      ∧ (∀ q ∈ [s.planeRegion .y, s.metaRegion], q.stop ≤ s.config.bmemSize) ∧ s.config.bmemSize < s.lfpRegion.stop := by
  decide
theorem witness_PicStartFaults_e : let s : State := { closed with regs := { smallRegs with lfpBase := 0x4FE } }
    (∀ r ∈ s.regions, r.stop ≤ s.config.bmemSize)
      ∧ s.regions = [s.planeRegion .y] ++ s.metaRegion :: [] ++ s.lfpRegion :: []
      ∧ (∀ q ∈ s.regions, s.planeRegion .y ≠ q → ¬((s.planeRegion .y).base < q.stop ∧ q.base < (s.planeRegion .y).stop))
      ∧ s.metaRegion.base < s.lfpRegion.stop ∧ s.lfpRegion.base < s.metaRegion.stop := by decide
-- PicEndCompletes, NopCompletes, FaultsArePrecise, FaultTable, FramesOfAllCommands: runs with and without a fault.
theorem witness_exec : (∃ t, exec .nop .reset = .next t ∧ t.faulted = false)
    ∧ ∃ t, exec .picEnd .reset = .next t ∧ t.faulted = true := ⟨⟨_, rfl, rfl⟩, ⟨_, rfl, rfl⟩⟩
-- PhasesMoveByTheTable: a move by each command, the filter's at the left and the upper neighbour's edge.
theorem witness_PhasesMove : (ran (wide [(0, .verDone), (1, .bsDone)]) 0x30 1 0 0).map (fun t => t.faulted) = some false
    ∧ (ran (wide [(1, .bsDone)]) 0x30 1 0 0).map (fun t => t.faulted) = some true
    ∧ (ran (tall [(0, .horDone), (1, .verDone)]) 0x130 0x10000 0 0).map (fun t => t.picActive) = some true := by
  decide +kernel
theorem witness_HorizontalPass : (small [(0, .horDone)] []).Inv ∧ (small [(0, .horDone)] []).faulted = false
    ∧ (small [(0, .horDone)] []).phaseOf 0 = .horDone ∧ (small [(0, .horDone)] []).ctusW = 1
    ∧ (small [(0, .horDone)] []).ctusH = 1 ∧ { goodBlk with resOnly := false }.resOnly = false :=
  ⟨small_inv_hor, by decide⟩
-- ReadAfterWrite: an address outside an item.
theorem witness_ReadAfterWrite : ¬inBuffer 4 2 6 ∧ ¬inBuffer 4 2 3 ∧ inBuffer 4 2 5 := by decide
-- KernelIsMatrixProduct, ZeroInputGivesZero: the largest and the smallest kernels, the extreme shifts.
theorem witness_Kernel : kernelExists .dct2 6 = true ∧ kernelExists .dct2 1 = true ∧ kernelExists .dst7 5 = true
    ∧ kernelExists .dct8 2 = true ∧ (List.replicate 64 (0 : Int)).length = 2 ^ 6
    ∧ (∀ v ∈ List.replicate 64 (0 : Int), v = 0) := by decide
-- Itx1dCompletes at the edges of its ranges (V8: the neighbour of vector 57), and each clause of Itx1dFaults.
theorem witness_Itx1dCompletes : let o : KernelOps := ⟨.dct2, 6, 31, 64, 0x2000, 0⟩
    State.reset.faulted = false ∧ 1 ≤ o.shift.toNat ∧ 1 ≤ o.lines.toNat ∧ o.lines.toNat ≤ 64
      ∧ kernelExists o.tr o.log2N.toNat = true ∧ o.srcAddr.toNat % 2 = 0
      ∧ o.srcAddr.toNat + 2 * o.lines.toNat * 2 ^ o.log2N.toNat ≤ State.reset.config.bmemSize
      ∧ o.dstAddr.toNat % 2 = 0 ∧ o.dstAddr.toNat + 2 * o.lines.toNat * 2 ^ o.log2N.toNat ≤ State.reset.config.bmemSize := by
  decide
theorem witness_valid : State.reset.config.valid = true := defaultConfig_valid
theorem witness_Itx1dFaults : { goodKernel with lines := 65 }.lines.toNat = 65 ∧ { goodKernel with shift := 0 }.shift.toNat = 0
    ∧ { goodKernel with log2N := 1 }.log2N.toNat = 1 ∧ goodKernel.tr = .dst7
    ∧ State.reset.config.bmemSize < (0x2002 : Word).toNat + 2 * 64 * 2 ^ 6 ∧ (0x201 : Word).toNat % 2 = 1 := by decide
-- DequantFormula, DequantIsMonotoneAndBounded: a positive and a nonpositive shift.
theorem witness_Dequant : 0 < deqShift 2 2 0 8 false ∧ deqShift 2 2 32 8 false ≤ 0 ∧ (-5 : Int) ≤ 5 := by decide
-- ItxBlkStoresResidual (V8: the neighbour of vector 45) and ItxBlkReconstructs, at the edge of the plane.
theorem witness_ItxBlkStoresResidual : let o : BlkOps := ⟨.dct2, .dct2, 6, 6, 0, true, 37, 0, 0, 0x2000, 0⟩
    o.wellFormed = true ∧ noKernel o = false ∧ o.resOnly = true ∧ o.coefAddr.toNat % 2 = 0
      ∧ o.coefAddr.toNat + 2 * o.w * o.h ≤ State.reset.config.bmemSize ∧ o.resAddr.toNat % 2 = 0
      ∧ o.resAddr.toNat + 2 * o.w * o.h ≤ State.reset.config.bmemSize := by decide
theorem witness_ItxBlkReconstructs : let o : BlkOps := ⟨.dct2, .dct2, 2, 2, 0, false, 32, 12, 4, 0x1000, 0⟩
    let s := small [(0, .bsDone)] []
    s.Inv ∧ s.faulted = false ∧ o.wellFormed = true ∧ noKernel o = false ∧ o.resOnly = false ∧ s.picActive = true
      ∧ (o.comp ≠ 0 → s.chroma ≠ 0) ∧ o.x.toNat + o.w ≤ s.planeW o.plane ∧ o.y.toNat + o.h ≤ s.planeH o.plane
      ∧ (∀ cx cy, o.x.toNat * 2 ^ s.shiftX o.plane / s.ctuSize ≤ cx →
          cx ≤ (o.x.toNat + o.w - 1) * 2 ^ s.shiftX o.plane / s.ctuSize →
          o.y.toNat * 2 ^ s.shiftY o.plane / s.ctuSize ≤ cy →
          cy ≤ (o.y.toNat + o.h - 1) * 2 ^ s.shiftY o.plane / s.ctuSize →
          s.phaseOf (s.ctuIdx cx cy) = .idle ∨ s.phaseOf (s.ctuIdx cx cy) = .bsDone)
      ∧ o.coefAddr.toNat % 2 = 0 ∧ o.coefAddr.toNat + 2 * o.w * o.h ≤ s.config.bmemSize := by
  refine ⟨small_inv_bs, by decide, by decide, by decide, by decide, by decide, by decide, by decide, by decide, ?_,
    by decide, by decide⟩
  intro cx cy _ hx _ hy
  obtain rfl : cx = 0 := Nat.le_zero.mp hx
  obtain rfl : cy = 0 := Nat.le_zero.mp hy
  decide
-- The same in a chroma plane, at its far corner.
theorem witness_ItxBlkReconstructs_chroma : let o : BlkOps := ⟨.dct2, .dct2, 2, 2, 1, false, 32, 12, 4, 0x1000, 0⟩
    let s := colour [(0, .bsDone)]
    s.Inv ∧ s.faulted = false ∧ o.wellFormed = true ∧ noKernel o = false ∧ o.resOnly = false ∧ s.picActive = true
      ∧ o.comp ≠ 0 ∧ s.chroma ≠ 0 ∧ o.plane = .cb ∧ o.x.toNat + o.w = s.planeW o.plane ∧ o.y.toNat + o.h = s.planeH o.plane
      ∧ (∀ cx cy, o.x.toNat * 2 ^ s.shiftX o.plane / s.ctuSize ≤ cx →
          cx ≤ (o.x.toNat + o.w - 1) * 2 ^ s.shiftX o.plane / s.ctuSize →
          o.y.toNat * 2 ^ s.shiftY o.plane / s.ctuSize ≤ cy →
          cy ≤ (o.y.toNat + o.h - 1) * 2 ^ s.shiftY o.plane / s.ctuSize →
          s.phaseOf (s.ctuIdx cx cy) = .idle ∨ s.phaseOf (s.ctuIdx cx cy) = .bsDone)
      ∧ o.coefAddr.toNat % 2 = 0 ∧ o.coefAddr.toNat + 2 * o.w * o.h ≤ s.config.bmemSize := by
  refine ⟨colour_inv, by decide, by decide, by decide, by decide, by decide, by decide, by decide, by decide, by decide,
    by decide, ?_, by decide, by decide⟩
  intro cx cy _ hx _ hy
  obtain rfl : cx = 0 := Nat.le_zero.mp hx
  obtain rfl : cy = 0 := Nat.le_zero.mp hy
  decide
-- ItxBlkFaults, clause by clause: reserved, no kernel, no picture, outside the plane, too late, bad buffers.
theorem witness_ItxBlkFaults : let o : BlkOps := ⟨.dct2, .dct2, 2, 2, 0, false, 32, 12, 4, 0x1000, 0⟩
    let s := small [(0, .verDone)] []
    { o with comp := 3 }.comp = 3 ∧ { o with resAddr := 2 }.resAddr ≠ 0 ∧ { o with log2W := 7 }.log2W.toNat = 7
      ∧ State.reset.picActive = false ∧ s.planeW o.plane < (13 : BitVec 16).toNat + o.w
      ∧ (s.phaseOf (s.ctuIdx 0 0) = .verDone ∧ o.x.toNat * 2 ^ s.shiftX o.plane / s.ctuSize = 0
        ∧ o.y.toNat * 2 ^ s.shiftY o.plane / s.ctuSize = 0)
      ∧ s.config.bmemSize < (0x3FE2 : Word).toNat + 2 * o.w * o.h ∧ (0x3FE0 : Word).toNat + 2 * o.w * o.h ≤ s.config.bmemSize := by
  decide
-- BsCtuCompletes, BsCtuIsIdempotent, and each clause of BsCtuFaults (V4 vector 21).
theorem witness_BsCtuCompletes : (small [] records).faulted = false ∧ (small [] records).picActive = true
    ∧ 0 < (small [] records).ctusW ∧ 0 < (small [] records).ctusH ∧ (small [] records).phaseOf 0 = .idle
    ∧ ∀ g ∈ (small [] records).bsUnits 0 0, ((small [] records).metaRec g.1 g.2).malformed = false := by decide +kernel
theorem witness_BsCtuIsIdempotent : (small [] records).Inv ∧ ∃ t, exec (.bsCtu 0 0) (small [] records) = .next t
    ∧ t.accepted := by
  refine ⟨inv_cells small_inv_idle (by decide +kernel), ?_⟩
  obtain ⟨hf, hp, hx, hy, hi, hm⟩ := witness_BsCtuCompletes
  have h : exec (.bsCtu 0 0) (small [] records) = .next _ :=
    runChecked_ok (cs := bsCtuChecks (0 : BitVec 16).toNat (0 : BitVec 16).toNat (small [] records)) hf (by decide +kernel) _
  exact ⟨_, h, ⟨0, rfl⟩⟩
theorem witness_BsCtuFaults : let s := small [(0, .verDone)] (words 0x404 [0x06DB0807, 0])
    State.reset.picActive = false ∧ s.ctusW ≤ (1 : BitVec 16).toNat ∧ s.phaseOf 0 = .verDone
      ∧ (s.bsUnits 0 0).head? = some (0, 0) ∧ s.recAddr 0 0 = 0x400 ∧ s.memory.read 0x404 4 % 4 = 3 := by
  decide +kernel
-- The test of R71 at both ends of each field: well formed at 2 and 6 (2 and 7 for a CU), malformed just outside.
theorem witness_BsCtuFaults_malformed : let bad := fun m1 m2 => (MetaRec.ofWords 0 m1 m2 0 0).malformed
    let sizes := fun cw ch tw th => 2 ^ 16 * cw + 2 ^ 19 * ch + 2 ^ 22 * tw + 2 ^ 25 * th
    [bad (sizes 2 2 2 2) 2, bad (sizes 7 7 6 6 + 2) 0] = [false, false]
      ∧ [bad (sizes 2 2 2 2 + 3) 0, bad (sizes 2 2 2 2) 3, bad (sizes 1 2 2 2) 0, bad (sizes 2 1 2 2) 0, bad (sizes 2 2 1 2) 0,
        bad (sizes 2 2 7 2) 0, bad (sizes 2 2 2 1) 0, bad (sizes 2 2 2 7) 0] = List.replicate 8 true := by decide +kernel
-- BsUnitsAreTheListed and BsEntryBits: own units, the column to the left, outside, border, inside a unit, an edge.
theorem witness_BsUnits_inside : 1 < (wide []).ctusW ∧ 0 < (wide []).ctusH ∧ 0 < (tall []).ctusW ∧ 1 < (tall []).ctusH := by
  decide
theorem witness_BsUnits : (small [] []).bsUnits 0 0 = [(0, 0), (1, 0), (2, 0), (3, 0), (0, 1), (1, 1), (2, 1), (3, 1)]
    ∧ (wide []).bsUnits 1 0 = [(8, 0), (9, 0), (8, 1), (9, 1), (7, 0), (7, 1)]
    ∧ (tall []).bsUnits 0 1 = [(0, 8), (1, 8), (0, 9), (1, 9), (0, 7), (1, 7)] := by decide +kernel
theorem witness_BsEntryBits : let s := small [] records
    [s.bsEntry .ver 4 0 4 0, s.bsEntry .ver 0 0 0 0, s.bsEntry .hor 0 0 0 0, s.bsEntry .ver 1 0 1 0, s.bsEntry .ver 2 1 2 1] =
      [0x0000, 0x0700, 0x0700, 0x0000, 0x0BFE] := by decide +kernel
-- BoundaryStrengthRules: V4 vectors 1, 3, 8 and 11.
theorem witness_BoundaryStrength : let r := MetaRec.ofWords
    let v1 := r 0x00010001 0x06DB0802 0x00010002 0x00040004 0x0000FFF8
    boundaryStrength v1 (r 0x00020002 0x06DB0802 0x00010002 0x00040004 0x0000FFF8) = 0
      ∧ boundaryStrength v1 (r 0x00020002 0x06DB0802 0x00000102 0x00040004 0x0000FFF8) = 1
      ∧ boundaryStrength (r 0x00010001 0x06DB0802 1 0 0) (r 0x00020002 0x06DB0802 1 0xFFFC0000 0) = 1
      ∧ boundaryStrength (r 0x00010001 0x06DB0500 0 0 0) (r 0x00020002 0x06DB0802 1 0 0) = 2 := by decide +kernel
-- BsEntryReadsOnlyRecords: another memory that agrees on the words read (word 5 of a record differs).
theorem witness_BsEntryReadsOnlyRecords : ¬∃ x < 4, ∃ y < 2, inBuffer ((small [] []).recAddr x y) 20 0x414 := by decide
-- DbfDisabledOnlyMovesThePhase, DbfCtuFilters in both directions.
theorem witness_DbfDisabled : let s : State := { small [(0, .bsDone)] [] with regs := { smallRegs with ctrl := 0 } }
    s.faulted = false ∧ s.picActive = true ∧ (0 : BitVec 16).toNat < s.ctusW ∧ (0 : BitVec 16).toNat < s.ctusH
      ∧ s.filterTooEarly .ver 0 0 = false ∧ s.dbfEn = false := by decide
theorem witness_DbfCtuFilters (dir : Dir) : let s := small [(0, match dir with | .ver => .bsDone | .hor => .verDone)] entries
    s.faulted = false ∧ s.picActive = true ∧ 0 < s.ctusW ∧ 0 < s.ctusH ∧ s.filterTooEarly dir 0 0 = false ∧ s.dbfEn = true
      ∧ ∀ u ∈ s.insideUnits 0 0,
          s.badEntry dir (0 * s.units + u.1) (0 * s.units + u.2) (s.lfpEntry 0 0 dir u.1 u.2) = false := by
  cases dir <;> decide +kernel
theorem witness_DbfCtuFilters_inv : (small [(0, .bsDone)] entries).Inv ∧ (small [(0, .verDone)] entries).Inv :=
  ⟨inv_cells small_inv_bs (by decide +kernel), inv_cells small_inv_ver (by decide +kernel)⟩
-- DbfCtuFaults, clause by clause: no picture, outside, too early on each side, the first malformed entry.
theorem witness_DbfCtuFaults : State.reset.picActive = false ∧ (wide []).ctusW ≤ (2 : BitVec 16).toNat
    ∧ (wide [(1, .bsDone)]).phaseOf ((wide []).ctuIdx 1 0) = .bsDone
    ∧ (wide [(1, .bsDone)]).phaseOf ((wide []).ctuIdx 0 0) = .idle
    ∧ (tall [(0, .verDone), (1, .verDone)]).phaseOf ((tall []).ctuIdx 0 1) = .verDone
    ∧ (tall [(0, .verDone), (1, .verDone)]).phaseOf ((tall []).ctuIdx 0 0) ≠ .horDone := by decide
theorem witness_DbfCtuFaults_entry : let s := small [(0, .bsDone)] (halves 0 [0x0700, 0, 0x0BFF])
    s.dbfEn = true ∧ s.insideUnits 0 0 = [(0, 0), (1, 0)] ++ (2, 0) :: [(3, 0), (0, 1), (1, 1), (2, 1), (3, 1)]
      ∧ (∀ v ∈ [(0, 0), (1, 0)], s.badEntry .ver v.1 v.2 (s.lfpEntry 0 0 .ver v.1 v.2) = false)
      ∧ s.badEntry .ver 2 0 (s.lfpEntry 0 0 .ver 2 0) = true := by decide +kernel
-- Each clause of R232 at its boundary: a reserved bit, strength 3, the window at the edge of the plane on each side (8 or 4
-- deep), and an entry that is not filterable, whose window does not matter.
theorem witness_DbfCtuFaults_clauses : let bad := fun dir gx gy e => (small [] []).badEntry dir gx gy (LfpEntry.ofBits e)
    [bad .ver 2 0 0x4000, bad .ver 2 0 3, bad .ver 1 0 0x0BFE, bad .ver 3 0 0x0BFE, bad .ver 0 0 0x022A, bad .hor 0 1 0x0BFE,
      bad .hor 0 0 0x022A] = List.replicate 7 true
    ∧ [bad .ver 2 0 0x0BFE, bad .ver 1 0 0x022A, bad .ver 3 0 0x022A, bad .hor 0 1 0x022A, bad .ver 0 0 0x0700,
      bad .ver 0 0 0x0BFC] = List.replicate 6 false := by decide +kernel
-- UnfilterableSegmentsAreSkipped: a CTU with no filterable entry in the horizontal direction.
theorem witness_Unfilterable : let s := small [(0, .verDone)] entries
    ∀ u ∈ s.insideUnits 0 0, (s.lfpEntry 0 0 .hor u.1 u.2).filterable = false := by decide +kernel
-- LumaSegmentWritesItsLines: the edge at x = 8, whose 8 samples a side fill the plane; 4 deep in the other direction.
theorem witness_LumaSegment : (small [] []).GeometryFits ∧ 2 < (small [] []).picW / 4 ∧ 1 < (small [] []).picH / 4
    ∧ 8 ≤ 4 * 2 ∧ 4 * 2 + 8 = (small [] []).picW ∧ 4 ≤ 4 * 1 ∧ 4 * 1 + 4 = (small [] []).picH
    ∧ 3 < (LfpEntry.ofBits 0x0BFE).lenP ∧ ¬3 < (LfpEntry.ofBits 0x022A).lenP := ⟨small_geometry _ _, by decide⟩
-- RecordAndEntryLayout: the first record of P2 (R70) and an entry of every field (R72).
theorem witness_Layout : (let r := (small [] records).metaRec 2 1
      [r.cuId, r.tuId, r.predMode, r.qp, r.log2CuW, r.log2CuH, r.log2TuW, r.log2TuH] = [2, 2, 0, 32, 3, 3, 3, 3] ∧ r.cbfY = true)
    ∧ LfpEntry.ofBits 0x9A75 = ⟨1, 5, 3, false, true, false, true, true, false, 2⟩ := by decide +kernel
-- ChromaSegmentWritesItsLines: both directions; a segment whose plane is filtered and one off the chroma grid.
theorem witness_ChromaSegment : let s := colour [(0, .bsDone)]
    s.GeometryFits ∧ s.chroma ≠ 0 ∧ 4 < s.picW / 4 ∧ 3 < s.picH / 4
      ∧ s.chromaApplies .ver 16 12 (LfpEntry.ofBits 0x0BFE) .cb = true
      ∧ s.chromaApplies .ver 16 0 (LfpEntry.ofBits 0x1BFD) .cb = true
      ∧ s.chromaApplies .ver 16 0 (LfpEntry.ofBits 0x1BFD) .cr = false
      ∧ s.chromaApplies .ver 8 0 (LfpEntry.ofBits 0x0BFE) .cb = false
      ∧ s.chromaApplies .hor 0 8 (LfpEntry.ofBits 0x0BFE) .cr = false := ⟨colour_geometry, by decide⟩
-- LumaFilterFormulas: both sides of the gate (V5 vectors 4 and 7).
theorem witness_LumaFilter : |((9 * (128 - 120) - 3 * (128 - 120) + 8) / 16 : Int)| < 10 * 3
    ∧ 10 * 3 ≤ |((9 * (200 - 100) - 3 * (200 - 100) + 8) / 16 : Int)| := by decide
-- LumaSelection: each choice (V5 vectors 3 and 4; a rough line).
theorem witness_LumaSelection : let flat := fun (a b : Int) => List.replicate 4 (⟨List.replicate 8 a, List.replicate 8 b⟩ : Line)
    lumaChoice (flat 120 127) 7 7 26 3 = .strong ∧ lumaChoice (flat 120 128) 7 7 26 3 = .weak true true
      ∧ lumaChoice (List.replicate 4 ⟨[0, 100, 0, 0], [0, 0, 0, 0]⟩) 3 3 26 3 = .off := by decide +kernel
-- LumaChangesAreBounded, FlatDataIsUnchanged: a line of legal samples, a flat one, and one that only its range clause covers
-- (a stored sample above 255: U19).
theorem witness_LumaRange : filterLine defaultConfig 8 3 7 7 .strong ⟨List.replicate 8 300, List.replicate 8 300⟩ =
    ⟨[255, 255, 255], [255, 255, 255]⟩ := by decide +kernel
theorem witness_LumaLines : let l : Line := ⟨[0, 255, 0, 255], [255, 0, 255, 0]⟩
    l.p.length ≥ 4 ∧ l.q.length ≥ 4 ∧ (∀ v ∈ l.p ++ l.q, 0 ≤ v ∧ v ≤ (2 ^ 8 - 1 : Int))
      ∧ ∀ x ∈ List.replicate 4 (128 : Int) ++ List.replicate 4 128, x = 128 := by decide
-- Thresholds: QP 37 at 10 bits, strength 2 (V5 vector 1), and its Inv.
theorem witness_Thresholds : let s : State := { small [] [] with regs := { smallRegs with format := 0x5A0 } }
    s.beta 37 = 144 ∧ s.tc 37 2 = 21 ∧ (small [] []).beta 32 = 26 ∧ (small [] []).tc 32 2 = 3 := by decide +kernel
-- AdaptiveQpOffset: three intervals, the level in each (the adaptive offset example of spec/95_test_vectors.md).
theorem witness_AdaptiveQpOffset : let s : State := { State.reset with regs := { smallRegs with
        ctrl := 9, ladfCfg := 3, ladfOffsA := 0x00FA0003, ladfThresh1 := 64, ladfThresh2 := 150 } }
    let lines := fun (a b : Int) => List.replicate 4 (⟨[a], [b]⟩ : Line)
    s.ladfEn = true ∧ s.ladfIntervals = 3 ∧ s.qpLuma 32 (lines 40 44) = 35 ∧ s.qpLuma 32 (lines 200 206) = 26
      ∧ s.qpLuma 32 (lines 120 120) = 32 ∧ State.reset.ladfEn = false := by decide +kernel
-- ChromaFilterRules: V6 vectors 8, 9 and 10; when a plane is filtered.
theorem witness_ChromaFilter : chromaFilter 10 10 ⟨[500, 500], [520, 520]⟩ = ⟨[508], [512]⟩
    ∧ chromaFilter 10 15 ⟨[1020, 1023], [1000, 990]⟩ = ⟨[1014], [1006]⟩
    ∧ chromaFilter 8 25 ⟨[2, 0], [30, 40]⟩ = ⟨[11], [21]⟩ ∧ Plane.cb ≠ .y := by decide +kernel
-- StepKeepsInv, StepsWriteInsideBmem: a state that meets both and steps.
theorem witness_StepKeepsInv : (small [] []).Inv ∧ (small [] []).Contained ∧ ∃ t, step (small [] []) = .next t :=
  ⟨small_inv_idle, by intro c h; exact absurd h (List.not_mem_nil), ⟨_, rfl⟩⟩

end Sys2Proof.Tests
end

namespace Sys2Proof.Machine

/-! ## Little-endian memory access -/

/-- The unit of R12's item lengths: `n` bytes are `8 n` bits. -/
theorem pow256_eq (n : Nat) : 256 ^ n = 2 ^ (8 * n) := Nat.pow_mul 2 8 n |>.symm

/-- R61: byte `k` of a stored item is bits `8k+7..8k` of the value. -/
theorem Memory.readByte_write_inside {n k : Nat} (m : Memory) (a v : Nat) (h : k < n) :
    (m.write a n v).readByte (a + k) = BitVec.ofNat 8 (v / 2 ^ (8 * k)) := by
  have hin : inBuffer a n (a + k) := ⟨Nat.le_add_right a k, Nat.add_lt_add_left h a⟩
  rw [Memory.readByte_write, if_pos hin, Nat.add_sub_cancel_left, pow256_eq]

/-- Settles O26: the three clauses are the read-after-write law of the item, its bytes, and its frame. -/
theorem readAfterWrite : Obligations.ReadAfterWrite := by
  intro m a n v
  refine ⟨?_, fun k hk => Memory.readByte_write_inside m a v hk, fun x hx => Memory.readByte_write_outside m v hx⟩
  rw [Memory.read_write_same, pow256_eq]

end Sys2Proof.Machine

namespace Sys2Proof.Machine

/-! ## The invariant under each state a step can lead to (R37 to R39, R290, R291) -/

/-- R290: the record of a fault entry is one the invariant allows, since its code is one of R286. -/
theorem State.Inv.afterFault {s : State} (h : s.Inv) {k : Nat} (hk : 1 ≤ k ∧ k ≤ 10) (info : Nat) :
    (s.afterFault k info).Inv := by
  have hcode : (BitVec.ofNat 8 k).toNat = k := by
    rw [BitVec.toNat_ofNat]
    omega
  have hrecorded : 1 ≤ (BitVec.ofNat 8 k).toNat ∧ (BitVec.ofNat 8 k).toNat ≤ 10 := hcode.symm ▸ hk
  exact ⟨h.config, h.memory, h.legal, hrecorded, h.outside, h.phasesRise, h.phasesListed,
    fun hp => SameGeometry.fits (s := s) ⟨rfl, fun _ _ => rfl⟩ (h.picture hp), h.directions, h.leftFirst, h.topFirst⟩

/-- R37: legal registers that leave the geometry alone keep the invariant, in a picture and outside one. -/
theorem State.Inv.setRegs {s : State} (h : s.Inv) {g : Regs} (hg : SameGeometry s (s.setRegs g))
    (hl : ∀ r : Reg, r.readOnly = false → legalValue s.config r (g.get r) = true) : (s.setRegs g).Inv := by
  refine ⟨h.config, h.memory, hl, h.recorded, h.outside, h.phasesRise, ?_, fun hp => hg.fits (h.picture hp), ?_, ?_, ?_⟩
  · rw [hg.ctusW, hg.ctusH]
    exact h.phasesListed
  · rw [hg.ctusW, hg.ctusH]
    exact h.directions
  · simp only [hg.ctusW, hg.ctusH, hg.ctuIdx]
    exact h.leftFirst
  · simp only [hg.ctusW, hg.ctusH, hg.ctuIdx]
    exact h.topFirst

/-- The checks of `CFG_WR` on an existing register pass (R271). -/
theorem cfgWrChecks_pass {r : Reg} {reg : BitVec 12} {value : Word} {s : State} :
    (∀ x ∈ cfgWrChecks r reg value s, x = none) ↔
      r.readOnly = false ∧ (r.geometry = true → s.picActive = false) ∧ legalValue s.config r value = true := by
  simp [cfgWrChecks]

/-- R271: an accepted write keeps the invariant. In a picture the register is not of the geometry class; outside one no
phase is listed, so any legal geometry will do. -/
theorem State.Inv.writeReg {s : State} (h : s.Inv) {r : Reg} {value : Word} (hro : r.readOnly = false)
    (hgeo : r.geometry = true → s.picActive = false) (hv : legalValue s.config r value = true) :
    (s.setRegs (s.regs.set value r)).Inv := by
  have hl : ∀ r' : Reg, r'.readOnly = false → legalValue s.config r' ((s.regs.set value r).get r') = true := by
    intro r' hr'
    rw [Regs.get_set hro]
    split
    · next heq => exact heq ▸ hv
    · exact h.legal r' hr'
  by_cases hp : s.picActive = true
  · refine h.setRegs ⟨rfl, fun r' hr' => ?_⟩ hl
    have hne : r' ≠ r := fun heq => absurd hp (by simp [hgeo (heq ▸ hr')])
    exact (Regs.get_set hro).trans (if_neg hne)
  · have hp : s.picActive = false := Bool.eq_false_iff.mpr hp
    have hsame : s.setRegs (s.regs.set value r) =
        { s with regs := s.regs.set value r, picActive := false, phase := [] } := by
      rw [State.setRegs, ← hp, ← h.outside hp]
    exact hsame ▸ h.noPhases hl false (fun hf => absurd hf (by simp))

/-- R273, R274: the brackets of a picture keep the invariant when the geometry fits at the opening one. -/
theorem State.Inv.setPicture {s : State} (h : s.Inv) (b : Bool) (hb : b = true → s.GeometryFits) : (s.setPicture b).Inv :=
  h.noPhases h.legal b fun ht => SameGeometry.fits (s := s) ⟨rfl, fun _ _ => rfl⟩ (hb ht)

/-! ## The invariant under each command -/

/-- The effect of every command whose checks pass keeps the invariant. -/
theorem okState_keeps_inv {s : State} (h : s.Inv) (i : Instr) (hc : ∀ x ∈ checksOf i s, x = none) :
    (okState i s).Inv := by
  have hwf := okState_wf i h.memory
  cases i with
  | nop => exact h
  | cfgRd reg => exact h
  | cfgWr reg value =>
    cases hr : regOf s.config reg with
    | none => simpa only [okState, hr] using h
    | some r =>
      simp only [checksOf, hr] at hc
      obtain ⟨hro, hgeo, hv⟩ := cfgWrChecks_pass.mp hc
      simpa only [okState, hr] using h.writeReg hro hgeo hv
  | picStart =>
    have hfits := picStartChecks_pass.mp fun x hx => hc x (List.mem_cons_of_mem _ hx)
    exact h.setPicture true fun _ => hfits
  | picEnd => exact h.setPicture false fun hf => absurd hf (by simp)
  | sreset => exact State.Inv.atReset s.config h.config s.host s.latch none s.memory h.memory
  | itxBlk o =>
    rw [okState, itxBlkEffect_eq]
    exact h.setMemory hwf
  | itx1d o => exact h.setMemory hwf
  | bsCtu cx cy =>
    obtain ⟨hp, ⟨hx, hy⟩, hearly, -⟩ := bsCtuChecks_pass.mp hc
    rw [okState, bsCtuEffect_eq]
    exact (h.setMemory hwf).setPhase hp hx hy (.inl ⟨rfl, hearly⟩)
  | dbfCtu dir cx cy =>
    obtain ⟨hp, ⟨hx, hy⟩, hin, -⟩ := dbfCtuChecks_pass.mp hc
    rw [okState, dbfCtuEffect_eq]
    refine (h.setMemory hwf).setPhase hp hx hy (.inr ?_)
    cases dir with
    | ver => exact .inl ⟨rfl, State.verInTime.mp hin⟩
    | hor =>
      obtain ⟨hver, hall, habove⟩ := State.horInTime.mp hin
      refine .inr ⟨rfl, hver, fun j hj => ?_, habove⟩
      obtain ⟨x, hx', y, hy', rfl⟩ := State.ctuIdx_surj (s := s) hj
      exact State.allPhases_iff.mp hall x hx' y hy'

/-- Every command keeps the invariant, whatever its reply. -/
theorem exec_keeps_inv {s t : State} (h : s.Inv) (i : Instr) (ht : exec i s = .next t) : t.Inv := by
  rcases exec_cases i s with ⟨-, he⟩ | ⟨reg, r, -, -, he⟩ | ⟨-, he⟩ | ⟨r, -, -, he⟩ | ⟨-, hc, he⟩ <;>
    obtain rfl := Host.Outcome.next.inj (he.symm.trans ht)
  · exact State.Inv.atReset s.config h.config s.host s.latch (some ⟨0, 0⟩) s.memory h.memory
  · exact h.report ..
  · exact h.report ..
  · exact h.afterFault r.cause.code_range r.info
  · exact (okState_keeps_inv h i hc).report ..

/-- A command that does not decode keeps the invariant (R99, R291). -/
theorem illegalCommand_keeps_inv {s t : State} (h : s.Inv) (ht : illegalCommand s = .next t) : t.Inv := by
  obtain rfl := Host.Outcome.next.inj ((illegalCommand_eq s).symm.trans ht)
  split
  · exact h.report ..
  · exact h.afterFault (by decide) _

/-- A host store inside `BMEM` keeps the invariant (R74). -/
theorem hostStore_keeps_inv {s t : State} (h : s.Inv) {a : Nat} {b : Byte} {rest : List HostMove}
    (ht : hostStore a b rest s = .next t) : t.Inv := by
  unfold hostStore at ht
  split at ht
  · obtain rfl := Host.Outcome.next.inj ht
    exact (h.setMemory (Memory.wf_writeByte h.memory a b)).report ..
  · exact absurd ht (by simp)

/-- Settles O57, by the host's next move: a presented command by `exec_keeps_inv`, the others by the lemma of each. -/
theorem stepKeepsInv : Obligations.StepKeepsInv := by
  intro s t h ht
  cases hh : s.host with
  | nil =>
    obtain rfl : s = t := by simpa [step, hh] using ht
    exact h
  | cons move rest =>
    cases move with
    | present c =>
      have hpres : (s.present c rest).Inv := h.report ..
      cases hd : decode c with
      | ok i => exact exec_keeps_inv hpres i ((step_present hh hd).symm.trans ht)
      | error e => exact illegalCommand_keeps_inv hpres ((step_illegal hh hd).symm.trans ht)
    | store a b => exact hostStore_keeps_inv h (a := a) (b := b) (rest := rest) (by simpa only [step, hh] using ht)
    | powerOn =>
      obtain rfl : s.powerOn rest = t := by simpa [step, hh] using ht
      exact State.Inv.atReset s.config h.config rest ⟨0, 0, 0, 0⟩ none ⟨s.memory.epoch + 1, []⟩ List.Pairwise.nil

end Sys2Proof.Machine

namespace Sys2Proof.Machine

/-! ## The count of commands (R40) -/

/-- R91: the one form that decodes to `SRESET`. -/
theorem decode_eq_sreset {c : Command} : decode c = .ok .sreset ↔ c = ⟨4, 0, 0, 0⟩ := by
  constructor
  · intro h
    have hrow : c.opcode = 4 ∧ decodeS c .sreset = .ok .sreset := by
      rcases decode_ok_cases h with ⟨-, h⟩ | ⟨-, h⟩ | ⟨-, h⟩ | ⟨-, h⟩ | h | ⟨-, h⟩ | ⟨-, h⟩ | ⟨-, h⟩ | ⟨-, h⟩ | ⟨-, h⟩
      case inr.inr.inr.inr.inl => exact h
      all_goals simp [decodeS, decodeCfgWr, decodeCfgRd, decodeItxBlk, decodeItx1d, decodeBsCtu, decodeDbfCtu] at h
    obtain ⟨hop, hrest⟩ := hrow
    simp only [decodeS, rowIf_eq_ok, Bool.and_eq_true, beq_iff_eq, and_true] at hrest
    obtain ⟨⟨⟨hhigh, h1⟩, h2⟩, h3⟩ := hrest
    have h0 : c.w0 = 4 := by
      have hlow : c.w0.toNat % 2 ^ 8 = 4 := by simpa [Command.opcode, Command.bits] using congrArg BitVec.toNat hop
      have hup : c.w0.toNat / 2 ^ 8 % 2 ^ 24 = 0 := by
        simpa [Command.bits, Nat.shiftRight_eq_div_pow] using congrArg BitVec.toNat hhigh
      exact BitVec.eq_of_toNat_eq (by simp; omega)
    obtain ⟨w0, w1, w2, w3⟩ := c
    simp_all
  · rintro rfl
    rfl

/-- Every command but `SRESET` is counted (R40): refused, faulting or completed. -/
theorem exec_cmdCount {i : Instr} {s t : State} (hi : i ≠ .sreset) (ht : exec i s = .next t) :
    t.cmdCount = s.cmdCount + 1 := by
  rcases exec_cases i s with ⟨rfl, -⟩ | ⟨reg, r, -, -, he⟩ | ⟨-, he⟩ | ⟨r, -, -, he⟩ | ⟨-, -, he⟩
  · exact absurd rfl hi
  all_goals obtain rfl := Host.Outcome.next.inj (he.symm.trans ht)
  · rfl
  · rfl
  · rfl
  · exact congrArg (· + 1) (okState_sameOutside hi s).cmdCount

/-- A command that does not decode is counted (R40). -/
theorem illegalCommand_cmdCount {s t : State} (ht : illegalCommand s = .next t) : t.cmdCount = s.cmdCount + 1 := by
  obtain rfl := Host.Outcome.next.inj ((illegalCommand_eq s).symm.trans ht)
  split <;> rfl

/-- A presented command that is not the exact `SRESET` is counted (R40). -/
theorem step_cmdCount {s t : State} {c : Command} {rest : List HostMove} (hh : s.host = .present c :: rest)
    (hc : c ≠ ⟨4, 0, 0, 0⟩) (ht : step s = .next t) : t.cmdCount = s.cmdCount + 1 := by
  cases hd : decode c with
  | error e => exact illegalCommand_cmdCount (s := s.present c rest) ((step_illegal hh hd).symm.trans ht)
  | ok i =>
    have hi : i ≠ .sreset := fun hi => hc (decode_eq_sreset.mp (hi ▸ hd))
    exact exec_cmdCount (s := s.present c rest) hi ((step_present hh hd).symm.trans ht)

/-- Settles O7: the three clauses are `step_cmdCount`, the reset value of the count, and the reply of `CFG_RD`. -/
theorem commandsAreCounted : Obligations.CommandsAreCounted := by
  intro s t c rest hh ht
  refine ⟨fun hc => ?_, ?_, ?_⟩
  · rw [step_cmdCount hh hc ht, BitVec.toNat_add]
    rfl
  · rintro rfl
    obtain rfl := Host.Outcome.next.inj ((step_present hh (decode_eq_sreset.mpr rfl)).symm.trans ht)
    rfl
  · rintro rfl
    have hd : decode ⟨0x00000502, 0, 0, 0⟩ = .ok (.cfgRd 0x005) := by decide
    have hr : regOf s.config 0x005 = some .cmdCount := rfl
    have he := execCfgRd_exists (s := s.present ⟨0x00000502, 0, 0, 0⟩ rest) hr
    obtain rfl := Host.Outcome.next.inj (he.symm.trans ((step_present hh hd).symm.trans ht))
    rfl

/-! ## The bits of `STATUS` (R23) -/

/-- The five flags of a status word, from bit 0 up, and nothing above them. -/
theorem flags_of_statusBits (hor ver bs active faulted : Bool) :
    let w := (0#27 ++ BitVec.ofBool hor ++ BitVec.ofBool ver ++ BitVec.ofBool bs ++ BitVec.ofBool active
      ++ BitVec.ofBool faulted : Word).toNat
    w < 2 ^ 5 ∧ flag w 0 = faulted ∧ flag w 1 = active ∧ flag w 2 = bs ∧ flag w 3 = ver ∧ flag w 4 = hor := by
  revert hor ver bs active faulted
  decide

theorem Phase.one_le_rank {p : Phase} : 1 ≤ p.rank ↔ p ≠ .idle := by
  rw [Nat.one_le_iff_ne_zero, ne_eq, Phase.rank_eq_zero]

theorem State.allBs_iff {s : State} : s.allBs = true ↔ s.picActive = true ∧
    ∀ cx < s.ctusW, ∀ cy < s.ctusH, s.phaseOf (s.ctuIdx cx cy) ≠ .idle := by
  simp only [State.allBs, Bool.and_eq_true, State.allPhases_iff, Phase.one_le_rank]

theorem State.allVer_iff {s : State} : s.allVer = true ↔ s.picActive = true ∧
    ∀ cx < s.ctusW, ∀ cy < s.ctusH, s.phaseOf (s.ctuIdx cx cy) = .verDone ∨ s.phaseOf (s.ctuIdx cx cy) = .horDone := by
  simp only [State.allVer, Bool.and_eq_true, State.allPhases_iff, Phase.two_le_rank]

theorem State.allHor_iff {s : State} : s.allHor = true ↔ s.picActive = true ∧
    ∀ cx < s.ctusW, ∀ cy < s.ctusH, s.phaseOf (s.ctuIdx cx cy) = .horDone := by
  simp only [State.allHor, Bool.and_eq_true, State.allPhases_iff, Phase.three_le_rank]

/-- Settles O16: the bits of the concatenation, and what each summary bit says of the phases. -/
theorem statusBits : Obligations.StatusBits := by
  intro s
  obtain ⟨hlt, h0, h1, h2, h3, h4⟩ := flags_of_statusBits s.allHor s.allVer s.allBs s.picActive s.faulted
  exact ⟨hlt, h0, h1, (Bool.eq_iff_iff.mp h2).trans State.allBs_iff, (Bool.eq_iff_iff.mp h3).trans State.allVer_iff,
    (Bool.eq_iff_iff.mp h4).trans State.allHor_iff⟩

/-! ## What each command leaves unchanged (R39, R120, R276, R292) -/

/-- The effects that write `BMEM` are those of the four working commands. -/
theorem okState_memory (i : Instr) (s : State) : (okState i s).memory = s.memory ∨ (∃ o, i = .itxBlk o) ∨
    (∃ o, i = .itx1d o) ∨ (∃ cx cy, i = .bsCtu cx cy) ∨ ∃ dir cx cy, i = .dbfCtu dir cx cy := by
  cases i with
  | cfgWr reg value => exact .inl (by simp only [okState]; split <;> rfl)
  | itxBlk o => exact .inr (.inl ⟨o, rfl⟩)
  | itx1d o => exact .inr (.inr (.inl ⟨o, rfl⟩))
  | bsCtu cx cy => exact .inr (.inr (.inr (.inl ⟨cx, cy, rfl⟩)))
  | dbfCtu dir cx cy => exact .inr (.inr (.inr (.inr ⟨dir, cx, cy, rfl⟩)))
  | nop | cfgRd | picStart | picEnd | sreset => exact .inl rfl

/-- `PIC_ACTIVE` is moved by the picture brackets and `SRESET` alone. -/
theorem okState_picActive (i : Instr) (s : State) : (okState i s).picActive = s.picActive ∨ i = .sreset ∨
    (i = .picStart ∧ (okState i s).picActive = true) ∨ (i = .picEnd ∧ (okState i s).picActive = false) := by
  cases i with
  | cfgWr reg value => exact .inl (by simp only [okState]; split <;> rfl)
  | itxBlk o => exact .inl (by rw [okState, itxBlkEffect_eq]; rfl)
  | dbfCtu dir cx cy => exact .inl (by rw [okState, dbfCtuEffect_eq]; rfl)
  | picStart => exact .inr (.inr (.inl ⟨rfl, rfl⟩))
  | picEnd => exact .inr (.inr (.inr ⟨rfl, rfl⟩))
  | sreset => exact .inr (.inl rfl)
  | nop | cfgRd | itx1d | bsCtu => exact .inl rfl

/-- `PHASE` is moved by the picture brackets, `SRESET` and the two CTU commands alone. -/
theorem okState_phase (i : Instr) (s : State) : (okState i s).phase = s.phase ∨ i = .sreset ∨ i = .picStart ∨
    i = .picEnd ∨ (∃ cx cy, i = .bsCtu cx cy) ∨ ∃ dir cx cy, i = .dbfCtu dir cx cy := by
  cases i with
  | cfgWr reg value => exact .inl (by simp only [okState]; split <;> rfl)
  | itxBlk o => exact .inl (by rw [okState, itxBlkEffect_eq]; rfl)
  | sreset => exact .inr (.inl rfl)
  | picStart => exact .inr (.inr (.inl rfl))
  | picEnd => exact .inr (.inr (.inr (.inl rfl)))
  | bsCtu cx cy => exact .inr (.inr (.inr (.inr (.inl ⟨cx, cy, rfl⟩))))
  | dbfCtu dir cx cy => exact .inr (.inr (.inr (.inr (.inr ⟨dir, cx, cy, rfl⟩))))
  | nop | cfgRd | itx1d => exact .inl rfl

/-- Registers are written by `CFG_WR` and `SRESET` alone. -/
theorem okState_regs_cases (i : Instr) (s : State) :
    (okState i s).regs = s.regs ∨ i = .sreset ∨ ∃ reg value, i = .cfgWr reg value := by
  by_cases h1 : i = .sreset
  · exact .inr (.inl h1)
  by_cases h2 : ∃ reg value, i = .cfgWr reg value
  · exact .inr (.inr h2)
  · exact .inl (okState_regs h1 (fun reg value h => h2 ⟨reg, value, h⟩) s)

/-- Settles O23, by what a command can do: a reset; a reply that changes nothing named here; a fault entry, which writes
the record of a block not yet faulted; or the effect, framed by the lemmas above. -/
theorem framesOfAllCommands : Obligations.FramesOfAllCommands := by
  intro i s t ht
  by_cases hi : i = .sreset
  · subst hi
    obtain rfl := Host.Outcome.next.inj ((execSreset_eq s).symm.trans ht)
    exact ⟨rfl, rfl, rfl, .inr (.inl rfl), .inl rfl, .inr (.inl rfl), .inr (.inl rfl), .inr (.inl rfl)⟩
  rcases exec_cases i s with ⟨hs, -⟩ | ⟨reg, r, -, -, he⟩ | ⟨-, he⟩ | ⟨r, hf, -, he⟩ | ⟨-, -, he⟩
  · exact absurd hs hi
  all_goals obtain rfl := Host.Outcome.next.inj (he.symm.trans ht)
  · exact ⟨rfl, rfl, rfl, .inl rfl, .inl rfl, .inl rfl, .inl rfl, .inl ⟨rfl, rfl, rfl, rfl⟩⟩
  · exact ⟨rfl, rfl, rfl, .inl rfl, .inl rfl, .inl rfl, .inl rfl, .inl ⟨rfl, rfl, rfl, rfl⟩⟩
  · exact ⟨rfl, rfl, rfl, .inl rfl, .inl rfl, .inl rfl, .inl rfl, .inr (.inr ⟨hf, rfl⟩)⟩
  · have h := okState_sameOutside hi s
    exact ⟨h.config, h.host, h.latch, okState_regs_cases i s, okState_memory i s, okState_picActive i s,
      okState_phase i s, .inl ⟨h.faulted, h.faultCause, h.faultInfo, h.faultW0⟩⟩

end Sys2Proof.Machine

namespace Sys2Proof.Machine

/-! ## The register numbers (R22 to R36) -/

/-- The number of a register, as R23 to R36 give it; `valueAt_regMap` ties it to the register map. -/
def Reg.number : Reg → Nat
  | .id => 0x000
  | .cap => 0x001
  | .status => 0x002
  | .faultCause => 0x003
  | .faultInfo => 0x004
  | .cmdCount => 0x005
  | .faultW0 => 0x006
  | .ctrl => 0x010
  | .picSize => 0x011
  | .format => 0x012
  | .qpOffs => 0x013
  | .vbCfg => 0x014
  | .vbX0 => 0x015
  | .vbX1 => 0x016
  | .vbX2 => 0x017
  | .vbY0 => 0x018
  | .vbY1 => 0x019
  | .vbY2 => 0x01A
  | .planeBase0 => 0x020
  | .planeBase1 => 0x021
  | .planeBase2 => 0x022
  | .planeStride0 => 0x024
  | .planeStride1 => 0x025
  | .planeStride2 => 0x026
  | .metaBase => 0x028
  | .metaStride => 0x029
  | .lfpBase => 0x02A
  | .ladfCfg => 0x030
  | .ladfOffsA => 0x031
  | .ladfOffsB => 0x032
  | .ladfThresh1 => 0x033
  | .ladfThresh2 => 0x034
  | .ladfThresh3 => 0x035
  | .ladfThresh4 => 0x036

/-- The register map lists each register at its number, and nothing else. -/
theorem valueAt_regMap {k : Nat} {r : Reg} : valueAt k regMap = some r ↔ k = r.number := by
  constructor
  · intro h
    have hall : ∀ e ∈ regMap, e.1 = e.2.number := by decide
    exact hall _ (valueAt_mem h)
  · rintro rfl
    cases r <;> rfl

theorem Reg.eq_of_number_eq {r r' : Reg} (h : r.number = r'.number) : r = r' :=
  Option.some.inj ((valueAt_regMap.mpr h).symm.trans (valueAt_regMap.mpr rfl)).symm

/-- R34: a number holds a register when it is that register's and, for the `LADF_*` ones, `HAS_LADF` is 1. -/
theorem regOf_eq_some_iff_number {cfg : Config} {n : BitVec 12} {r : Reg} :
    regOf cfg n = some r ↔ n.toNat = r.number ∧ (r.isLadf = true → cfg.hasLadf = true) := by
  rw [regOf_eq_some, valueAt_regMap]

/-- The numbers that hold a register whatever `HAS_LADF` is (R22 to R33). -/
abbrev commonNumber (k : Nat) : Prop :=
  k ≤ 0x006 ∨ (0x010 ≤ k ∧ k ≤ 0x01A) ∨ (0x020 ≤ k ∧ k ≤ 0x022) ∨ (0x024 ≤ k ∧ k ≤ 0x026) ∨ (0x028 ≤ k ∧ k ≤ 0x02A)

/-- The numbers of the `LADF_*` registers (R34). -/
abbrev ladfNumber (k : Nat) : Prop := 0x030 ≤ k ∧ k ≤ 0x036

theorem Reg.commonNumber_number {r : Reg} : r.isLadf = false → commonNumber r.number := by
  cases r <;> decide

theorem Reg.ladfNumber_number {r : Reg} : r.isLadf = true → ladfNumber r.number := by
  cases r <;> decide

/-- Every common number is that of a register. -/
theorem exists_reg_of_commonNumber {k : Nat} (h : commonNumber k) : ∃ r : Reg, k = r.number ∧ r.isLadf = false := by
  have hall : ∀ k < 0x02B, commonNumber k → (valueAt k regMap).any (fun r => !r.isLadf) = true := by decide
  obtain ⟨r, hr, hl⟩ := (Option.any_eq_true ..).mp (hall k (by omega) h)
  exact ⟨r, valueAt_regMap.mp hr, by simpa using hl⟩

/-- Every number of R34 is that of an `LADF_*` register. -/
theorem exists_reg_of_ladfNumber {k : Nat} (h : ladfNumber k) : ∃ r : Reg, k = r.number ∧ r.isLadf = true := by
  have hall : ∀ k < 0x037, ladfNumber k → (valueAt k regMap).any Reg.isLadf = true := by decide
  obtain ⟨r, hr, hl⟩ := (Option.any_eq_true ..).mp (hall k (by omega) h)
  exact ⟨r, valueAt_regMap.mp hr, hl⟩

/-- Which numbers hold a register under given parameters (R22, R34). -/
theorem regOf_isSome_iff {cfg : Config} {n : BitVec 12} :
    (∃ r, regOf cfg n = some r) ↔ commonNumber n.toNat ∨ (ladfNumber n.toNat ∧ cfg.hasLadf = true) := by
  simp only [regOf_eq_some_iff_number]
  constructor
  · rintro ⟨r, hn, hl⟩
    rw [hn]
    cases h : r.isLadf with
    | false => exact .inl (Reg.commonNumber_number h)
    | true => exact .inr ⟨Reg.ladfNumber_number h, hl h⟩
  · rintro (h | ⟨h, hcfg⟩)
    · obtain ⟨r, hn, hl⟩ := exists_reg_of_commonNumber h
      exact ⟨r, hn, fun ht => absurd ht (by simp [hl])⟩
    · obtain ⟨r, hn, -⟩ := exists_reg_of_ladfNumber h
      exact ⟨r, hn, fun _ => hcfg⟩

/-! ## The classes (R22, R37) -/

theorem Reg.readOnly_iff_number {r : Reg} : r.readOnly = true ↔ r.number ≤ 0x00F := by
  cases r <;> decide

theorem Reg.geometry_iff_number {r : Reg} :
    r.geometry = true ↔ r.number = 0x011 ∨ r.number = 0x012 ∨ (0x014 ≤ r.number ∧ r.number ≤ 0x02A) := by
  cases r <;> decide

/-! ## The legal values (R271), class of registers by class -/

section
variable (cfg : Config) (w : Word)

/-- R24. -/
theorem legalValue_ctrl : legalValue cfg .ctrl w = true ↔ w.toNat < 16 ∧ (8 ≤ w.toNat → cfg.hasLadf = true) := by
  have hw : w.toNat < 2 ^ 32 := w.isLt
  have hflag : flag w.toNat 3 = false ↔ w.toNat / 8 % 2 = 0 := by
    rw [← Bool.not_eq_true, flag_iff]
    omega
  rw [legalValue, Bool.and_eq_true, beq_iff_eq, Bool.or_eq_true, Bool.not_eq_true', hflag,
    field_top (by omega) (by omega)]
  cases cfg.hasLadf
  · simp only [Bool.false_eq_true, false_or, imp_false]
    omega
  · simp only [true_or, implies_true, and_true]
    omega

/-- R25. -/
theorem legalValue_picSize : legalValue cfg .picSize w = true ↔
    (w.toNat % 2 ^ 16 % 8 = 0 ∧ w.toNat % 2 ^ 16 ≤ cfg.maxPicW) ∧
      (w.toNat / 2 ^ 16 % 8 = 0 ∧ w.toNat / 2 ^ 16 ≤ cfg.maxPicH) := by
  have hw : w.toNat < 2 ^ 32 := w.isLt
  simp only [legalValue, Bool.and_eq_true, beq_iff_eq, decide_eq_true_eq, field_zero,
    field_top (hi := 31) (lo := 16) hw (by omega), and_assoc]

/-- R26. -/
theorem legalValue_format : legalValue cfg .format w = true ↔ w.toNat < 2 ^ 11 ∧ w.toNat / 4 % 4 = 0 ∧
    (8 ≤ w.toNat / 16 % 16 ∧ w.toNat / 16 % 16 ≤ 12) ∧ (5 ≤ w.toNat / 256 ∧ w.toNat / 256 ≤ 7) := by
  have hw : w.toNat < 2 ^ 32 := w.isLt
  simp only [legalValue, Bool.and_eq_true, beq_iff_eq, decide_eq_true_eq]
  simp only [field, Nat.reduceAdd, Nat.reduceSub, Nat.reducePow]
  omega

/-- R28. -/
theorem legalValue_vbCfg : legalValue cfg .vbCfg w = true ↔ w.toNat < 16 := by
  have hw : w.toNat < 2 ^ 32 := w.isLt
  rw [legalValue, beq_iff_eq, field_top (by omega) (by omega)]
  omega

/-- R34. -/
theorem legalValue_ladfCfg : legalValue cfg .ladfCfg w = true ↔ 1 ≤ w.toNat ∧ w.toNat ≤ 5 := by
  have hw : w.toNat < 2 ^ 32 := w.isLt
  simp only [legalValue, Bool.and_eq_true, beq_iff_eq, decide_eq_true_eq]
  simp only [field, Nat.reduceAdd, Nat.reduceSub, Nat.reducePow]
  omega

/-- R35. -/
theorem legalValue_ladfOffsB : legalValue cfg .ladfOffsB w = true ↔ w.toNat < 2 ^ 8 := by
  have hw : w.toNat < 2 ^ 32 := w.isLt
  rw [legalValue, beq_iff_eq, field_top (by omega) (by omega)]
  omega

variable {r : Reg}

/-- R29: the positions of the virtual boundaries. -/
theorem legalValue_position (h1 : 0x015 ≤ r.number) (h2 : r.number ≤ 0x01A) :
    legalValue cfg r w = true ↔ w.toNat < 2 ^ 16 ∧ w.toNat % 8 = 0 := by
  have hw : w.toNat < 2 ^ 32 := w.isLt
  have heq : legalValue cfg r w = (field w.toNat 31 16 == 0 && field w.toNat 15 0 % 8 == 0) := by
    cases r <;> simp [Reg.number] at h1 h2 <;> rfl
  rw [heq, Bool.and_eq_true, beq_iff_eq, beq_iff_eq, field_zero, field_top (by omega) (by omega)]
  omega

/-- R30, R31: the bases and strides of the planes. -/
theorem legalValue_plane (h1 : 0x020 ≤ r.number) (h2 : r.number ≤ 0x026) :
    legalValue cfg r w = true ↔ w.toNat % 2 = 0 := by
  have heq : legalValue cfg r w = (w.toNat % 2 == 0) := by
    cases r <;> simp [Reg.number] at h1 h2 <;> rfl
  rw [heq, beq_iff_eq]

/-- R32: the base and stride of the records. -/
theorem legalValue_meta (h1 : 0x028 ≤ r.number) (h2 : r.number ≤ 0x029) :
    legalValue cfg r w = true ↔ w.toNat % 32 = 0 := by
  have heq : legalValue cfg r w = (w.toNat % 32 == 0) := by
    cases r <;> simp [Reg.number] at h1 h2 <;> rfl
  rw [heq, beq_iff_eq]

/-- R36: the thresholds. -/
theorem legalValue_threshold (h : 0x033 ≤ r.number) : legalValue cfg r w = true ↔ w.toNat < 2 ^ 16 := by
  have hw : w.toNat < 2 ^ 32 := w.isLt
  have heq : legalValue cfg r w = (field w.toNat 31 16 == 0) := by
    cases r <;> simp [Reg.number] at h <;> rfl
  rw [heq, beq_iff_eq, field_top (by omega) (by omega)]
  omega

end

/-- Settles O14: the register at a number is the one of that number, and each clause is the lemma of its class. -/
theorem registerSpace : Obligations.RegisterSpace := by
  intro cfg n
  constructor
  · rw [Option.eq_none_iff_forall_ne_some, ← not_exists, regOf_isSome_iff]
    simp only [commonNumber, ladfNumber, or_assoc, and_assoc]
  intro r hr
  have hn : n.toNat = r.number := (regOf_eq_some_iff_number.mp hr).1
  have hreg : ∀ r' : Reg, n.toNat = r'.number → r = r' := fun r' h => Reg.eq_of_number_eq (hn.symm.trans h)
  rw [hn] at hreg ⊢
  refine ⟨Reg.readOnly_iff_number, Reg.geometry_iff_number, fun w => ⟨fun h => ?_, fun h => ?_, fun h => ?_, fun h => ?_,
    legalValue_position cfg w, legalValue_plane cfg w, legalValue_meta cfg w, fun h => ?_, fun h => ?_, fun h => ?_,
    legalValue_threshold cfg w, fun h => ?_⟩⟩
  · exact hreg .ctrl h ▸ legalValue_ctrl cfg w
  · exact hreg .picSize h ▸ legalValue_picSize cfg w
  · exact hreg .format h ▸ legalValue_format cfg w
  · exact hreg .vbCfg h ▸ legalValue_vbCfg cfg w
  · exact hreg .lfpBase h ▸ beq_iff_eq
  · exact hreg .ladfCfg h ▸ legalValue_ladfCfg cfg w
  · exact hreg .ladfOffsB h ▸ legalValue_ladfOffsB cfg w
  · rcases h with h | h
    · exact hreg .qpOffs h ▸ rfl
    · exact hreg .ladfOffsA h ▸ rfl

end Sys2Proof.Machine

namespace Sys2Proof.Machine

/-! ## Where records and entries stand and what their bits mean (R70 to R73) -/

/-- The signed reading of the low half of a word (R11, R70). -/
theorem sext_low_half (w : Nat) : sext 16 (field w 15 0) % 2 ^ 16 = (w % 2 ^ 16 : Nat)
    ∧ -2 ^ 15 ≤ sext 16 (field w 15 0) ∧ sext 16 (field w 15 0) < 2 ^ 15 := by
  simpa using sext_half_field w 0

/-- Settles O60: each field is the one its constructor names, so what is left is that the top fields of a word are
quotients, that flags are bits, and that `sext` is the signed reading. -/
theorem recordAndEntryLayout : Obligations.RecordAndEntryLayout := by
  constructor
  · intro s gx gy a m r signed
    have h0 : m 0 < 2 ^ 32 := s.memory.read_lt _ 4
    have h2 : m 2 < 2 ^ 32 := s.memory.read_lt _ 4
    exact ⟨rfl, field_zero _ _, field_top h0 (by decide), field_zero _ _, flag_iff _ _, flag_iff _ _, flag_iff _ _, rfl, rfl,
      rfl, rfl, rfl, rfl, field_zero _ _, rfl, rfl, field_top h2 (by decide), sext_low_half _, sext_half_field _ 16,
      sext_low_half _, sext_half_field _ 16, MetaRec.malformed_iff⟩
  · intro s cx cy ux uy dir number a e f
    have he : e < 2 ^ 16 := s.memory.read_lt _ 2
    have haddr : s.lfpAddr cx cy dir ux uy = a := by cases dir <;> rfl
    have hf : f = LfpEntry.ofBits e := congrArg (fun x => LfpEntry.ofBits (s.memory.read x 2)) haddr
    rw [hf]
    exact ⟨haddr, field_zero _ _, rfl, rfl, flag_iff _ _, flag_iff _ _, flag_iff _ _, flag_iff _ _, flag_iff _ _,
      flag_iff _ _, field_top he (by decide)⟩

end Sys2Proof.Machine

namespace Sys2Proof.Machine

/-- Settles O5: capture is `State.present`, and `step_present` executes what decodes. -/
theorem stepRunsDecoded : Obligations.StepRunsDecoded := by
  intro s c rest i hh hd
  exact step_present hh hd

/-- A host store inside `BMEM` writes that byte (R74, R75). -/
theorem hostStore_inside {s : State} {a : Nat} (h : a < s.config.bmemSize) (b : Byte) (rest : List HostMove) :
    hostStore a b rest s = .next { s with host := rest, memory := s.memory.writeByte a b } := by
  simp [hostStore, h]

/-- Everything a step that answers a next state can be, by the host's next move (R5, R80). -/
theorem step_cases {s t : State} (ht : step s = .next t) :
    (s.host = [] ∧ t = s) ∨
    (∃ c rest i, s.host = .present c :: rest ∧ decode c = .ok i ∧ exec i (s.present c rest) = .next t) ∨
    (∃ c rest e, s.host = .present c :: rest ∧ decode c = .error e ∧ illegalCommand (s.present c rest) = .next t) ∨
    (∃ a b rest, s.host = .store a b :: rest ∧ a < s.config.bmemSize ∧
      t = { s with host := rest, memory := s.memory.writeByte a b }) ∨
    (∃ rest, s.host = .powerOn :: rest ∧ t = s.powerOn rest) := by
  cases hh : s.host with
  | nil => exact .inl ⟨rfl, by simpa [step, hh] using ht.symm⟩
  | cons move rest =>
    cases move with
    | present c =>
      cases hd : decode c with
      | ok i => exact .inr (.inl ⟨c, rest, i, rfl, hd, (step_present hh hd).symm.trans ht⟩)
      | error e => exact .inr (.inr (.inl ⟨c, rest, e, rfl, hd, (step_illegal hh hd).symm.trans ht⟩))
    | store a b =>
      have ht' : hostStore a b rest s = .next t := by simpa only [step, hh] using ht
      by_cases ha : a < s.config.bmemSize
      · rw [hostStore_inside ha] at ht'
        exact .inr (.inr (.inr (.inl ⟨a, b, rest, rfl, ha, (Host.Outcome.next.inj ht').symm⟩)))
      · exact absurd ht' (by simp [hostStore, ha])
    | powerOn => exact .inr (.inr (.inr (.inr ⟨rest, rfl, by simpa [step, hh] using ht.symm⟩)))

/-- Settles O6: the idle step, and the store by `hostStore_inside`, read back byte by byte. -/
theorem hostMoves : Obligations.HostMoves := by
  constructor
  · intro s hh
    simp [step, hh]
  · intro s a b rest hh ha
    have hstep : step s = hostStore a b rest s := by simp [step, hh]
    exact ⟨s.memory.writeByte a b, hstep.trans (hostStore_inside ha b rest), fun x => Memory.readByte_writeByte ..⟩

/-! ## What `Entry` reads (R71, R212) -/

section
variable {s : State} {m : Memory}

/-- R71: a record is made of the words `M0` to `M4`, the first 20 bytes at its address. -/
theorem State.metaRec_congr {gx gy : Nat}
    (h : ∀ a, inBuffer (s.recAddr gx gy) 20 a → m.readByte a = s.memory.readByte a) :
    (s.setMemory m).metaRec gx gy = s.metaRec gx gy := by
  have hword : ∀ i < 5, m.read (s.recAddr gx gy + 4 * i) 4 = s.memory.read (s.recAddr gx gy + 4 * i) 4 := fun i hi =>
    Memory.read_congr fun x hx => h x ⟨by omega, by omega⟩
  simp only [State.metaRec, State.setMemory_recAddr, State.setMemory_memory, hword 0 (by decide), hword 1 (by decide),
    hword 2 (by decide), hword 3 (by decide), hword 4 (by decide)]

theorem State.unitInside_iff {gx gy : Nat} : s.unitInside gx gy = true ↔ gx < s.picW / 4 ∧ gy < s.picH / 4 := by
  simp [State.unitInside]

/-- The P side of a unit inside the picture is inside it, so its record is one of the picture's (R203, R204). -/
theorem State.recP_congr {dir : Dir} {gx gy : Nat} (hin : s.unitInside gx gy = true)
    (h : ∀ x y, s.unitInside x y = true → (s.setMemory m).metaRec x y = s.metaRec x y) :
    (s.setMemory m).recP dir gx gy = s.recP dir gx gy := by
  obtain ⟨hx, hy⟩ := State.unitInside_iff.mp hin
  cases dir with
  | ver => exact h (gx - 1) gy (State.unitInside_iff.mpr ⟨by omega, hy⟩)
  | hor => exact h gx (gy - 1) (State.unitInside_iff.mpr ⟨hx, by omega⟩)

/-- R212: beside the records, an entry depends on registers alone. -/
@[simp] theorem State.setMemory_edgeEntry (dir : Dir) (gx gy ux uy : Nat) (p q : MetaRec) :
    (s.setMemory m).edgeEntry dir gx gy ux uy p q = s.edgeEntry dir gx gy ux uy p q := rfl

/-- R212: an entry reads memory through the records of the picture alone. -/
theorem State.bsEntry_congr (h : ∀ x y, s.unitInside x y = true → (s.setMemory m).metaRec x y = s.metaRec x y)
    (dir : Dir) (gx gy ux uy : Nat) : (s.setMemory m).bsEntry dir gx gy ux uy = s.bsEntry dir gx gy ux uy := by
  unfold State.bsEntry
  cases hin : s.unitInside gx gy with
  | false => simp [hin]
  | true =>
    have hq := h gx gy hin
    have hp := State.recP_congr (dir := dir) hin h
    simp only [State.setMemory_unitInside, hin, hq, hp, State.setMemory_edgeEntry]

end

/-- Settles O42: the records of the picture are the same in both memories, and an entry depends on nothing else. -/
theorem bsEntryReadsOnlyRecords : Obligations.BsEntryReadsOnlyRecords := by
  intro s m dir gx gy ux uy h
  refine State.bsEntry_congr (fun x y hin => State.metaRec_congr fun a ha => ?_) dir gx gy ux uy
  obtain ⟨hx, hy⟩ := State.unitInside_iff.mp hin
  exact h x y hx hy a ha

end Sys2Proof.Machine

namespace Sys2Proof.Machine

/-! ## How many values the transform's blocks hold (R140, R187) -/

/-- At most `h` rows of at most `w` values. -/
structure RowsFit (h w : Nat) (rows : List (List Int)) : Prop where
  count : rows.length ≤ h
  width : ∀ row ∈ rows, row.length ≤ w

/-- Rows that fit where each of `h` rows of `w` values ends below a bound are written below it. -/
theorem RowsFit.within_writeRows {m : Memory} {size a stride h w : Nat} {rows : List (List Int)} (hr : RowsFit h w rows)
    (hm : m.within size) (ha : ∀ i < h, a + i * stride + 2 * w ≤ size) : (m.writeRows a stride rows).within size := by
  refine Memory.within_writeRows hm fun i hi => ?_
  have hend := ha i (Nat.lt_of_lt_of_le hi hr.count)
  have hwidth := hr.width _ (List.getElem_mem hi)
  omega

/-- The same of rows one after another without padding (R67). -/
theorem RowsFit.within_writeDense {m : Memory} {size a h w : Nat} {rows : List (List Int)} (hr : RowsFit h w rows)
    (hm : m.within size) (ha : a + 2 * w * h ≤ size) : (m.writeRows a (2 * w) rows).within size := by
  refine hr.within_writeRows hm fun i hi => ?_
  calc a + i * (2 * w) + 2 * w
    _ = a + 2 * w * (i + 1) := by ring
    _ ≤ a + 2 * w * h := Nat.add_le_add_left (Nat.mul_le_mul_left _ hi) a
    _ ≤ size := ha

theorem basisSums_length_le (n : Nat) (rows : List (List Int)) (cs : List Int) : (basisSums n rows cs).length ≤ n := by
  induction rows generalizing cs with
  | nil => simp [basisSums]
  | cons row rows ih =>
    cases cs with
    | nil => simp [basisSums]
    | cons c cs =>
      rw [basisSums, List.length_zipWith]
      exact (Nat.min_le_right _ _).trans (ih cs)

theorem inv1D_length_le (cfg : Config) (t : TrType) (log2N : Nat) (input : List Int) (shift : Nat) :
    (inv1D cfg t log2N input shift).length ≤ 2 ^ log2N := by
  rw [inv1D, List.length_map]
  exact basisSums_length_le ..

theorem columns_length_le (w : Nat) (rows : List (List Int)) : (columns w rows).length ≤ w := by
  induction rows with
  | nil => simp [columns]
  | cons row rows ih =>
    rw [columns, List.foldr_cons, List.length_zipWith]
    exact (Nat.min_le_right _ _).trans ih

theorem readBlock_fit (m : Memory) (a w h : Nat) : RowsFit h w (readBlock m a w h) where
  count := by simp [readBlock]
  width := by simp [readBlock, Memory.readSigned]

theorem State.readPixels_fit (s : State) (c : Plane) (x y w h : Nat) : RowsFit h w (s.readPixels c x y w h) where
  count := by simp [State.readPixels]
  width := by simp [State.readPixels, Memory.readHalves]

theorem RowsFit.map_map {h w : Nat} {rows : List (List Int)} (hr : RowsFit h w rows) (f : Int → Int) :
    RowsFit h w (rows.map (List.map f)) where
  count := by simpa using hr.count
  width := by simpa using hr.width

/-- Rows combined with rows that fit. -/
theorem RowsFit.zipWith_left {h w : Nat} {rows : List (List Int)} (hr : RowsFit h w rows) (f : Int → Int → Int)
    (other : List (List Int)) : RowsFit h w (List.zipWith (List.zipWith f) rows other) where
  count := by
    rw [List.length_zipWith]
    exact (Nat.min_le_left _ _).trans hr.count
  width := by
    intro row hrow
    obtain ⟨i, hi, rfl⟩ := List.mem_iff_getElem.mp hrow
    rw [List.getElem_zipWith, List.length_zipWith]
    exact (Nat.min_le_left _ _).trans (hr.width _ (List.getElem_mem _))

/-- R187: the residual of a block has the size of the block. -/
theorem residual_fit (cfg : Config) (bitDepth : Nat) (o : BlkOps) {levels : List (List Int)}
    (hr : RowsFit o.h o.w levels) : RowsFit o.h o.w (residual cfg bitDepth o levels) := by
  unfold residual
  cases o.identity with
  | true => exact hr.map_map _
  | false =>
    constructor
    · exact (List.length_map _).le.trans (columns_length_le ..)
    · intro row hrow
      obtain ⟨input, -, rfl⟩ := List.mem_map.mp hrow
      exact inv1D_length_le ..

theorem State.blockResidual_fit (s : State) (o : BlkOps) : RowsFit o.h o.w (s.blockResidual o) :=
  residual_fit _ _ _ (readBlock_fit ..)

theorem State.reconRows_fit (s : State) (o : BlkOps) : RowsFit o.h o.w (s.reconRows o) :=
  (s.readPixels_fit ..).zipWith_left ..

theorem itx1dLines_fit (o : KernelOps) (s : State) : RowsFit o.lines.toNat (2 ^ o.log2N.toNat) (itx1dLines o s) where
  count := by simp [itx1dLines, readBlock]
  width := by
    intro row hrow
    obtain ⟨input, -, rfl⟩ := List.mem_map.mp hrow
    exact inv1D_length_le ..

/-! ## Where the commands write (R60, R62) -/

section
variable {s : State}

/-- The check of a buffer passes: it is aligned and ends inside `BMEM` (R62, R64). -/
theorem State.bufferCheck_eq_none {a : Word} {n : Nat} :
    s.bufferCheck a n = none ↔ a.toNat % 2 = 0 ∧ a.toNat + n ≤ s.config.bmemSize := by
  simp [State.bufferCheck]

/-- R186: a block that is not outside its plane is one of a plane in use, and ends inside it. -/
theorem State.blockOutside_eq_false {o : BlkOps} (h : s.blockOutside o = false) : o.plane ∈ s.planesInUse ∧
    o.x.toNat + o.w ≤ s.planeW o.plane ∧ o.y.toNat + o.h ≤ s.planeH o.plane := by
  simp only [State.blockOutside, Bool.or_eq_false_iff, Bool.and_eq_false_iff, bne_eq_false_iff_eq, beq_eq_false_iff_ne,
    decide_eq_false_iff_not, Nat.not_lt] at h
  obtain ⟨⟨hplane, hw⟩, hh⟩ := h
  refine ⟨?_, hw, hh⟩
  rcases hplane with hluma | hchroma
  · rw [BlkOps.plane, hluma]
    exact s.luma_inUse
  · exact State.chroma_inUse _ hchroma

/-- A row of samples of a plane in use ends inside `BMEM` (R66, R273 d). -/
theorem State.GeometryFits.row_inside (hg : s.GeometryFits) {c : Plane} {x y w : Nat} (hc : c ∈ s.planesInUse) (hw : 0 < w)
    (hx : x + w ≤ s.planeW c) (hy : y < s.planeH c) : s.pixAddr c x y + 2 * w ≤ s.config.bmemSize := by
  have hlast := (State.pixAddr_inRegion (s := s) (c := c) (x := x + w - 1) (y := y) (by omega) hy).2
  have hstop := hg.inside _ (State.mem_regions_plane hc)
  unfold State.pixAddr at *
  omega

/-- `ITX_BLK` writes its residual buffer, or rows of a plane of the picture (R186, R187). -/
theorem itxBlkEffect_within {o : BlkOps} (hm : s.Contained) (hpic : s.picActive = true → s.GeometryFits)
    (hc : ∀ x ∈ itxBlkChecks o s, x = none) : (itxBlkEffect o s).memory.within s.config.bmemSize := by
  simp only [itxBlkChecks, List.forall_mem_cons, failIf_eq_none] at hc
  obtain ⟨-, -, hactive, houtside, -, -, hres, -⟩ := hc
  unfold itxBlkEffect
  cases hro : o.resOnly with
  | true =>
    rw [hro, if_pos rfl, State.bufferCheck_eq_none] at hres
    exact (s.blockResidual_fit o).within_writeDense hm hres.2
  | false =>
    simp only [hro, Bool.not_false, Bool.true_and, Bool.not_eq_false'] at hactive houtside
    obtain ⟨hplane, hx, hy⟩ := State.blockOutside_eq_false houtside
    refine (s.reconRows_fit o).within_writeRows hm fun i hi => ?_
    have hrow := (hpic hactive).row_inside (y := o.y.toNat + i) hplane (Nat.two_pow_pos _) hx (by omega)
    calc _ = s.pixAddr o.plane o.x.toNat (o.y.toNat + i) + 2 * o.w := by unfold State.pixAddr; ring
      _ ≤ _ := hrow

/-- `ITX_1D` writes its destination buffer (R158). -/
theorem itx1d_within {o : KernelOps} (hm : s.Contained) (hc : ∀ x ∈ itx1dChecks o s, x = none) :
    (okState (.itx1d o) s).memory.within s.config.bmemSize := by
  simp only [itx1dChecks, List.forall_mem_cons, State.bufferCheck_eq_none] at hc
  obtain ⟨-, -, -, ⟨-, hdst⟩, -⟩ := hc
  refine (itx1dLines_fit o s).within_writeDense hm ?_
  rwa [Nat.mul_right_comm]

/-- `BS_CTU` writes entries of a CTU of the picture (R73, R202). -/
theorem bsCtuEffect_within {cx cy : Nat} (hm : s.Contained) (hg : s.GeometryFits) (hx : cx < s.ctusW) (hy : cy < s.ctusH) :
    (bsCtuEffect cx cy s).memory.within s.config.bmemSize := by
  refine Memory.within_writeEntries hm fun e he => ?_
  simp only [State.bsWrites, List.mem_flatMap, List.mem_map] at he
  obtain ⟨dir, -, u, hu, rfl⟩ := he
  obtain ⟨hux, huy⟩ := mem_unitGrid.mp hu
  exact (State.lfpAddr_inRegion dir hx hy hux huy).2.trans (hg.inside _ s.mem_regions_lfp)

/-- `DBF_CTU` writes samples of the planes of the picture (R244). -/
theorem dbfCtuEffect_within {dir : Dir} {cx cy : Nat} (hm : s.Contained) (hg : s.GeometryFits)
    (hc : ∀ x ∈ dbfCtuChecks dir cx cy s, x = none) : (dbfCtuEffect dir cx cy s).memory.within s.config.bmemSize := by
  obtain ⟨-, ⟨hx, hy⟩, -, hentries⟩ := dbfCtuChecks_pass.mp hc
  unfold dbfCtuEffect
  split
  · next hen => exact (filterCtu_outside hg hx hy (hentries hen)).2.2 hm
  · exact hm

/-- The effect of a command whose checks pass writes inside `BMEM`. -/
theorem okState_within (hinv : s.Inv) (hm : s.Contained) {i : Instr} (hc : ∀ x ∈ checksOf i s, x = none) :
    (okState i s).memory.within s.config.bmemSize := by
  rcases okState_memory i s with hsame | ⟨o, rfl⟩ | ⟨o, rfl⟩ | ⟨cx, cy, rfl⟩ | ⟨dir, cx, cy, rfl⟩
  · exact hsame ▸ hm
  · exact itxBlkEffect_within hm hinv.picture hc
  · exact itx1d_within hm hc
  · obtain ⟨hp, ⟨hx, hy⟩, -⟩ := bsCtuChecks_pass.mp hc
    exact bsCtuEffect_within hm (hinv.picture hp) hx hy
  · exact dbfCtuEffect_within hm (hinv.picture (dbfCtuChecks_pass.mp hc).1) hc

/-! ## No step writes outside `BMEM` -/

variable {t : State}

/-- Every command, whatever its reply, leaves only bytes inside `BMEM` written. -/
theorem exec_keeps_contained (hinv : s.Inv) (hm : s.Contained) {i : Instr} (ht : exec i s = .next t) : t.Contained := by
  have hconfig : t.config = s.config := (framesOfAllCommands i s t ht).1
  show t.memory.within t.config.bmemSize
  rw [hconfig]
  rcases exec_cases i s with ⟨-, he⟩ | ⟨reg, r, -, -, he⟩ | ⟨-, he⟩ | ⟨r, -, -, he⟩ | ⟨-, hc, he⟩ <;>
    obtain rfl := Host.Outcome.next.inj (he.symm.trans ht)
  · exact hm
  · exact hm
  · exact hm
  · exact hm
  · exact okState_within hinv hm hc

/-- A command that does not decode writes no byte (R99, R291). -/
theorem illegalCommand_keeps_contained (hm : s.Contained) (ht : illegalCommand s = .next t) : t.Contained := by
  obtain rfl := Host.Outcome.next.inj ((illegalCommand_eq s).symm.trans ht)
  split <;> exact hm

end

/-- Settles O58, by what a step can be: a command by `exec_keeps_contained`, a store by its bound, and a hardware reset
leaves no byte written. -/
theorem stepsWriteInsideBmem : Obligations.StepsWriteInsideBmem := by
  intro s t hinv hm ht
  rcases step_cases ht with ⟨-, rfl⟩ | ⟨c, rest, i, -, -, he⟩ | ⟨c, rest, e, -, -, he⟩ | ⟨a, b, rest, -, ha, rfl⟩ |
    ⟨rest, -, rfl⟩
  · exact hm
  · exact exec_keeps_contained (s := s.present c rest) (hinv.report ..) hm he
  · exact illegalCommand_keeps_contained (s := s.present c rest) hm he
  · exact Memory.within_writeByte hm ha b
  · exact fun cell hcell => absurd hcell List.not_mem_nil

end Sys2Proof.Machine

namespace Sys2Proof

/-! ## Decoding what is encoded (R90 to R97) -/

theorem decode_encode_cfgWr (reg : BitVec 12) (value : Word) :
    decode (encode (.cfgWr reg value)) = .ok (.cfgWr reg value) := by
  rw [decode_cfgWrRow (Laws.OpcodeRow.cfgWr reg value), decodeCfgWr, rowIf_eq_ok]
  simp [encode, regWord_reg, regWord_zero]

theorem decode_encode_cfgRd (reg : BitVec 12) : decode (encode (.cfgRd reg)) = .ok (.cfgRd reg) := by
  rw [decode_cfgRdRow (Laws.OpcodeRow.cfgRd reg), decodeCfgRd, rowIf_eq_ok]
  simp [encode, regWord_reg, regWord_zero]

theorem decode_encode_itxBlk (o : BlkOps) : decode (encode (.itxBlk o)) = .ok (.itxBlk o) := by
  have hx : Command.bits (o.y ++ o.x) 0 16 = o.x := ctuWord_cx o.x o.y
  have hy : Command.bits (o.y ++ o.x) 16 16 = o.y := ctuWord_cy o.x o.y
  have hres : (BitVec.ofBool o.resOnly == 1) = o.resOnly := by cases o.resOnly <;> rfl
  rw [decode_itxBlkRow (Laws.OpcodeRow.itxBlk o), decodeItxBlk, rowIf_eq_ok]
  simp only [encode, o.word0_zero, o.word0_trH, o.word0_trV, o.word0_log2W, o.word0_log2H, o.word0_comp,
    o.word0_resOnly, o.word0_qp, hx, hy, hres, TrType.ofCode_code, beq_self_eq_true, and_self]

theorem decode_encode_itx1d (o : KernelOps) : decode (encode (.itx1d o)) = .ok (.itx1d o) := by
  rw [decode_itx1dRow (Laws.OpcodeRow.itx1d o), decodeItx1d, rowIf_eq_ok]
  simp only [encode, o.word0_zero, o.word0_tr, o.word0_log2N, o.word0_shift, o.word0_lines, TrType.ofCode_code,
    beq_self_eq_true, Bool.and_self, and_self]

theorem decode_encode_bsCtu (cx cy : BitVec 16) : decode (encode (.bsCtu cx cy)) = .ok (.bsCtu cx cy) := by
  have hzero : Command.bits 0x20 8 24 = 0 := by decide
  rw [decode_bsCtuRow (Laws.OpcodeRow.bsCtu cx cy), decodeBsCtu, rowIf_eq_ok]
  simp only [encode, hzero, ctuWord_cx, ctuWord_cy, beq_self_eq_true, Bool.and_self, and_self]

theorem decode_encode_dbfCtu (dir : Dir) (cx cy : BitVec 16) :
    decode (encode (.dbfCtu dir cx cy)) = .ok (.dbfCtu dir cx cy) := by
  rw [decode_dbfCtuRow (Laws.OpcodeRow.dbfCtu dir cx cy), decodeDbfCtu, rowIf_eq_ok]
  simp [encode, dirWord_zero, dirWord_dir, ctuWord_cx, ctuWord_cy]

/-- Settles O1, by the row of the instruction. A row without operands is a computation on fixed words; the others read
each field back where `encode` has put it. -/
theorem decodeEncodeRoundTrip : Obligations.DecodeEncodeRoundTrip := by
  intro i
  cases i with
  | nop => rfl
  | picStart => rfl
  | sreset => rfl
  | picEnd => rfl
  | cfgWr reg value => exact decode_encode_cfgWr reg value
  | cfgRd reg => exact decode_encode_cfgRd reg
  | itxBlk o => exact decode_encode_itxBlk o
  | itx1d o => exact decode_encode_itx1d o
  | bsCtu cx cy => exact decode_encode_bsCtu cx cy
  | dbfCtu dir cx cy => exact decode_encode_dbfCtu dir cx cy

/-! ## Encoding what is decoded (R90 to R95)

Each format lists its fields from bit 31 down, so its words are put together from ranges that meet. -/

section
variable {w : Word}

/-- Ranges of a word that meet make one range. -/
theorem append_eq_bits {hi lo m n : Nat} {x : BitVec m} {y : BitVec n} (hx : x = Command.bits w hi m)
    (hy : y = Command.bits w lo n) (h : hi = lo + n := by rfl) : x ++ y = Command.bits w lo (m + n) := by
  rw [hx, hy]
  exact BitVec.extractLsb'_append_extractLsb'_eq_extractLsb' h

variable {op : BitVec 8}

/-- The word of format S and of `BS_CTU`: nothing but the opcode (R91, R95). -/
theorem opWord_of_bits (hz : Command.bits w 8 24 = 0) (hop : Command.bits w 0 8 = op) : 0#24 ++ op = w :=
  (append_eq_bits hz.symm hop.symm).trans (extract_all w)

/-- `W0` of format R (R92). -/
theorem regWord_of_bits (hz : Command.bits w 20 12 = 0) (hop : Command.bits w 0 8 = op) :
    0#12 ++ Command.bits w 8 12 ++ op = w :=
  (append_eq_bits (append_eq_bits hz.symm rfl) hop.symm).trans (extract_all w)

/-- `W0` of `DBF_CTU` (R95). -/
theorem dirWord_of_bits (hz : Command.bits w 9 23 = 0) (hop : Command.bits w 0 8 = op) :
    0#23 ++ Command.bits w 8 1 ++ op = w :=
  (append_eq_bits (append_eq_bits hz.symm rfl) hop.symm).trans (extract_all w)

/-- `W1` of format C (R95), and of format T (R93). -/
theorem ctuWord_bits (w : Word) : ctuWord (Command.bits w 0 16) (Command.bits w 16 16) = w :=
  (append_eq_bits rfl rfl).trans (extract_all w)

/-- `W0` of format T (R93). -/
theorem BlkOps.word0_of_bits {o : BlkOps} (hz : Command.bits w 28 4 = 0) (hqp : o.qp = Command.bits w 21 7)
    (hres : BitVec.ofBool o.resOnly = Command.bits w 20 1) (hcomp : o.comp = Command.bits w 18 2)
    (hlog2H : o.log2H = Command.bits w 15 3) (hlog2W : o.log2W = Command.bits w 12 3)
    (htrV : o.trV.code = Command.bits w 10 2) (htrH : o.trH.code = Command.bits w 8 2)
    (hop : Command.bits w 0 8 = 0x10) : o.word0 = w := by
  have hrow := append_eq_bits (append_eq_bits (append_eq_bits (append_eq_bits (append_eq_bits (append_eq_bits
    (append_eq_bits (append_eq_bits hz.symm hqp) hres) hcomp) hlog2H) hlog2W) htrV) htrH) hop.symm
  exact hrow.trans (extract_all w)

/-- `W0` of format K (R94). -/
theorem KernelOps.word0_of_bits {o : KernelOps} (hz : Command.bits w 25 7 = 0) (hlines : o.lines = Command.bits w 18 7)
    (hshift : o.shift = Command.bits w 13 5) (hlog2N : o.log2N = Command.bits w 10 3)
    (htr : o.tr.code = Command.bits w 8 2) (hop : Command.bits w 0 8 = 0x11) : o.word0 = w := by
  have hrow := append_eq_bits (append_eq_bits (append_eq_bits (append_eq_bits (append_eq_bits
    hz.symm hlines) hshift) hlog2N) htr) hop.symm
  exact hrow.trans (extract_all w)

end

/-- A one-bit field read as a flag and written back (R93). -/
theorem ofBool_bit (b : BitVec 1) : BitVec.ofBool (b == 1) = b := by revert b; decide

section
variable {c : Command} {i : Instr}

/-- A command is its four words (R90). -/
theorem Command.eq_of_words {w0 w1 w2 w3 : Word} (h0 : w0 = c.w0) (h1 : w1 = c.w1) (h2 : w2 = c.w2) (h3 : w3 = c.w3) :
    (⟨w0, w1, w2, w3⟩ : Command) = c := by
  rw [h0, h1, h2, h3]

theorem encode_of_decodeS {j : Instr} (hj : encode j = ⟨0#24 ++ c.opcode, 0, 0, 0⟩) (h : decodeS c j = .ok i) :
    encode i = c := by
  simp only [decodeS, rowIf_eq_ok, Bool.and_eq_true, beq_iff_eq] at h
  obtain ⟨⟨⟨⟨hz, h1⟩, h2⟩, h3⟩, rfl⟩ := h
  exact hj.trans (Command.eq_of_words (opWord_of_bits hz rfl) h1.symm h2.symm h3.symm)

theorem encode_of_decodeCfgWr (hop : c.opcode = 0x01) (h : decodeCfgWr c = .ok i) : encode i = c := by
  simp only [decodeCfgWr, rowIf_eq_ok, Bool.and_eq_true, beq_iff_eq] at h
  obtain ⟨⟨⟨hz, h2⟩, h3⟩, rfl⟩ := h
  exact Command.eq_of_words (regWord_of_bits hz hop) rfl h2.symm h3.symm

theorem encode_of_decodeCfgRd (hop : c.opcode = 0x02) (h : decodeCfgRd c = .ok i) : encode i = c := by
  simp only [decodeCfgRd, rowIf_eq_ok, Bool.and_eq_true, beq_iff_eq] at h
  obtain ⟨⟨⟨⟨hz, h1⟩, h2⟩, h3⟩, rfl⟩ := h
  exact Command.eq_of_words (regWord_of_bits hz hop) h1.symm h2.symm h3.symm

theorem encode_of_decodeItxBlk (hop : c.opcode = 0x10) (h : decodeItxBlk c = .ok i) : encode i = c := by
  simp only [decodeItxBlk, rowIf_eq_ok, beq_iff_eq] at h
  obtain ⟨hz, rfl⟩ := h
  exact Command.eq_of_words (BlkOps.word0_of_bits hz rfl (ofBool_bit _) rfl rfl rfl (TrType.code_ofCode _)
    (TrType.code_ofCode _) hop) (ctuWord_bits c.w1) rfl rfl

theorem encode_of_decodeItx1d (hop : c.opcode = 0x11) (h : decodeItx1d c = .ok i) : encode i = c := by
  simp only [decodeItx1d, rowIf_eq_ok, Bool.and_eq_true, beq_iff_eq] at h
  obtain ⟨⟨hz, h1⟩, rfl⟩ := h
  exact Command.eq_of_words (KernelOps.word0_of_bits hz rfl rfl rfl (TrType.code_ofCode _) hop) h1.symm rfl rfl

theorem encode_of_decodeBsCtu (hop : c.opcode = 0x20) (h : decodeBsCtu c = .ok i) : encode i = c := by
  simp only [decodeBsCtu, rowIf_eq_ok, Bool.and_eq_true, beq_iff_eq] at h
  obtain ⟨⟨⟨hz, h2⟩, h3⟩, rfl⟩ := h
  exact Command.eq_of_words (opWord_of_bits hz hop) (ctuWord_bits c.w1) h2.symm h3.symm

theorem encode_of_decodeDbfCtu (hop : c.opcode = 0x30) (h : decodeDbfCtu c = .ok i) : encode i = c := by
  simp only [decodeDbfCtu, rowIf_eq_ok, Bool.and_eq_true, beq_iff_eq] at h
  obtain ⟨⟨⟨hz, h2⟩, h3⟩, rfl⟩ := h
  have h0 := (congrArg (fun b : BitVec 1 => 0#23 ++ b ++ 0x30#8) (Dir.bit_ofBit _)).trans (dirWord_of_bits hz hop)
  exact Command.eq_of_words h0 (ctuWord_bits c.w1) h2.symm h3.symm

end

/-- Settles O2, by the ten rows of the opcode map: in each the fields and the must-be-zero ranges meet, so the word is
all of them together. -/
theorem encodeDecodeExact : Obligations.EncodeDecodeExact := by
  intro c i h
  rcases decode_ok_cases h with ⟨hop, h⟩ | ⟨hop, h⟩ | ⟨hop, h⟩ | ⟨hop, h⟩ | ⟨hop, h⟩ |
    ⟨hop, h⟩ | ⟨hop, h⟩ | ⟨hop, h⟩ | ⟨hop, h⟩ | ⟨hop, h⟩
  · exact encode_of_decodeS (j := .nop) (by rw [hop]; rfl) h
  · exact encode_of_decodeCfgWr hop h
  · exact encode_of_decodeCfgRd hop h
  · exact encode_of_decodeS (j := .picStart) (by rw [hop]; rfl) h
  · exact encode_of_decodeS (j := .sreset) (by rw [hop]; rfl) h
  · exact encode_of_decodeS (j := .picEnd) (by rw [hop]; rfl) h
  · exact encode_of_decodeItxBlk hop h
  · exact encode_of_decodeItx1d hop h
  · exact encode_of_decodeBsCtu hop h
  · exact encode_of_decodeDbfCtu hop h

/-! ## Ranges of bits as numbers (R11) -/

/-- The bits of a word as `field` counts them (R11). -/
theorem bits_toNat (w : Word) {lo len : Nat} (h : 0 < len) :
    (Command.bits w lo len).toNat = Machine.field w.toNat (lo + len - 1) lo := by
  have hlen : lo + len - 1 + 1 - lo = len := by omega
  rw [Machine.field, hlen, Command.bits, BitVec.extractLsb'_toNat, Nat.shiftRight_eq_div_pow]

/-- A range of bits holds a value. -/
theorem bits_eq_iff (w : Word) {lo len : Nat} {v : BitVec len} (h : 0 < len) :
    Command.bits w lo len = v ↔ Machine.field w.toNat (lo + len - 1) lo = v.toNat := by
  rw [← bits_toNat w h, BitVec.toNat_inj]

/-- The opcode is the field `W0[7:0]` (R90). -/
theorem Command.opcode_eq_iff {c : Command} {op : BitVec 8} : c.opcode = op ↔ Machine.field c.w0.toNat 7 0 = op.toNat :=
  bits_eq_iff c.w0 (by decide)

end Sys2Proof

namespace Sys2Proof.Machine

/-! ## The causes a command's checks can raise (R297) -/

/-- The check raises nothing but causes of a list. -/
def RaisesIn (l : List Cause) (x : Option Raised) : Prop := ∀ r, x = some r → r.cause ∈ l

section
variable {l : List Cause}

@[simp] theorem raisesIn_none : RaisesIn l none := by simp [RaisesIn]

@[simp] theorem raisesIn_some {r : Raised} : RaisesIn l (some r) ↔ r.cause ∈ l := by simp [RaisesIn]

@[simp] theorem raisesIn_failIf {b : Bool} {c : Cause} {i : Nat} :
    RaisesIn l (failIf b c i) ↔ (b = true → c ∈ l) := by
  cases b <;> simp [failIf]

@[simp] theorem raisesIn_ite {p : Prop} [Decidable p] {x y : Option Raised} :
    RaisesIn l (if p then x else y) ↔ if p then RaisesIn l x else RaisesIn l y := by
  split <;> rfl

theorem raisesIn_map {α : Type} {f : α → Raised} (h : ∀ a, (f a).cause ∈ l) (o : Option α) :
    RaisesIn l (o.map f) := by
  cases o <;> simp [h]

theorem State.outsideBmem_raisesIn (h : .addr ∈ l) (s : State) (rs : List Region) : RaisesIn l (s.outsideBmem rs) :=
  raisesIn_map (fun _ => h) _

theorem firstOverlap_raisesIn (h : .badCfg ∈ l) (rs : List Region) : RaisesIn l (firstOverlap rs) := by
  induction rs with
  | nil => simp [firstOverlap]
  | cons a rest ih =>
    unfold firstOverlap
    split
    · exact raisesIn_some.mpr h
    · exact ih

theorem State.bufferCheck_raisesIn (h : .addr ∈ l) (s : State) (a : Word) (n : Nat) : RaisesIn l (s.bufferCheck a n) :=
  raisesIn_failIf.mpr fun _ => h

theorem State.badMeta_raisesIn (h : .badMeta ∈ l) (s : State) (cx cy : Nat) : RaisesIn l (s.badMeta cx cy) :=
  raisesIn_map (fun _ => h) _

theorem State.badLfp_raisesIn (h : .badLfp ∈ l) (s : State) (dir : Dir) (cx cy : Nat) :
    RaisesIn l (s.badLfp dir cx cy) :=
  raisesIn_map (fun _ => h) _

end

/-- The causes of R297 for a decoded command; `ILLEGAL_CMD` only when a field holds a reserved value (R99). -/
def causesOf : Instr → List Cause
  | .nop => []
  | .cfgWr _ _ => [.badReg, .badValue, .order]
  | .cfgRd _ => [.badReg]
  | .picStart => [.badCfg, .addr, .order]
  | .sreset => []
  | .picEnd => [.order]
  | .itxBlk o => (if o.wellFormed then [] else [.illegalCmd]) ++ [.badKernel, .badDim, .addr, .order]
  | .itx1d o => (if o.wellFormed then [] else [.illegalCmd]) ++ [.badKernel, .addr]
  | .bsCtu _ _ => [.badDim, .order, .badMeta]
  | .dbfCtu _ _ _ => [.badDim, .order, .badLfp]

theorem illegalCmd_mem_causesOf {i : Instr} : .illegalCmd ∈ causesOf i ↔ i.wellFormed = false := by
  cases i <;> simp [causesOf, Instr.wellFormed]

/-- Every check of a command raises a cause of its row. -/
theorem checksOf_raisesIn (i : Instr) (s : State) : ∀ x ∈ checksOf i s, RaisesIn (causesOf i) x := by
  cases i with
  | nop => simp [checksOf]
  | sreset => simp [checksOf]
  | picEnd => simp [checksOf, causesOf]
  | cfgWr reg value => cases h : regOf s.config reg <;> simp [checksOf, h, cfgWrChecks, causesOf]
  | cfgRd reg => cases h : regOf s.config reg <;> simp [checksOf, h, causesOf]
  | picStart =>
    simp only [checksOf, picStartChecks, List.forall_mem_cons, List.forall_mem_append, List.forall_mem_map]
    simp [causesOf, State.outsideBmem_raisesIn, firstOverlap_raisesIn]
  | itxBlk o =>
    simp only [checksOf, itxBlkChecks, List.forall_mem_cons]
    simp +contextual [causesOf, State.bufferCheck_raisesIn]
  | itx1d o =>
    simp only [checksOf, itx1dChecks, List.forall_mem_cons]
    simp +contextual [causesOf, State.bufferCheck_raisesIn]
  | bsCtu cx cy => simp [checksOf, bsCtuChecks, causesOf, State.badMeta_raisesIn]
  | dbfCtu dir cx cy => simp [checksOf, dbfCtuChecks, causesOf, State.badLfp_raisesIn]

/-! ## `ILLEGAL_CMD` -/

/-- A reserved field value is the first check of the two commands that have one, and it raises `ILLEGAL_CMD(W0)` (R99). -/
theorem firstRaised_of_illFormed {i : Instr} (h : i.wellFormed = false) (s : State) :
    firstRaised (checksOf i s) = some ⟨.illegalCmd, s.latch.w0.toNat⟩ := by
  cases i with
  | itxBlk o =>
    have h' : o.wellFormed = false := h
    simp [checksOf, itxBlkChecks, h', failIf]
  | itx1d o =>
    have h' : o.wellFormed = false := h
    simp [checksOf, itx1dChecks, h', failIf]
  | _ => cases h

/-- The code 1 of R286 is that of `ILLEGAL_CMD` alone. -/
theorem Cause.code_eq_one {c : Cause} (h : c.code = 1) : c = .illegalCmd := by
  revert h
  cases c <;> decide

/-- The effect of a command whose checks pass leaves the block not faulted. -/
theorem okState_faulted {i : Instr} {s : State} (hf : s.faulted = false) : (okState i s).faulted = false := by
  by_cases hi : i = .sreset
  · rw [hi]
    rfl
  · rw [(okState_sameOutside hi s).faulted, hf]

/-- A command that leaves the block faulted has made the fault entry of one of its causes (R290, R297). -/
theorem exec_faulted {i : Instr} {s t : State} (hf : s.faulted = false) (ht : exec i s = .next t)
    (hft : t.faulted = true) :
    ∃ r : Raised, r.cause ∈ causesOf i ∧ t = s.afterFault r.cause.code.toNat r.info := by
  rcases exec_cases i s with ⟨-, he⟩ | ⟨reg, r, -, -, he⟩ | ⟨hs, -⟩ | ⟨r, -, hr, he⟩ | ⟨-, -, he⟩
  case inr.inr.inl => exact absurd (hf.symm.trans hs) Bool.false_ne_true
  all_goals obtain rfl := Host.Outcome.next.inj (he.symm.trans ht)
  · exact absurd hft Bool.false_ne_true
  · exact absurd (hf.symm.trans hft) Bool.false_ne_true
  · exact ⟨r, checksOf_raisesIn i s _ (firstRaised_mem hr) r rfl, rfl⟩
  · exact absurd ((okState_faulted hf).symm.trans hft) Bool.false_ne_true

/-- A decoded command raises `ILLEGAL_CMD(W0)` exactly when a field holds a reserved value (R99). -/
theorem exec_illegalCmd_iff {i : Instr} {s : State} (hf : s.faulted = false) :
    exec i s = .next (s.afterFault 1 s.latch.w0.toNat) ↔ i.wellFormed = false := by
  constructor
  · intro h
    obtain ⟨r, hr, he⟩ := exec_faulted hf h rfl
    have hcode : r.cause.code = 1 := by simpa [State.afterFault] using (congrArg State.faultCause he).symm
    rw [Cause.code_eq_one hcode] at hr
    exact illegalCmd_mem_causesOf.mp hr
  · intro h
    have hsreset : i ≠ .sreset := by
      rintro rfl
      cases h
    have hread : ∀ reg, i = .cfgRd reg → regOf s.config reg = none := by
      rintro reg rfl
      cases h
    rw [exec_eq_runChecked i s hsreset hread]
    exact runChecked_fault hf (firstRaised_of_illFormed h s) _

/-! ## The illegal words (R99) -/

/-- The four words stand for a command whose fields hold no reserved value. -/
def legalCommand (c : Command) : Prop := ∃ i, decode c = .ok i ∧ i.wellFormed = true

section
variable {c : Command}

/-- With no fault recorded, a presented command raises `ILLEGAL_CMD(W0)` exactly when it is not legal. -/
theorem step_illegalCmd_iff {s : State} {rest : List HostMove} (hh : s.host = .present c :: rest)
    (hf : s.faulted = false) :
    step s = .next ((s.present c rest).afterFault 1 c.w0.toNat) ↔ ¬legalCommand c := by
  cases hd : decode c with
  | error e =>
    have hstep : step s = .next ((s.present c rest).afterFault 1 c.w0.toNat) := by
      rw [step_illegal hh hd, illegalCommand_eq]
      exact congrArg Host.Outcome.next (if_neg (by simpa using hf))
    simp [legalCommand, hd, hstep]
  | ok i =>
    have hexec : exec i (s.present c rest) = .next ((s.present c rest).afterFault 1 c.w0.toNat) ↔
        i.wellFormed = false :=
      exec_illegalCmd_iff (s := s.present c rest) hf
    rw [step_present hh hd, hexec]
    simp [legalCommand, hd]

/-- A row is legal when its must-be-zero bits are 0 and its instruction holds no reserved value. -/
theorem legalCommand_iff_of_row {b : Bool} {i : Instr} (h : decode c = rowIf b i) :
    legalCommand c ↔ b = true ∧ i.wellFormed = true := by
  simp only [legalCommand, h, rowIf_eq_ok]
  constructor
  · rintro ⟨_, ⟨hb, rfl⟩, hw⟩
    exact ⟨hb, hw⟩
  · exact fun ⟨hb, hw⟩ => ⟨i, ⟨hb, rfl⟩, hw⟩

/-- A one-bit field is 0 exactly when it is not 1. -/
theorem field_bit_eq_zero (w i : Nat) : field w i i = 0 ↔ ¬field w i i = 1 := by
  simp [field]

/-- The rows of format S (R91). -/
theorem legalCommand_iff_formatS {i : Instr} (hd : decode c = decodeS c i) (hi : i.wellFormed = true)
    (h : c.opcode = 0x00 ∨ c.opcode = 0x03 ∨ c.opcode = 0x04 ∨ c.opcode = 0x05) :
    legalCommand c ↔ ¬illegalWords c := by
  rw [legalCommand_iff_of_row hd]
  simp only [Command.opcode_eq_iff] at h
  rcases h with h | h | h | h <;> simp [illegalWords, h, hi, bits_eq_iff, and_assoc]

theorem legalCommand_iff_cfgWrRow (h : c.opcode = 0x01) : legalCommand c ↔ ¬illegalWords c := by
  rw [legalCommand_iff_of_row (decode_cfgWrRow h)]
  simp [illegalWords, Command.opcode_eq_iff.mp h, bits_eq_iff, Instr.wellFormed, and_assoc]

theorem legalCommand_iff_cfgRdRow (h : c.opcode = 0x02) : legalCommand c ↔ ¬illegalWords c := by
  rw [legalCommand_iff_of_row (decode_cfgRdRow h)]
  simp [illegalWords, Command.opcode_eq_iff.mp h, bits_eq_iff, Instr.wellFormed, and_assoc]

theorem legalCommand_iff_itxBlkRow (h : c.opcode = 0x10) : legalCommand c ↔ ¬illegalWords c := by
  rw [legalCommand_iff_of_row (decode_itxBlkRow h)]
  simp [illegalWords, Command.opcode_eq_iff.mp h, bits_eq_iff, Instr.wellFormed, BlkOps.wellFormed, field_bit_eq_zero,
    or_iff_not_imp_left]

theorem legalCommand_iff_itx1dRow (h : c.opcode = 0x11) : legalCommand c ↔ ¬illegalWords c := by
  rw [legalCommand_iff_of_row (decode_itx1dRow h)]
  simp [illegalWords, Command.opcode_eq_iff.mp h, bits_eq_iff, bits_toNat, Instr.wellFormed, KernelOps.wellFormed,
    and_assoc]

theorem legalCommand_iff_bsCtuRow (h : c.opcode = 0x20) : legalCommand c ↔ ¬illegalWords c := by
  rw [legalCommand_iff_of_row (decode_bsCtuRow h)]
  simp [illegalWords, Command.opcode_eq_iff.mp h, bits_eq_iff, Instr.wellFormed, and_assoc]

theorem legalCommand_iff_dbfCtuRow (h : c.opcode = 0x30) : legalCommand c ↔ ¬illegalWords c := by
  rw [legalCommand_iff_of_row (decode_dbfCtuRow h)]
  simp [illegalWords, Command.opcode_eq_iff.mp h, bits_eq_iff, Instr.wellFormed, and_assoc]

/-- The opcodes of R98. -/
def knownOpcodes : List (BitVec 8) := [0x00, 0x01, 0x02, 0x03, 0x04, 0x05, 0x10, 0x11, 0x20, 0x30]

theorem decode_unknownOpcode (h : c.opcode ∉ knownOpcodes) : decode c = .error .unknownOpcode := by
  simp only [knownOpcodes, List.mem_cons, List.not_mem_nil, or_false, not_or] at h
  simp only [decode, h, if_false]

theorem illegalWords_of_unknownOpcode (h : c.opcode ∉ knownOpcodes) : illegalWords c := by
  refine .inl ?_
  simpa [knownOpcodes, Command.opcode_eq_iff] using h

/-- R99 on the four words says which commands are legal. -/
theorem legalCommand_iff : legalCommand c ↔ ¬illegalWords c := by
  by_cases h : c.opcode ∈ knownOpcodes
  · simp only [knownOpcodes, List.mem_cons, List.not_mem_nil, or_false] at h
    rcases h with h | h | h | h | h | h | h | h | h | h
    · exact legalCommand_iff_formatS (decode_nopRow h) rfl (by simp [h])
    · exact legalCommand_iff_cfgWrRow h
    · exact legalCommand_iff_cfgRdRow h
    · exact legalCommand_iff_formatS (decode_picStartRow h) rfl (by simp [h])
    · exact legalCommand_iff_formatS (decode_sresetRow h) rfl (by simp [h])
    · exact legalCommand_iff_formatS (decode_picEndRow h) rfl (by simp [h])
    · exact legalCommand_iff_itxBlkRow h
    · exact legalCommand_iff_itx1dRow h
    · exact legalCommand_iff_bsCtuRow h
    · exact legalCommand_iff_dbfCtuRow h
  · simp [legalCommand, decode_unknownOpcode h, illegalWords_of_unknownOpcode h]

end

/-- Settles O4: both sides say that the command is not legal, `legalCommand_iff` of its words and `step_illegalCmd_iff` of
the step. -/
theorem illegalCommandsFault : Obligations.IllegalCommandsFault := by
  intro s c rest hh hf
  rw [step_illegalCmd_iff hh hf, legalCommand_iff, not_not]

/-! ## Every command replies (R102) -/

/-- The reply is `OK` or a word of R102 with a code from 1 to 11. -/
def State.replied (t : State) : Prop :=
  t.accepted ∨ ∃ k, 1 ≤ k ∧ k ≤ 11 ∧ t.reply = some ⟨BitVec.ofNat 32 (1 + 2 ^ 8 * k), 0⟩

section
variable (s : State)

theorem State.replied_afterOk (v : Word) : (s.afterOk v).replied := .inl ⟨v, rfl⟩

theorem State.replied_afterRefusal : s.afterRefusal.replied := .inr ⟨11, by decide, le_rfl, rfl⟩

theorem State.replied_afterFault {k : Nat} (hk : 1 ≤ k ∧ k ≤ 10) (info : Nat) : (s.afterFault k info).replied :=
  .inr ⟨k, hk.1, by omega, rfl⟩

/-- Every command answers a next state and leaves the host's moves as they are. -/
theorem exec_replies (i : Instr) : ∃ t, exec i s = .next t ∧ t.host = s.host ∧ t.replied := by
  have hhost : ∀ {t}, exec i s = .next t → t.host = s.host := fun ht => (framesOfAllCommands i s _ ht).2.1
  rcases exec_cases i s with ⟨-, he⟩ | ⟨reg, r, -, -, he⟩ | ⟨-, he⟩ | ⟨r, -, -, he⟩ | ⟨-, -, he⟩
  · exact ⟨_, he, hhost he, .inl ⟨0, rfl⟩⟩
  · exact ⟨_, he, hhost he, s.replied_afterOk _⟩
  · exact ⟨_, he, hhost he, s.replied_afterRefusal⟩
  · exact ⟨_, he, hhost he, s.replied_afterFault r.cause.code_range r.info⟩
  · exact ⟨_, he, hhost he, (okState i s).replied_afterOk 0⟩

/-- So does a command that does not decode. -/
theorem illegalCommand_replies : ∃ t, illegalCommand s = .next t ∧ t.host = s.host ∧ t.replied := by
  refine ⟨_, illegalCommand_eq s, ?_⟩
  split
  · exact ⟨rfl, s.replied_afterRefusal⟩
  · exact ⟨rfl, s.replied_afterFault (by decide) _⟩

end

/-- Settles O8, by what the words decode to. -/
theorem everyCommandReplies : Obligations.EveryCommandReplies := by
  intro s c rest hh
  cases hd : decode c with
  | ok i => exact step_present hh hd ▸ exec_replies (s.present c rest) i
  | error e => exact step_illegal hh hd ▸ illegalCommand_replies (s.present c rest)

end Sys2Proof.Machine

namespace Sys2Proof.Machine

/-! ## The shape of the basis matrices (R122) -/

/-- The square matrices an instantiation may hold: `n` rows of `n` entries. -/
theorem matrixValid_shape {n : Nat} {m : BasisMatrix} (h : Config.matrixValid n m = true) :
    m.length = n ∧ ∀ row ∈ m, row.length = n := by
  simp only [Config.matrixValid, Bool.and_eq_true, beq_iff_eq, List.all_eq_true] at h
  exact ⟨h.1, fun row hrow => (h.2 row hrow).1⟩

/-- Each matrix of a family has twice the size of the one before it. -/
theorem familyValid_getD {n : Nat} {ms : List BasisMatrix} (h : Config.familyValid n ms = true) {i : Nat}
    (hi : i < ms.length) : Config.matrixValid (2 ^ i * n) (ms.getD i []) = true := by
  induction ms generalizing n i with
  | nil => simp at hi
  | cons m ms ih =>
    simp only [Config.familyValid, Bool.and_eq_true] at h
    obtain ⟨hm, hms⟩ := h
    cases i with
    | zero => simpa using hm
    | succ i => simpa [Nat.pow_succ, Nat.mul_assoc] using ih hms (Nat.lt_of_succ_lt_succ hi)

/-- R141, R156: the (type, size) pairs that have a kernel. -/
theorem kernelExists_iff {t : TrType} {log2N : Nat} : kernelExists t log2N = true ↔
    (t = .dct2 ∧ 1 ≤ log2N ∧ log2N ≤ 6) ∨ ((t = .dst7 ∨ t = .dct8) ∧ 2 ≤ log2N ∧ log2N ≤ 5) := by
  cases t <;> simp [kernelExists]

/-- The families of an instantiation: how many matrices each has, and their sizes (R8, R122). -/
theorem valid_families {cfg : Config} (h : cfg.valid = true) :
    (cfg.dct2.length = 6 ∧ Config.familyValid 2 cfg.dct2 = true) ∧
    (cfg.dst7.length = 4 ∧ Config.familyValid 4 cfg.dst7 = true) ∧
    (cfg.dct8.length = 4 ∧ Config.familyValid 4 cfg.dct8 = true) := by
  simp only [Config.valid, Bool.and_eq_true, beq_iff_eq] at h
  tauto

/-- The matrix of a kernel that exists is the one of its size (R122, R141). -/
theorem basisOf_valid {cfg : Config} {t : TrType} {log2N : Nat} (hc : cfg.valid = true)
    (hk : kernelExists t log2N = true) : Config.matrixValid (2 ^ log2N) (basisOf cfg t log2N) = true := by
  obtain ⟨⟨hl2, h2⟩, ⟨hl7, h7⟩, hl8, h8⟩ := valid_families hc
  rcases kernelExists_iff.mp hk with ⟨rfl, hlo, hhi⟩ | ⟨rfl | rfl, hlo, hhi⟩
  · obtain ⟨i, rfl⟩ := Nat.exists_eq_add_of_le' hlo
    exact familyValid_getD h2 (i := i) (by omega)
  · obtain ⟨i, rfl⟩ := Nat.exists_eq_add_of_le' hlo
    simpa [Nat.pow_add, basisOf] using familyValid_getD h7 (i := i) (by omega)
  · obtain ⟨i, rfl⟩ := Nat.exists_eq_add_of_le' hlo
    simpa [Nat.pow_add, basisOf] using familyValid_getD h8 (i := i) (by omega)

/-! ## The kernels value by value (R140) -/

/-- Rows of the full width give a sum for every output. -/
theorem basisSums_length {n : Nat} {rows : List (List Int)} (hw : ∀ row ∈ rows, row.length = n) (cs : List Int) :
    (basisSums n rows cs).length = n := by
  induction rows generalizing cs with
  | nil => simp [basisSums]
  | cons row rows ih =>
    obtain ⟨hrow, hrows⟩ := List.forall_mem_cons.mp hw
    cases cs with
    | nil => simp [basisSums]
    | cons c cs => rw [basisSums, List.length_zipWith, hrow, ih hrows, Nat.min_self]

/-- Output `j` of the sums is the product of the input with column `j` of the matrix. -/
theorem basisSums_getD {n j : Nat} {rows : List (List Int)} (hw : ∀ row ∈ rows, row.length = n) (cs : List Int)
    (hj : j < n) : (basisSums n rows cs).getD j 0 =
      ∑ k ∈ Finset.range rows.length, (rows.getD k []).getD j 0 * cs.getD k 0 := by
  induction rows generalizing cs with
  | nil => simp [basisSums]
  | cons row rows ih =>
    obtain ⟨hrow, hrows⟩ := List.forall_mem_cons.mp hw
    cases cs with
    | nil => simp [basisSums]
    | cons c cs =>
      have hrow_j : j < row.length := hrow ▸ hj
      have hsums_j : j < (basisSums n rows cs).length := (basisSums_length hrows cs).symm ▸ hj
      have hrest := ih hrows cs
      rw [List.getD_eq_getElem _ _ hsums_j] at hrest
      rw [List.length_cons, Finset.sum_range_succ', add_comm]
      simp [basisSums, hrow_j, hsums_j, hrest]

/-- A zero input gives zero sums, whatever the rows hold. -/
theorem basisSums_eq_zero {n : Nat} {rows : List (List Int)} {cs : List Int} (hcs : ∀ c ∈ cs, c = 0) :
    ∀ v ∈ basisSums n rows cs, v = 0 := by
  induction rows generalizing cs with
  | nil => simp [basisSums]
  | cons row rows ih =>
    cases cs with
    | nil => simp [basisSums]
    | cons c cs =>
      obtain ⟨rfl, hcs'⟩ := List.forall_mem_cons.mp hcs
      intro v hv
      obtain ⟨i, hi, rfl⟩ := List.mem_iff_getElem.mp hv
      simpa [basisSums] using ih hcs' _ (List.getElem_mem _)

theorem clip16_range (v : Int) : -32768 ≤ clip16 v ∧ clip16 v ≤ 32767 := by
  unfold clip16 clip3
  split
  · decide
  · split <;> omega

/-- The rounding and the shift of R140 as a division. -/
theorem roundShift_eq (shift : Nat) (acc : Int) : roundShift shift acc = clip16 ((acc + 2 ^ (shift - 1)) / 2 ^ shift) := by
  simp [roundShift, asr]

/-- Half a unit is rounded down: a zero sum stays zero. -/
theorem roundShift_zero {shift : Nat} (h : 1 ≤ shift) : roundShift shift 0 = 0 := by
  have hlt : (2 : Int) ^ (shift - 1) < 2 ^ shift := pow_lt_pow_right₀ (by norm_num) (by omega)
  rw [roundShift_eq, zero_add, Int.ediv_eq_zero_of_lt (by positivity) hlt]
  rfl

section
variable {cfg : Config} {t : TrType} {log2N : Nat}

theorem inv1D_length (hc : cfg.valid = true) (hk : kernelExists t log2N = true) (input : List Int) (shift : Nat) :
    (inv1D cfg t log2N input shift).length = 2 ^ log2N := by
  rw [inv1D, List.length_map, basisSums_length (matrixValid_shape (basisOf_valid hc hk)).2]

/-- `Inv1D` is the formula of R140 at each output. -/
theorem inv1D_getD (hc : cfg.valid = true) (hk : kernelExists t log2N = true) (input : List Int) (shift : Nat) {n : Nat}
    (hn : n < 2 ^ log2N) :
    (inv1D cfg t log2N input shift).getD n 0 = kernelAt cfg t log2N shift (fun k => input.getD k 0) n := by
  obtain ⟨hrows, hwidth⟩ := matrixValid_shape (basisOf_valid hc hk)
  have hlen : n < (inv1D cfg t log2N input shift).length := (inv1D_length hc hk input shift).symm ▸ hn
  have hsums_n : n < (basisSums (2 ^ log2N) (basisOf cfg t log2N) input).length := (basisSums_length hwidth input).symm ▸ hn
  have hsum := basisSums_getD hwidth input hn
  rw [List.getD_eq_getElem _ _ hsums_n, hrows] at hsum
  calc (inv1D cfg t log2N input shift).getD n 0
    _ = roundShift shift ((basisSums (2 ^ log2N) (basisOf cfg t log2N) input)[n]) := by
      rw [List.getD_eq_getElem _ _ hlen]
      exact List.getElem_map _
    _ = kernelAt cfg t log2N shift (fun k => input.getD k 0) n := by rw [roundShift_eq, hsum]; rfl

theorem kernelAt_range (shift : Nat) (input : Nat → Int) (n : Nat) :
    -32768 ≤ kernelAt cfg t log2N shift input n ∧ kernelAt cfg t log2N shift input n ≤ 32767 :=
  clip16_range _

/-- A kernel reads its first `N` inputs only. -/
theorem kernelAt_congr {shift : Nat} {f g : Nat → Int} (h : ∀ k < 2 ^ log2N, f k = g k) (n : Nat) :
    kernelAt cfg t log2N shift f n = kernelAt cfg t log2N shift g n := by
  have hsum : ∀ k ∈ Finset.range (2 ^ log2N), basisEntry cfg t log2N k n * f k = basisEntry cfg t log2N k n * g k :=
    fun k hk => congrArg _ (h k (Finset.mem_range.mp hk))
  rw [kernelAt, kernelAt, Finset.sum_congr rfl hsum]

end

/-- Settles O27: `inv1D_getD` is the formula, and the clip gives the range. -/
theorem kernelIsMatrixProduct : Obligations.KernelIsMatrixProduct := by
  intro cfg t log2N shift input hc hk _ _ _
  refine ⟨inv1D_length hc hk input shift, fun n hn => ?_⟩
  rw [inv1D_getD hc hk input shift hn]
  exact ⟨rfl, kernelAt_range _ _ _⟩

/-- Settles O28: the sums are zero, and rounding keeps zero. -/
theorem zeroInputGivesZero : Obligations.ZeroInputGivesZero := by
  intro cfg t log2N shift input hshift hzero v hv
  obtain ⟨acc, hacc, rfl⟩ := List.mem_map.mp hv
  rw [basisSums_eq_zero hzero acc hacc]
  exact roundShift_zero hshift

/-! ## Buffers of rows without padding (R67) -/

section
variable {m : Memory} {a h w : Nat} {rows : List (List Int)}

/-- A byte outside the buffer is left alone. -/
theorem RowsFit.readByte_writeDense_outside (hr : RowsFit h w rows) {x : Nat} (hx : ¬inBuffer a (2 * w * h) x) :
    (m.writeRows a (2 * w) rows).readByte x = m.readByte x := by
  refine Memory.readByte_writeRows_outside m fun i hi hin => hx ?_
  have hwidth := hr.width _ (List.getElem_mem hi)
  have hend : i * (2 * w) + 2 * w ≤ 2 * w * h := by
    rw [← Nat.succ_mul, Nat.mul_comm]
    exact Nat.mul_le_mul_left _ (Nat.lt_of_lt_of_le hi hr.count)
  unfold inBuffer at *
  omega

/-- A value of 16 bits reads back as written. -/
theorem RowsFit.readS16_writeDense (hr : RowsFit h w rows) {i j : Nat} (hi : i < rows.length) (hj : j < rows[i].length)
    (hv : -32768 ≤ rows[i][j] ∧ rows[i][j] ≤ 32767) :
    (m.writeRows a (2 * w) rows).readS16 (a + 2 * (i * w + j)) = rows[i][j] := by
  have haddr : a + 2 * (i * w + j) = a + i * (2 * w) + 2 * j := by ring
  rw [Memory.readS16, haddr,
    Memory.read_writeRows m (fun row hrow => Nat.mul_le_mul_left 2 (hr.width row hrow)) i j hi hj]
  exact sext_half hv.1 hv.2

end

theorem Memory.readSigned_getD (m : Memory) (a : Nat) {k w : Nat} (h : k < w) :
    (m.readSigned a w).getD k 0 = m.readS16 (a + 2 * k) := by
  simp [Memory.readSigned, h]

/-! ## `ITX_1D` (R158) -/

section
variable {o : KernelOps} {s : State}

/-- R94, R99: the reserved field values of format K. -/
theorem KernelOps.wellFormed_iff :
    o.wellFormed = true ↔ ¬(o.shift.toNat = 0 ∨ o.lines.toNat = 0 ∨ 64 < o.lines.toNat) := by
  simp [KernelOps.wellFormed, BitVec.toNat_eq, and_assoc]

/-- Output line `l` is the kernel's output of source vector `l`. -/
theorem itx1dLines_getElem {l : Nat} (hl : l < (itx1dLines o s).length) : (itx1dLines o s)[l] =
    inv1D s.config o.tr o.log2N.toNat
      (s.memory.readSigned (o.srcAddr.toNat + 2 * (l * 2 ^ o.log2N.toNat)) (2 ^ o.log2N.toNat)) o.shift.toNat := by
  simp [itx1dLines, readBlock]

theorem itx1dLines_length : (itx1dLines o s).length = o.lines.toNat := by simp [itx1dLines, readBlock]

/-- The value `ITX_1D` writes at position `n` of line `l`, from the source halfwords. -/
theorem itx1dLines_value (hc : s.config.valid = true) (hk : kernelExists o.tr o.log2N.toNat = true) {l n : Nat}
    (hl : l < (itx1dLines o s).length) (hn : n < (itx1dLines o s)[l].length) : (itx1dLines o s)[l][n] =
    kernelAt s.config o.tr o.log2N.toNat o.shift.toNat
      (fun k => s.memory.readS16 (o.srcAddr.toNat + 2 * (l * 2 ^ o.log2N.toNat + k))) n := by
  have hn' : n < 2 ^ o.log2N.toNat := by rwa [itx1dLines_getElem, inv1D_length hc hk] at hn
  rw [← List.getD_eq_getElem _ 0 hn, itx1dLines_getElem, inv1D_getD hc hk _ _ hn']
  refine kernelAt_congr (fun k hk => ?_) n
  rw [Memory.readSigned_getD _ _ hk, Nat.add_assoc, Nat.mul_add]

/-- The first failing check of `ITX_1D` is the fault (R288). -/
theorem exec_itx1d_fault {r : Raised} (hf : s.faulted = false) (hr : firstRaised (itx1dChecks o s) = some r) :
    exec (.itx1d o) s = .next (s.afterFault r.cause.code.toNat r.info) :=
  runChecked_fault hf hr _

/-- `ITX_1D` writes its lines when every check passes. -/
theorem exec_itx1d_ok (hf : s.faulted = false) (hw : o.wellFormed = true) (hk : kernelExists o.tr o.log2N.toNat = true)
    (hsrc : s.bufferCheck o.srcAddr (2 * o.lines.toNat * 2 ^ o.log2N.toNat) = none)
    (hdst : s.bufferCheck o.dstAddr (2 * o.lines.toNat * 2 ^ o.log2N.toNat) = none) :
    exec (.itx1d o) s = .next ((okState (.itx1d o) s).afterOk 0) := by
  refine runChecked_ok hf ?_ _
  simp [itx1dChecks, hw, hk, hsrc, hdst]

end

/-- Settles O29: the checks pass, and what they let through is a buffer of lines written without padding. -/
theorem itx1dCompletes : Obligations.Itx1dCompletes := by
  intro o s hf hc hshift hlines hlines' hk hsrc hsrcEnd hdst hdstEnd
  have hw : o.wellFormed = true := KernelOps.wellFormed_iff.mpr (by omega)
  have hfit := itx1dLines_fit o s
  refine ⟨_, exec_itx1d_ok hf hw hk (State.bufferCheck_eq_none.mpr ⟨hsrc, hsrcEnd⟩)
    (State.bufferCheck_eq_none.mpr ⟨hdst, hdstEnd⟩), fun l hl n hn => ?_, fun a ha => ?_⟩
  · have hl' : l < (itx1dLines o s).length := itx1dLines_length.symm ▸ hl
    have hn' : n < (itx1dLines o s)[l].length := by rwa [itx1dLines_getElem, inv1D_length hc hk]
    have hvalue := itx1dLines_value hc hk hl' hn'
    exact (hfit.readS16_writeDense hl' hn' (hvalue ▸ kernelAt_range _ _ _)).trans hvalue
  · exact hfit.readByte_writeDense_outside (by rwa [Nat.mul_right_comm])

/-- A misaligned or outlying buffer raises `ADDR` at its address (R62, R64). -/
theorem State.bufferCheck_eq_some {s : State} {a : Word} {n : Nat}
    (h : a.toNat % 2 = 1 ∨ s.config.bmemSize < a.toNat + n) : s.bufferCheck a n = some ⟨.addr, a.toNat⟩ := by
  refine failIf_eq_some.mpr ⟨?_, rfl⟩
  simpa using h

/-- Settles O30: each clause says which check of `itx1dChecks` is the first to fail. -/
theorem itx1dFaults : Obligations.Itx1dFaults := by
  intro o s hf bytes kernel reserved badSrc badDst
  have hwell : ¬reserved → o.wellFormed = true := KernelOps.wellFormed_iff.mpr
  have hkernel : kernel → kernelExists o.tr o.log2N.toNat = true := kernelExists_iff.mpr
  have hbuffer : ∀ a : Word, ¬(a.toNat % 2 = 1 ∨ s.config.bmemSize < a.toNat + bytes) → s.bufferCheck a bytes = none :=
    fun a ha => State.bufferCheck_eq_none.mpr (by omega)
  have hchecks : ¬reserved → kernel → firstRaised (itx1dChecks o s) =
      firstRaised [s.bufferCheck o.srcAddr bytes, s.bufferCheck o.dstAddr bytes] := fun hr hk => by
    simp [itx1dChecks, failIf, hwell hr, hkernel hk, bytes]
  refine ⟨fun hr => ?_, fun hr hk => ?_, fun hr hk hs => ?_, fun hr hk hs hd => ?_, fun hr hk hs hd => ?_⟩
  · have hw : o.wellFormed = false := Bool.eq_false_iff.mpr fun hw => KernelOps.wellFormed_iff.mp hw hr
    exact exec_itx1d_fault hf (firstRaised_of_illFormed (i := .itx1d o) hw s)
  · have hk' : kernelExists o.tr o.log2N.toNat = false := Bool.eq_false_iff.mpr fun hk' => hk (kernelExists_iff.mp hk')
    exact exec_itx1d_fault (r := ⟨.badKernel, _⟩) hf (by simp [itx1dChecks, failIf, hwell hr, hk'])
  · have hraised : firstRaised (itx1dChecks o s) = some ⟨.addr, o.srcAddr.toNat⟩ := by
      rw [hchecks hr hk, State.bufferCheck_eq_some hs, firstRaised_some]
    exact exec_itx1d_fault hf hraised
  · have hraised : firstRaised (itx1dChecks o s) = some ⟨.addr, o.dstAddr.toNat⟩ := by
      rw [hchecks hr hk, hbuffer _ hs, State.bufferCheck_eq_some hd, firstRaised_none, firstRaised_some]
    exact exec_itx1d_fault hf hraised
  · exact ⟨_, exec_itx1d_ok hf (hwell hr) (hkernel hk) (hbuffer _ hs) (hbuffer _ hd), 0, rfl⟩

end Sys2Proof.Machine

namespace Sys2Proof.Machine

/-! ## Clipping and rounding keep order (R10, R140) -/

theorem clip16_eq_max_min (v : Int) : clip16 v = max (-32768) (min 32767 v) := by
  unfold clip16 clip3
  split
  · omega
  · split <;> omega

theorem clip16_mono : Monotone clip16 := fun a b hab => by
  rw [clip16_eq_max_min, clip16_eq_max_min]
  exact max_le_max_left _ (min_le_min_left _ hab)

theorem roundShift_mono (shift : Nat) : Monotone (roundShift shift) := fun a b hab => by
  rw [roundShift_eq, roundShift_eq]
  exact clip16_mono (Int.ediv_le_ediv (by positivity) (Int.add_le_add_right hab _))

/-! ## `Dequant` in its two cases (R171) -/

theorem deqScale_eq (cfg : Config) (rect rem : Nat) :
    deqScale cfg rect rem = (if rect = 0 then cfg.deqScale0 else cfg.deqScale1).getD rem 0 := by
  unfold deqScale tableAt
  split <;> rfl

section
variable (cfg : Config) {log2W log2H qp bitDepth : Nat} {ts : Bool}

/-- A positive `rshift` rounds and shifts right, as the kernels do. -/
theorem dequant_of_pos (h : 0 < deqShift log2W log2H qp bitDepth ts) (level : Int) :
    dequant cfg log2W log2H qp bitDepth ts level = roundShift (deqShift log2W log2H qp bitDepth ts).toNat
      (level * (deqScale cfg (deqRect log2W log2H ts) (qp % 6) : Int)) := by
  have hsub : (deqShift log2W log2H qp bitDepth ts - 1).toNat = (deqShift log2W log2H qp bitDepth ts).toNat - 1 := by omega
  simp only [dequant, roundShift, if_pos h, hsub]

/-- Any other `rshift` shifts left. -/
theorem dequant_of_nonpos (h : deqShift log2W log2H qp bitDepth ts ≤ 0) (level : Int) :
    dequant cfg log2W log2H qp bitDepth ts level = clip16
      (level * (deqScale cfg (deqRect log2W log2H ts) (qp % 6) : Int) * 2 ^ (-deqShift log2W log2H qp bitDepth ts).toNat) := by
  simp only [dequant, shl, if_neg (Int.not_lt.mpr h), Nat.cast_pow, Nat.cast_ofNat]

/-- R174 (a). -/
theorem dequant_zero : dequant cfg log2W log2H qp bitDepth ts 0 = 0 := by
  rcases lt_or_ge 0 (deqShift log2W log2H qp bitDepth ts) with h | h
  · rw [dequant_of_pos cfg h, Int.zero_mul, roundShift_zero (by omega)]
  · rw [dequant_of_nonpos cfg h, Int.zero_mul, Int.zero_mul]
    rfl

/-- R172. -/
theorem dequant_range (level : Int) : -32768 ≤ dequant cfg log2W log2H qp bitDepth ts level
    ∧ dequant cfg log2W log2H qp bitDepth ts level ≤ 32767 := by
  rcases lt_or_ge 0 (deqShift log2W log2H qp bitDepth ts) with h | h
  · rw [dequant_of_pos cfg h, roundShift_eq]
    exact clip16_range _
  · rw [dequant_of_nonpos cfg h]
    exact clip16_range _

/-- Each factor and each operator of R171 keeps the order of the levels, the scale being a natural number (log entry 21). -/
theorem dequant_mono : Monotone (dequant cfg log2W log2H qp bitDepth ts) := fun a b hab => by
  have hproduct := Int.mul_le_mul_of_nonneg_right hab (Int.natCast_nonneg (deqScale cfg (deqRect log2W log2H ts) (qp % 6)))
  rcases lt_or_ge 0 (deqShift log2W log2H qp bitDepth ts) with h | h
  · rw [dequant_of_pos cfg h, dequant_of_pos cfg h]
    exact roundShift_mono _ hproduct
  · rw [dequant_of_nonpos cfg h, dequant_of_nonpos cfg h]
    exact clip16_mono (Int.mul_le_mul_of_nonneg_right hproduct (by positivity))

end

/-- Settles O31: the two cases of `dequant`, the rounding of the first written as a division. -/
theorem dequantFormula : Obligations.DequantFormula := by
  intro cfg log2W log2H qp bitDepth ts level rect rshift scale
  have hshift : rshift = deqShift log2W log2H qp bitDepth ts := rfl
  have hscale : scale = deqScale cfg (deqRect log2W log2H ts) (qp % 6) := by rw [deqScale_eq]; rfl
  rw [hshift, hscale]
  exact ⟨fun h => (dequant_of_pos cfg h level).trans (roundShift_eq _ _), fun h => dequant_of_nonpos cfg h level⟩

/-- Settles O32, by the three facts about `dequant`. -/
theorem dequantIsMonotoneAndBounded : Obligations.DequantIsMonotoneAndBounded := fun cfg _ _ _ _ _ a _ =>
  ⟨dequant_zero cfg, (dequant_range cfg a).1, (dequant_range cfg a).2, fun hab => dequant_mono cfg hab⟩

/-! ## Blocks given value by value (R67, R187) -/

/-- `h` rows of `w` values: the block whose value at row `yy`, column `xx` is `f yy xx`. -/
def blockOf (h w : Nat) (f : Nat → Nat → Int) : List (List Int) :=
  (List.range h).map fun yy => (List.range w).map (f yy)

section
variable {h w : Nat} {f g : Nat → Nat → Int}

@[simp] theorem blockOf_length : (blockOf h w f).length = h := by simp [blockOf]

@[simp] theorem blockOf_getElem_length {yy : Nat} (hy : yy < (blockOf h w f).length) : (blockOf h w f)[yy].length = w := by
  simp [blockOf]

@[simp] theorem blockOf_getElem_getElem {yy xx : Nat} (hy : yy < (blockOf h w f).length)
    (hx : xx < (blockOf h w f)[yy].length) : (blockOf h w f)[yy][xx] = f yy xx := by
  simp [blockOf]

theorem length_of_mem_blockOf {row : List Int} (hrow : row ∈ blockOf h w f) : row.length = w := by
  obtain ⟨yy, -, rfl⟩ := List.mem_map.mp hrow
  simp

theorem blockOf_map_map (k : Int → Int) : (blockOf h w f).map (List.map k) = blockOf h w fun yy xx => k (f yy xx) := by
  simp [blockOf, Function.comp_def]

theorem blockOf_zipWith (k : Int → Int → Int) : List.zipWith (List.zipWith k) (blockOf h w f) (blockOf h w g) =
    blockOf h w fun yy xx => k (f yy xx) (g yy xx) := by
  simp [blockOf, List.zipWith_map, List.zipWith_self]

theorem blockOf_succ : blockOf (h + 1) w f = (List.range w).map (f 0) :: blockOf h w fun yy => f (yy + 1) := by
  simp [blockOf, List.range_succ_eq_map, Function.comp_def]

theorem columns_cons (w : Nat) (row : List Int) (rows : List (List Int)) :
    columns w (row :: rows) = List.zipWith List.cons row (columns w rows) := rfl

/-- The columns of a block are the rows of its transpose. -/
theorem columns_blockOf : columns w (blockOf h w f) = blockOf w h fun xx yy => f yy xx := by
  induction h generalizing f with
  | zero => simp [columns, blockOf, List.map_const']
  | succ h ih =>
    rw [blockOf_succ, columns_cons, ih]
    simp [blockOf, List.zipWith_map, List.zipWith_self, List.range_succ_eq_map, Function.comp_def]

end

/-! ## Writing a block (R66, R67) -/

section
variable {a stride h w : Nat} {f : Nat → Nat → Int}

/-- A block whose rows fit the stride reads back as written. -/
theorem Memory.read_writeRows_blockOf (m : Memory) (hw : 2 * w ≤ stride) {yy xx : Nat} (hy : yy < h) (hx : xx < w) :
    (m.writeRows a stride (blockOf h w f)).read (a + yy * stride + 2 * xx) 2 = half (f yy xx) := by
  have hwidth : ∀ row ∈ blockOf h w f, 2 * row.length ≤ stride := fun row hrow => (length_of_mem_blockOf hrow).symm ▸ hw
  rw [Memory.read_writeRows m hwidth yy xx (by simpa) (by simpa), blockOf_getElem_getElem]

/-- A byte in none of the block's rows is left alone. -/
theorem Memory.readByte_writeRows_blockOf_outside (m : Memory) {x : Nat}
    (hx : ∀ yy < h, ¬inBuffer (a + yy * stride) (2 * w) x) :
    (m.writeRows a stride (blockOf h w f)).readByte x = m.readByte x := by
  refine Memory.readByte_writeRows_outside m fun yy hy => ?_
  rw [blockOf_getElem_length]
  exact hx yy (by simpa using hy)

end

/-! ## The passes value by value (R188, R189) -/

section
variable {cfg : Config} {t : TrType} {h w log2N : Nat}

/-- `Inv1D` of the first `N` values of a function. -/
theorem inv1D_range (hc : cfg.valid = true) (hk : kernelExists t log2N = true) (shift : Nat) (input : Nat → Int) :
    inv1D cfg t log2N ((List.range (2 ^ log2N)).map input) shift =
      (List.range (2 ^ log2N)).map (kernelAt cfg t log2N shift input) := by
  refine List.ext_getElem (by simp [inv1D_length hc hk]) fun n hn hn' => ?_
  have hn2 : n < 2 ^ log2N := by rwa [inv1D_length hc hk] at hn
  have hinput : ∀ k < 2 ^ log2N, ((List.range (2 ^ log2N)).map input).getD k 0 = input k := fun k hk => by simp [hk]
  rw [← List.getD_eq_getElem _ 0 hn, inv1D_getD hc hk _ _ hn2, kernelAt_congr hinput]
  simp

/-- The kernel applied to every row of a block. -/
theorem blockOf_map_inv1D (hc : cfg.valid = true) (hk : kernelExists t log2N = true) (shift : Nat) (f : Nat → Nat → Int) :
    ((blockOf h (2 ^ log2N) f).map fun row => inv1D cfg t log2N row shift) =
      blockOf h (2 ^ log2N) fun yy => kernelAt cfg t log2N shift (f yy) := by
  simp only [blockOf, List.map_map, Function.comp_def, inv1D_range hc hk]

theorem firstPass_blockOf {log2W log2H : Nat} (hc : cfg.valid = true) (hk : kernelExists t log2H = true)
    (f : Nat → Nat → Int) : firstPass cfg t log2W log2H (blockOf (2 ^ log2H) (2 ^ log2W) f) =
      blockOf (2 ^ log2H) (2 ^ log2W) fun yy xx => kernelAt cfg t log2H 7 (fun j => f j xx) yy := by
  rw [firstPass, columns_blockOf, blockOf_map_inv1D hc hk, columns_blockOf]

theorem secondPass_blockOf {log2W : Nat} (hc : cfg.valid = true) (hk : kernelExists t log2W = true) (bitDepth : Nat)
    (f : Nat → Nat → Int) : secondPass cfg t log2W bitDepth (blockOf h (2 ^ log2W) f) =
      blockOf h (2 ^ log2W) fun yy => kernelAt cfg t log2W (20 - bitDepth) (f yy) :=
  blockOf_map_inv1D hc hk _ f

end

/-! ## The residual and the samples of `ITX_BLK` (R187 to R190) -/

theorem BlkOps.identity_iff {o : BlkOps} : o.identity = true ↔ o.trH = .ident ∧ o.trV = .ident := by
  simp [BlkOps.identity]

/-- R186, check 3: a block that is no identity block has a kernel in each direction. -/
theorem kernelExists_of_noKernel {o : BlkOps} (h : noKernel o = false) (hi : o.identity = false) :
    kernelExists o.trH o.log2W.toNat = true ∧ kernelExists o.trV o.log2H.toNat = true := by
  simpa [noKernel, hi] using (Bool.or_eq_false_iff.mp h).2

theorem readBlock_eq (m : Memory) (a w h : Nat) :
    readBlock m a w h = blockOf h w fun yy xx => m.readS16 (a + 2 * (yy * w + xx)) := by
  simp only [readBlock, Memory.readSigned, blockOf, Nat.mul_add, Nat.add_assoc]

section
variable {s : State} {o : BlkOps}

/-- The residual block holds `residualAt` at each of its positions. -/
theorem State.blockResidual_eq (hc : s.config.valid = true) (hk : noKernel o = false) :
    s.blockResidual o = blockOf o.h o.w (s.residualAt o) := by
  have hd : (readBlock s.memory o.coefAddr.toNat o.w o.h).map
      (List.map (dequant s.config o.log2W.toNat o.log2H.toNat o.qp.toNat s.bitDepth o.identity)) =
      blockOf o.h o.w (s.dequantAt o) := by
    rw [readBlock_eq, blockOf_map_map]
    rfl
  unfold State.blockResidual residual
  rw [hd]
  cases hi : o.identity with
  | true =>
    have hres : s.residualAt o = s.dequantAt o := by
      funext yy xx
      exact if_pos (BlkOps.identity_iff.mp hi)
    rw [hres]
    rfl
  | false =>
    obtain ⟨hH, hV⟩ := kernelExists_of_noKernel hk hi
    have hres : s.residualAt o =
        fun yy => kernelAt s.config o.trH o.log2W.toNat (20 - s.bitDepth) (s.intermediateAt o yy) := by
      funext yy xx
      exact if_neg fun hid => Bool.false_ne_true (hi.symm.trans (BlkOps.identity_iff.mpr hid))
    have hfirst := firstPass_blockOf (log2W := o.log2W.toNat) hc hV (s.dequantAt o)
    rw [hres]
    exact (congrArg _ hfirst).trans (secondPass_blockOf hc hH _ _)

theorem State.pixAddr_add_column (s : State) (c : Plane) (x y xx : Nat) :
    s.pixAddr c (x + xx) y = s.pixAddr c x y + 2 * xx := by
  unfold State.pixAddr
  ring

theorem State.pixAddr_add_row (s : State) (c : Plane) (x y yy : Nat) :
    s.pixAddr c x (y + yy) = s.pixAddr c x y + yy * s.planeStride c := by
  unfold State.pixAddr
  ring

theorem State.readPixels_eq (s : State) (c : Plane) (x y w h : Nat) :
    s.readPixels c x y w h = blockOf h w fun yy xx => s.pix c (x + xx) (y + yy) := by
  simp only [State.readPixels, Memory.readHalves, State.pix, blockOf, State.pixAddr_add_column]

/-- The sample `ITX_BLK` reconstructs at row `yy`, column `xx` of a block of a plane (R173). -/
def State.reconAt (s : State) (o : BlkOps) (yy xx : Nat) : Int :=
  recon s.bitDepth (s.pix o.plane (o.x.toNat + xx) (o.y.toNat + yy)) (s.residualAt o yy xx)

theorem State.reconAt_eq (yy xx : Nat) : s.reconAt o yy xx =
    clip3 0 (2 ^ s.bitDepth - 1) (s.pix o.plane (o.x.toNat + xx) (o.y.toNat + yy) + s.residualAt o yy xx) := by
  simp [State.reconAt, recon, clipPix]

theorem State.reconRows_eq (hc : s.config.valid = true) (hk : noKernel o = false) :
    s.reconRows o = blockOf o.h o.w (s.reconAt o) := by
  rw [State.reconRows, State.readPixels_eq, State.blockResidual_eq hc hk, blockOf_zipWith]
  rfl

/-- A reconstructed sample fits its halfword. -/
theorem State.half_reconAt (yy xx : Nat) : (half (s.reconAt o yy xx) : Int) = s.reconAt o yy xx :=
  s.half_sample (clipPix_range _ _)

/-! ## The checks of `ITX_BLK` (R186) -/

theorem State.blockOutside_iff : s.blockOutside o = true ↔ (o.comp ≠ 0 ∧ s.chroma = 0)
    ∨ s.planeW o.plane < o.x.toNat + o.w ∨ s.planeH o.plane < o.y.toNat + o.h := by
  simp [State.blockOutside, or_assoc]

/-- R191: the CTUs a block covers, between those of its corners. -/
theorem State.mem_coveredCtus {c : Plane} {x y w h i : Nat} : i ∈ s.coveredCtus c x y w h ↔
    ∃ cx cy, x * 2 ^ s.shiftX c / s.ctuSize ≤ cx ∧ cx ≤ (x + w - 1) * 2 ^ s.shiftX c / s.ctuSize
      ∧ y * 2 ^ s.shiftY c / s.ctuSize ≤ cy ∧ cy ≤ (y + h - 1) * 2 ^ s.shiftY c / s.ctuSize ∧ s.ctuIdx cx cy = i := by
  have hrange : ∀ lo hi v : Nat, v ∈ List.range' lo (hi + 1 - lo) ↔ lo ≤ v ∧ v ≤ hi := fun lo hi v => by
    rw [List.mem_range'_1]
    omega
  simp only [State.coveredCtus, List.mem_flatMap, List.mem_map, hrange]
  constructor
  · rintro ⟨cy, ⟨hy, hy'⟩, cx, ⟨hx, hx'⟩, hi⟩
    exact ⟨cx, cy, hx, hx', hy, hy', hi⟩
  · rintro ⟨cx, cy, hx, hx', hy, hy', hi⟩
    exact ⟨cy, ⟨hy, hy'⟩, cx, ⟨hx, hx'⟩, hi⟩

theorem State.blockTooLate_eq_false : s.blockTooLate o = false ↔
    ∀ i ∈ s.coveredCtus o.plane o.x.toNat o.y.toNat o.w o.h, s.phaseOf i = .idle ∨ s.phaseOf i = .bsDone := by
  simp [State.blockTooLate, ← Phase.rank_lt_two]

/-- `ITX_BLK` has its effect when every check passes. -/
theorem exec_itxBlk_ok (hf : s.faulted = false) (h : ∀ x ∈ itxBlkChecks o s, x = none) :
    exec (.itxBlk o) s = .next ((itxBlkEffect o s).afterOk 0) :=
  runChecked_ok hf h _

/-- The checks of a block of a plane pass. -/
theorem itxBlkChecks_pass_plane (hw : o.wellFormed = true) (hk : noKernel o = false) (hro : o.resOnly = false)
    (hp : s.picActive = true) (hout : s.blockOutside o = false) (hlate : s.blockTooLate o = false)
    (hcoef : s.bufferCheck o.coefAddr (2 * o.w * o.h) = none) : ∀ x ∈ itxBlkChecks o s, x = none := by
  simp [itxBlkChecks, hw, hk, hro, hp, hout, hlate, hcoef]

/-- The effect on a block of a plane: its rows are written, one stride apart (R66, R187). -/
theorem itxBlkEffect_plane (hro : o.resOnly = false) : itxBlkEffect o s = s.setMemory
    (s.memory.writeRows (s.pixAddr o.plane o.x.toNat o.y.toNat) (s.planeStride o.plane) (s.reconRows o)) := by
  simp [itxBlkEffect, hro]

end

/-- Settles O34: the checks pass, the rows written are `reconAt` value by value, and each row fits its stride. -/
theorem itxBlkReconstructs : Obligations.ItxBlkReconstructs := by
  intro o s hinv hf hw hk hro hp hchroma hx hy hphases hcoef hcoefEnd
  have hout : s.blockOutside o = false := by
    rw [← Bool.not_eq_true, State.blockOutside_iff]
    rintro (⟨hcomp, hc⟩ | hx' | hy')
    · exact hchroma hcomp hc
    · exact absurd hx (Nat.not_le.mpr hx')
    · exact absurd hy (Nat.not_le.mpr hy')
  have hlate : s.blockTooLate o = false := State.blockTooLate_eq_false.mpr fun i hi => by
    obtain ⟨cx, cy, hx1, hx2, hy1, hy2, rfl⟩ := State.mem_coveredCtus.mp hi
    exact hphases cx cy hx1 hx2 hy1 hy2
  have hchecks := itxBlkChecks_pass_plane hw hk hro hp hout hlate (State.bufferCheck_eq_none.mpr ⟨hcoef, hcoefEnd⟩)
  have heffect : itxBlkEffect o s = s.setMemory (s.memory.writeRows (s.pixAddr o.plane o.x.toNat o.y.toNat)
      (s.planeStride o.plane) (blockOf o.h o.w (s.reconAt o))) := by
    rw [itxBlkEffect_plane hro, State.reconRows_eq hinv.config hk]
  have hstride : 2 * o.w ≤ s.planeStride o.plane :=
    calc 2 * o.w ≤ 2 * s.planeW o.plane := by omega
      _ ≤ s.planeStride o.plane := (hinv.picture hp).planeStrides _ (State.blockOutside_eq_false hout).1
  refine ⟨_, heffect ▸ exec_itxBlk_ok hf hchecks, fun yy hyy xx hxx => ?_, fun a ha => ?_⟩
  · rw [State.pixAddr_add_column, State.pixAddr_add_row, Memory.read_writeRows_blockOf _ hstride hyy hxx,
      State.half_reconAt, State.reconAt_eq]
  · refine Memory.readByte_writeRows_blockOf_outside _ fun yy hyy hin => ha ⟨yy, hyy, ?_⟩
    rwa [State.pixAddr_add_row]

end Sys2Proof.Machine

namespace Sys2Proof.Machine

/-! ## A residual buffer (R67, R68) -/

section
variable {s : State} {o : BlkOps}

/-- R172, R189: a residual is a signed 16-bit value. -/
theorem State.residualAt_range (yy xx : Nat) : -32768 ≤ s.residualAt o yy xx ∧ s.residualAt o yy xx ≤ 32767 := by
  unfold State.residualAt
  split
  · exact dequant_range ..
  · exact kernelAt_range ..

/-- The checks of a residual-only block pass, with or without a picture. -/
theorem itxBlkChecks_pass_residual (hw : o.wellFormed = true) (hk : noKernel o = false) (hro : o.resOnly = true)
    (hcoef : s.bufferCheck o.coefAddr (2 * o.w * o.h) = none) (hres : s.bufferCheck o.resAddr (2 * o.w * o.h) = none) :
    ∀ x ∈ itxBlkChecks o s, x = none := by
  simp [itxBlkChecks, hw, hk, hro, hcoef, hres]

/-- The effect of a residual-only block: its residual is written without padding (R67, R187). -/
theorem itxBlkEffect_residual (hro : o.resOnly = true) : itxBlkEffect o s =
    s.setMemory (s.memory.writeRows o.resAddr.toNat (2 * o.w) (s.blockResidual o)) := by
  simp [itxBlkEffect, hro]

end

/-- Settles O33: the checks pass, and the block written without padding is `residualAt` value by value, each value a signed
halfword. -/
theorem itxBlkStoresResidual : Obligations.ItxBlkStoresResidual := by
  intro o s hf hc hw hk hro hcoef hcoefEnd hres hresEnd
  have hchecks := itxBlkChecks_pass_residual hw hk hro (State.bufferCheck_eq_none.mpr ⟨hcoef, hcoefEnd⟩)
    (State.bufferCheck_eq_none.mpr ⟨hres, hresEnd⟩)
  have hfit := s.blockResidual_fit o
  have heffect := itxBlkEffect_residual (s := s) hro
  rw [State.blockResidual_eq hc hk] at hfit heffect
  refine ⟨_, heffect ▸ exec_itxBlk_ok hf hchecks, fun yy hyy xx hxx => ?_, fun a ha => ?_⟩
  · have hvalue := hfit.readS16_writeDense (m := s.memory) (a := o.resAddr.toNat) (i := yy) (j := xx) (by simpa) (by simpa)
      (by simpa using State.residualAt_range yy xx)
    rwa [blockOf_getElem_getElem] at hvalue
  · exact hfit.readByte_writeDense_outside ha

/-! ## The faults of `ITX_BLK` (R186) -/

/-- R93, R99: the reserved field values of format T. -/
theorem BlkOps.wellFormed_eq_false {o : BlkOps} :
    o.wellFormed = false ↔ o.comp = 3 ∨ (o.resOnly = false ∧ o.resAddr ≠ 0) := by
  simp [BlkOps.wellFormed, or_iff_not_imp_left]

/-- R141, R156: at a size a block may have, `DCT2` has a kernel and the other two types have one of sizes 4 to 32. -/
theorem kernelExists_iff_of_size {t : TrType} {n : Nat} (hn : 1 ≤ n ∧ n ≤ 6) :
    kernelExists t n = true ↔ t = .dct2 ∨ ((t = .dst7 ∨ t = .dct8) ∧ 2 ≤ n ∧ n ≤ 5) := by
  simp [kernelExists_iff, hn]

/-- A size field of a block is 0, 7 or a legal size. -/
theorem blockSize_iff (n : BitVec 3) : n ≠ 0 ∧ n ≠ 7 ↔ 1 ≤ n.toNat ∧ n.toNat ≤ 6 := by
  revert n
  decide

/-- Check 3 of R186 passes: the sizes are legal, and the block is an identity block or has both its kernels. -/
theorem noKernel_eq_false_iff {o : BlkOps} : noKernel o = false ↔
    ((1 ≤ o.log2W.toNat ∧ o.log2W.toNat ≤ 6) ∧ (1 ≤ o.log2H.toNat ∧ o.log2H.toNat ≤ 6))
    ∧ ((o.trH = .ident ∧ o.trV = .ident)
      ∨ (kernelExists o.trH o.log2W.toNat = true ∧ kernelExists o.trV o.log2H.toNat = true)) := by
  rw [← blockSize_iff, ← blockSize_iff, ← BlkOps.identity_iff]
  cases hi : o.identity <;> simp [noKernel, hi, and_assoc]

section
variable {s : State} {o : BlkOps}

/-- R191: a block is too late when a CTU between those of its corners is `VER_DONE` or `HOR_DONE`. -/
theorem State.blockTooLate_iff : s.blockTooLate o = true ↔
    ∃ cx cy, o.x.toNat * 2 ^ s.shiftX o.plane / s.ctuSize ≤ cx
      ∧ cx ≤ (o.x.toNat + o.w - 1) * 2 ^ s.shiftX o.plane / s.ctuSize
      ∧ o.y.toNat * 2 ^ s.shiftY o.plane / s.ctuSize ≤ cy
      ∧ cy ≤ (o.y.toNat + o.h - 1) * 2 ^ s.shiftY o.plane / s.ctuSize
      ∧ (s.phaseOf (s.ctuIdx cx cy) = .verDone ∨ s.phaseOf (s.ctuIdx cx cy) = .horDone) := by
  simp only [State.blockTooLate, List.any_eq_true, decide_eq_true_eq, Phase.two_le_rank, State.mem_coveredCtus]
  constructor
  · rintro ⟨i, ⟨cx, cy, hx, hx', hy, hy', rfl⟩, hphase⟩
    exact ⟨cx, cy, hx, hx', hy, hy', hphase⟩
  · rintro ⟨cx, cy, hx, hx', hy, hy', hphase⟩
    exact ⟨_, ⟨cx, cy, hx, hx', hy, hy', rfl⟩, hphase⟩

/-- The check of a buffer passes unless it is misaligned or outlying (R62, R64). -/
theorem State.bufferCheck_eq_none_iff_not {a : Word} {n : Nat} :
    s.bufferCheck a n = none ↔ ¬(a.toNat % 2 = 1 ∨ s.config.bmemSize < a.toNat + n) := by
  rw [State.bufferCheck_eq_none]
  omega

/-- The first failing check of `ITX_BLK` is the fault (R288). -/
theorem exec_itxBlk_fault {r : Raised} (hf : s.faulted = false) (hr : firstRaised (itxBlkChecks o s) = some r) :
    exec (.itxBlk o) s = .next (s.afterFault r.cause.code.toNat r.info) :=
  runChecked_fault hf hr _

end

/-- Settles O35: each condition is that of one check of `itxBlkChecks`, and each clause says which check fails first. -/
theorem itxBlkFaults : Obligations.ItxBlkFaults := by
  intro o s hf inPlane reserved sizes kernels noPicture outside late badCoef badRes
  have hreserved : reserved ↔ o.wellFormed = false := BlkOps.wellFormed_eq_false.symm
  have hkernels : sizes ∧ kernels ↔ noKernel o = false := by
    rw [noKernel_eq_false_iff]
    exact and_congr_right fun hs => by rw [kernelExists_iff_of_size hs.1, kernelExists_iff_of_size hs.2]
  have hpicture : noPicture ↔ (!o.resOnly && !s.picActive) = true := by simp [noPicture, inPlane]
  have houtside : outside ↔ (!o.resOnly && s.blockOutside o) = true := by
    simp [outside, inPlane, State.blockOutside_iff]
  have hlate : late ↔ (!o.resOnly && s.blockTooLate o) = true := by simp [late, inPlane, State.blockTooLate_iff]
  have hcoef : ¬badCoef → s.bufferCheck o.coefAddr (2 * o.w * o.h) = none := State.bufferCheck_eq_none_iff_not.mpr
  have hres : ¬badRes → (if o.resOnly then s.bufferCheck o.resAddr (2 * o.w * o.h) else none) = none := fun h =>
    ite_eq_right_iff.mpr fun hro => State.bufferCheck_eq_none_iff_not.mpr fun hbad => h ⟨hro, hbad⟩
  rw [hreserved, hkernels, hpicture, houtside, hlate]
  simp only [Bool.not_eq_true, Bool.not_eq_false]
  refine ⟨fun hw => ?_, fun hw hk => ?_, fun hw hk => ⟨fun hp => ?_, fun hp ho => ?_, fun hp ho hl => ?_,
    fun hp ho hl => ?_⟩⟩
  · exact exec_itxBlk_fault hf (firstRaised_of_illFormed (i := .itxBlk o) hw s)
  · exact exec_itxBlk_fault (r := ⟨.badKernel, _⟩) hf (by simp [itxBlkChecks, failIf, hw, hk])
  · exact exec_itxBlk_fault (r := ⟨.order, _⟩) hf (by simp [itxBlkChecks, failIf, hw, hk, hp])
  · exact exec_itxBlk_fault (r := ⟨.badDim, _⟩) hf (by simp [itxBlkChecks, failIf, hw, hk, hp, ho])
  · exact exec_itxBlk_fault (r := ⟨.order, _⟩) hf (by simp [itxBlkChecks, failIf, hw, hk, hp, ho, hl])
  have hbuffers : firstRaised (itxBlkChecks o s) = firstRaised [s.bufferCheck o.coefAddr (2 * o.w * o.h),
      if o.resOnly then s.bufferCheck o.resAddr (2 * o.w * o.h) else none] := by
    simp [itxBlkChecks, failIf, hw, hk, hp, ho, hl]
  refine ⟨fun hc => ?_, fun hc hr => ?_, fun hc hr => ?_⟩
  · rw [State.bufferCheck_eq_some hc, firstRaised_some] at hbuffers
    exact exec_itxBlk_fault hf hbuffers
  · rw [hcoef hc, if_pos hr.1, State.bufferCheck_eq_some hr.2, firstRaised_none, firstRaised_some] at hbuffers
    exact exec_itxBlk_fault hf hbuffers
  · rw [hcoef hc, hres hr, firstRaised_none, firstRaised_none] at hbuffers
    exact ⟨_, exec_itxBlk_ok hf (firstRaised_eq_none.mp hbuffers), 0, rfl⟩

end Sys2Proof.Machine

namespace Sys2Proof.Machine

/-! ## The strength of an edge (R205, R206) -/

section
variable {p q : MetaRec}

/-- `Far` of R206: two vectors are apart by 4 or more in a component. -/
theorem far_iff {ax ay bx bv : Int} : far ax ay bx bv = true ↔ 4 ≤ |ax - bx| ∨ 4 ≤ |ay - bv| := by
  simp only [far, Bool.or_eq_true, decide_eq_true_eq, Int.abs_eq_natAbs]
  omega

theorem far_eq_false_iff {ax ay bx bv : Int} : far ax ay bx bv = false ↔ |ax - bx| < 4 ∧ |ay - bv| < 4 := by
  rw [← Bool.not_eq_true, far_iff, not_or, not_le, not_le]

theorem far_comm (ax ay bx bv : Int) : far ax ay bx bv = far bx bv ax ay := by
  rw [Bool.eq_iff_iff, far_iff, far_iff, abs_sub_comm ax, abs_sub_comm ay]

theorem far00_comm (p q : MetaRec) : far00 p q = far00 q p := far_comm ..
theorem far11_comm (p q : MetaRec) : far11 p q = far11 q p := far_comm ..
theorem far01_comm (p q : MetaRec) : far01 p q = far10 q p := far_comm ..

theorem mvMismatch_of_ne (h : p.numMv ≠ q.numMv) : mvMismatch p q = true := if_pos h

theorem mvMismatch_of_zero (hp : p.numMv = 0) (hq : q.numMv = 0) : mvMismatch p q = false := by
  simp [mvMismatch, hp, hq]

/-- R206 for one vector a side. -/
theorem mvMismatch_iff_of_one (hp : p.numMv = 1) (hq : q.numMv = 1) :
    mvMismatch p q = true ↔ p.ref0 ≠ q.ref0 ∨ far00 p q = true := by
  by_cases h : p.ref0 = q.ref0 <;> simp [mvMismatch, hp, hq, h]

/-- R206 for two vectors a side: the motions match when one of the two pairings matches references and vectors. -/
theorem mvMismatch_eq_false_iff_of_two (heq : p.numMv = q.numMv) (h0 : p.numMv ≠ 0) (h1 : p.numMv ≠ 1) :
    mvMismatch p q = false ↔
      (p.ref0 = q.ref0 ∧ p.ref1 = q.ref1 ∧ far00 p q = false ∧ far11 p q = false)
        ∨ (p.ref0 = q.ref1 ∧ p.ref1 = q.ref0 ∧ far01 p q = false ∧ far10 p q = false) := by
  have hm : mvMismatch p q = if !sameRefs p q then true
      else if p.ref0 ≠ p.ref1 then
        if p.ref0 = q.ref0 then far00 p q || far11 p q else far01 p q || far10 p q
      else (far00 p q || far11 p q) && (far01 p q || far10 p q) := by
    simp only [mvMismatch, heq, ne_eq, not_true, if_false, heq ▸ h0, heq ▸ h1]
  have hs : sameRefs p q = true ↔ (p.ref0 = q.ref0 ∧ p.ref1 = q.ref1) ∨ (p.ref0 = q.ref1 ∧ p.ref1 = q.ref0) := by
    simp [sameRefs]
  rw [hm]
  by_cases hsame : sameRefs p q = true
  case neg =>
    rw [if_pos (by simp [hsame])]
    have hno := mt hs.mpr hsame
    tauto
  rw [if_neg (by simp [hsame])]
  have hrefs := hs.mp hsame
  by_cases hp : p.ref0 = p.ref1
  · have hall : (p.ref0 = q.ref0 ∧ p.ref1 = q.ref1) ∧ p.ref0 = q.ref1 ∧ p.ref1 = q.ref0 := by omega
    rw [if_neg (not_not.mpr hp), Bool.and_eq_false_iff, Bool.or_eq_false_iff, Bool.or_eq_false_iff]
    tauto
  rw [if_pos hp]
  by_cases h00 : p.ref0 = q.ref0
  · have hstraight : p.ref1 = q.ref1 ∧ p.ref0 ≠ q.ref1 := by omega
    rw [if_pos h00, Bool.or_eq_false_iff]
    tauto
  · rw [if_neg h00, Bool.or_eq_false_iff]
    tauto

/-- R206 does not depend on which side is called P. -/
theorem mvMismatch_comm (p q : MetaRec) : mvMismatch p q = mvMismatch q p := by
  by_cases heq : p.numMv = q.numMv
  case neg => rw [mvMismatch_of_ne heq, mvMismatch_of_ne (Ne.symm heq)]
  by_cases h0 : p.numMv = 0
  · rw [mvMismatch_of_zero h0 (heq ▸ h0), mvMismatch_of_zero (heq ▸ h0) h0]
  by_cases h1 : p.numMv = 1
  · rw [Bool.eq_iff_iff, mvMismatch_iff_of_one h1 (heq ▸ h1), mvMismatch_iff_of_one (heq ▸ h1) h1, far00_comm p,
      ne_comm]
  · have hfalse : mvMismatch p q = false ↔ mvMismatch q p = false := by
      rw [mvMismatch_eq_false_iff_of_two heq h0 h1, mvMismatch_eq_false_iff_of_two heq.symm (heq ▸ h0) (heq ▸ h1),
        far00_comm p, far11_comm p, far01_comm p, ← far01_comm q, eq_comm (a := p.ref0) (b := q.ref0),
        eq_comm (a := p.ref1) (b := q.ref1), eq_comm (a := p.ref0) (b := q.ref1), eq_comm (a := p.ref1) (b := q.ref0)]
      tauto
    cases h : mvMismatch q p <;> simp_all

/-- R205: an intra side makes the strength 2. -/
theorem boundaryStrength_of_intra (h : p.predMode = 0 ∨ q.predMode = 0) : boundaryStrength p q = 2 := if_pos h

/-- R205 between two sides that are not intra. -/
theorem boundaryStrength_of_inter (hp : p.predMode ≠ 0) (hq : q.predMode ≠ 0) :
    boundaryStrength p q = if p.cbfY = true ∨ q.cbfY = true ∨ mvMismatch p q = true then 1 else 0 := by
  by_cases hc : p.cbfY = true ∨ q.cbfY = true <;> simp [boundaryStrength, hp, hq, hc, ← or_assoc]

theorem boundaryStrength_le (p q : MetaRec) : boundaryStrength p q ≤ 2 := by
  unfold boundaryStrength
  split_ifs <;> decide

theorem boundaryStrength_comm (p q : MetaRec) : boundaryStrength p q = boundaryStrength q p := by
  by_cases hi : p.predMode = 0 ∨ q.predMode = 0
  · rw [boundaryStrength_of_intra hi, boundaryStrength_of_intra hi.symm]
  · obtain ⟨hp, hq⟩ := not_or.mp hi
    rw [boundaryStrength_of_inter hp hq, boundaryStrength_of_inter hq hp, mvMismatch_comm p]
    exact if_congr or_left_comm rfl rfl

end

/-- Settles O40: the strength by its first matching rule, the mismatch by the number of vectors. -/
theorem boundaryStrengthRules : Obligations.BoundaryStrengthRules := by
  intro p q near
  have hinter : p.predMode ≠ 0 → q.predMode ≠ 0 → (p.cbfY = true ∨ q.cbfY = true ∨ mvMismatch p q = true ↔
      boundaryStrength p q = 1) := fun hp hq => by
    rw [boundaryStrength_of_inter hp hq]
    split_ifs with h <;> simp [h]
  refine ⟨⟨boundaryStrength_of_intra, fun h2 => ?_⟩, hinter, fun hp hq hcp hcq hm => ?_, boundaryStrength_comm p q,
    mvMismatch_of_ne, mvMismatch_of_zero, fun hp hq => ?_, fun hp hq => ?_⟩
  · by_contra hi
    obtain ⟨hp, hq⟩ := not_or.mp hi
    rw [boundaryStrength_of_inter hp hq] at h2
    split at h2 <;> omega
  · simp [boundaryStrength_of_inter hp hq, hcp, hcq, hm]
  · rw [mvMismatch_iff_of_one hp hq, far00, far_iff]
  · rw [mvMismatch_eq_false_iff_of_two (hp.trans hq.symm) (by omega) (by omega)]
    simp only [far00, far11, far01, far10, far_eq_false_iff, near]

end Sys2Proof.Machine

namespace Sys2Proof.Machine

/-! ## The bits of an entry (R72, R204 to R212) -/

/-- The numeric fields of an entry fit their places (R72). -/
structure LfpEntry.Fits (e : LfpEntry) : Prop where
  bs : e.bs < 4
  lenP : e.lenP < 8
  lenQ : e.lenQ < 8
  rsvd : e.rsvd < 4

theorem flag_eq_of_bit {w i : Nat} {b : Bool} (h : w / 2 ^ i % 2 = b.toNat) : flag w i = b := by
  cases b <;> simp [flag, field, h]

/-- R72: an entry whose fields fit is read back from its value. -/
theorem LfpEntry.ofBits_toBits {e : LfpEntry} (h : e.Fits) : LfpEntry.ofBits e.toBits = e := by
  obtain ⟨bs, lenP, lenQ, cuEdge, tuEdge, onBnd, sameCtu, ccCb, ccCr, rsvd⟩ := e
  obtain ⟨hbs, hlenP, hlenQ, hrsvd⟩ := h
  have hcu := cuEdge.toNat_lt
  have htu := tuEdge.toNat_lt
  have hbnd := onBnd.toNat_lt
  have hsame := sameCtu.toNat_lt
  have hcb := ccCb.toNat_lt
  have hcr := ccCr.toNat_lt
  simp only [LfpEntry.ofBits, LfpEntry.toBits, field, LfpEntry.mk.injEq] at hbs hlenP hlenQ hrsvd ⊢
  refine ⟨by omega, by omega, by omega, ?_, ?_, ?_, ?_, ?_, ?_, by omega⟩
  all_goals
    apply flag_eq_of_bit
    omega

/-- The bits above the last field are zero. -/
theorem LfpEntry.toBits_lt {e : LfpEntry} (h : e.Fits) (hr : e.rsvd = 0) : e.toBits < 2 ^ 14 := by
  obtain ⟨hbs, hlenP, hlenQ, -⟩ := h
  have hcu := e.cuEdge.toNat_lt
  have htu := e.tuEdge.toNat_lt
  have hbnd := e.onBnd.toNat_lt
  have hsame := e.sameCtu.toNat_lt
  have hcb := e.ccCb.toNat_lt
  have hcr := e.ccCr.toNat_lt
  unfold LfpEntry.toBits
  omega

/-- R207: a side of 8 samples or more is filtered up to 7 deep, a shorter one not at all. -/
theorem filterLen_eq (side : Nat) : filterLen side = if side < 8 then 0 else 7 := by
  unfold filterLen
  split <;> omega

theorem filterLen_lt (side : Nat) : filterLen side < 8 := by
  rw [filterLen_eq]
  split <;> decide

theorem isTuEdge_iff {p q : MetaRec} : isTuEdge p q = true ↔ p.cuId ≠ q.cuId ∨ p.tuId ≠ q.tuId := by
  simp [isTuEdge, isCuEdge]

section
variable (s : State) (dir : Dir) (gx gy ux uy : Nat) (p q : MetaRec)

theorem State.edgeEntry_fits : (s.edgeEntry dir gx gy ux uy p q).Fits :=
  ⟨Nat.lt_succ_of_le ((boundaryStrength_le p q).trans (by decide)), filterLen_lt _, filterLen_lt _, Nat.zero_lt_succ 3⟩

/-- R210: `ON_BND` by its two causes. -/
theorem State.onBoundary_iff : s.onBoundary dir gx gy p q = true ↔ (p.tileId ≠ q.tileId ∧ s.crossTileEn = false)
    ∨ (s.crossVbEn = false ∧ match dir with
      | .ver => 4 * gx ∈ s.vbColumns
      | .hor => 4 * gy ∈ s.vbRows) := by
  cases dir <;> simp [State.onBoundary]

/-- R208: `SAME_CTU` exactly off the CTU's first column or row. -/
theorem sameCtu_iff : sameCtu dir ux uy = true ↔ match dir with
    | .ver => ux ≠ 0
    | .hor => uy ≠ 0 := by
  cases dir <;> simp [sameCtu]

end

/-- The Q unit lies on the left or top border of the picture, so the segment has no P side (R204). -/
def onBorder (dir : Dir) (gx gy : Nat) : Prop := (dir = .ver ∧ gx = 0) ∨ (dir = .hor ∧ gy = 0)

section
variable {s : State} {dir : Dir} {gx gy ux uy : Nat}

theorem State.bsEntry_of_outside (h : s.unitInside gx gy = false) : s.bsEntry dir gx gy ux uy = 0 := by
  simp [State.bsEntry, h]

theorem State.bsEntry_of_border (h : s.unitInside gx gy = true) (hb : onBorder dir gx gy) :
    s.bsEntry dir gx gy ux uy = 0x0700 := by
  obtain ⟨rfl, rfl⟩ | ⟨rfl, rfl⟩ := hb <;> simp [State.bsEntry, h]

/-- R204: no edge, no entry. -/
theorem State.bsEntry_of_noEdge (h : s.unitInside gx gy = true) (hb : ¬onBorder dir gx gy)
    (ht : isTuEdge (s.recP dir gx gy) (s.metaRec gx gy) = false) : s.bsEntry dir gx gy ux uy = 0 := by
  cases dir <;> simp_all [State.bsEntry, onBorder]

/-- R212 at an edge. -/
theorem State.bsEntry_of_edge (h : s.unitInside gx gy = true) (hb : ¬onBorder dir gx gy)
    (ht : isTuEdge (s.recP dir gx gy) (s.metaRec gx gy) = true) : s.bsEntry dir gx gy ux uy =
      (s.edgeEntry dir gx gy ux uy (s.recP dir gx gy) (s.metaRec gx gy)).toBits := by
  cases dir <;> simp_all [State.bsEntry, onBorder]

/-- R212: an entry uses bits 13 to 0. -/
theorem State.bsEntry_lt : s.bsEntry dir gx gy ux uy < 2 ^ 14 := by
  cases hin : s.unitInside gx gy with
  | false => simp [State.bsEntry_of_outside hin]
  | true =>
    by_cases hb : onBorder dir gx gy
    · simp [State.bsEntry_of_border hin hb]
    · cases ht : isTuEdge (s.recP dir gx gy) (s.metaRec gx gy) with
      | false => simp [State.bsEntry_of_noEdge hin hb ht]
      | true => exact State.bsEntry_of_edge hin hb ht ▸ LfpEntry.toBits_lt (s.edgeEntry_fits ..) rfl

end

/-- Settles O39, by the cases of `Entry`; at an edge the fields are those of `edgeEntry`, which its value gives back. -/
theorem bsEntryBits : Obligations.BsEntryBits := by
  intro s dir gx gy ux uy e inside border q p sideOf
  have hinside : inside ↔ s.unitInside gx gy = true := State.unitInside_iff.symm
  have hp : s.recP dir gx gy = p := by cases dir <;> rfl
  have hside : ∀ r, sideSize dir r = sideOf r := by cases dir <;> exact fun r => rfl
  rw [hinside]
  refine ⟨fun hin => ?_, fun hin hb => State.bsEntry_of_border hin hb, fun hin hb hcu htu => ?_, fun hin hb hedge => ?_⟩
  · exact State.bsEntry_of_outside (Bool.eq_false_iff.mpr hin)
  · have hno : isTuEdge p q = false := Bool.eq_false_iff.mpr fun h => (isTuEdge_iff.mp h).elim (· hcu) (· htu)
    exact State.bsEntry_of_noEdge hin hb (hp ▸ hno)
  have he : e = (s.edgeEntry dir gx gy ux uy p q).toBits :=
    hp ▸ State.bsEntry_of_edge hin hb (hp ▸ isTuEdge_iff.mpr hedge)
  have hfields : LfpEntry.ofBits e = s.edgeEntry dir gx gy ux uy p q :=
    he ▸ LfpEntry.ofBits_toBits (s.edgeEntry_fits ..)
  simp only [LfpEntry.ofBits, State.edgeEntry, LfpEntry.mk.injEq] at hfields
  obtain ⟨hbs, hlenP, hlenQ, hcu, htu, hbnd, hsame, hcb, hcr, -⟩ := hfields
  refine ⟨State.bsEntry_lt, hbs, boundaryStrength_le p q, ?_, ?_, ?_, htu, ?_, ?_, ?_, ?_⟩
  · rw [hlenP, filterLen_eq, hside]
  · rw [hlenQ, filterLen_eq, hside]
  · simp [hcu, isCuEdge]
  · rw [hbnd]
    exact s.onBoundary_iff ..
  · rw [hsame]
    exact sameCtu_iff ..
  · rw [hcb, Bool.or_eq_true]
  · rw [hcr, Bool.or_eq_true]

end Sys2Proof.Machine

namespace Sys2Proof.Machine

/-! ## The records `BS_CTU` reads (R203) -/

section
variable {s : State} {cx cy : Nat}

/-- The column left of a CTU of the picture lies inside the picture (R203). -/
theorem State.leftColumn_inside (h : cx < s.ctusW) (h0 : cx ≠ 0) (hu : 0 < s.units) : cx * s.units - 1 < s.picW / 4 :=
  unitBefore_inside h h0 hu

/-- The row above a CTU of the picture lies inside the picture (R203). -/
theorem State.rowAbove_inside (h : cy < s.ctusH) (h0 : cy ≠ 0) (hu : 0 < s.units) : cy * s.units - 1 < s.picH / 4 :=
  unitBefore_inside h h0 hu

theorem exists_offset_iff {a n x : Nat} : (∃ k < n, a + k = x) ↔ a ≤ x ∧ x < a + n := by
  constructor
  · rintro ⟨k, hk, rfl⟩
    omega
  · exact fun h => ⟨x - a, by omega, by omega⟩

/-- The units of a column from (x, b) down. -/
theorem mem_unitColumn {x b n : Nat} {g : Nat × Nat} :
    g ∈ (List.range n).map (fun k => (x, b + k)) ↔ g.1 = x ∧ b ≤ g.2 ∧ g.2 < b + n := by
  rw [← exists_offset_iff]
  simp only [List.mem_map, List.mem_range, Prod.ext_iff]
  exact ⟨fun ⟨k, hk, h1, h2⟩ => ⟨h1.symm, k, hk, h2⟩, fun ⟨h1, k, hk, h2⟩ => ⟨k, hk, h1.symm, h2⟩⟩

/-- The units of a row from (a, y) on. -/
theorem mem_unitRow {a y n : Nat} {g : Nat × Nat} :
    g ∈ (List.range n).map (fun k => (a + k, y)) ↔ g.2 = y ∧ a ≤ g.1 ∧ g.1 < a + n := by
  rw [← exists_offset_iff]
  simp only [List.mem_map, List.mem_range, Prod.ext_iff]
  exact ⟨fun ⟨k, hk, h1, h2⟩ => ⟨h2.symm, k, hk, h1⟩, fun ⟨h2, k, hk, h1⟩ => ⟨k, hk, h1, h2.symm⟩⟩

/-- The units of a square from (a, b) on. -/
theorem mem_unitSquare {a b n : Nat} {g : Nat × Nat} :
    g ∈ (List.range n).flatMap (fun l => (List.range n).map fun k => (a + k, b + l)) ↔
      a ≤ g.1 ∧ g.1 < a + n ∧ b ≤ g.2 ∧ g.2 < b + n := by
  rw [← and_assoc, ← exists_offset_iff (x := g.2)]
  simp only [List.mem_flatMap, mem_unitRow, List.mem_range]
  exact ⟨fun ⟨l, hl, h2, h1⟩ => ⟨h1, l, hl, h2.symm⟩, fun ⟨h1, l, hl, h2⟩ => ⟨l, hl, h2.symm, h1⟩⟩

/-- R203: the records `BS_CTU` reads are those of the units inside the picture that are its own, left of it or above it. -/
theorem State.mem_bsUnits {g : Nat × Nat} : g ∈ s.bsUnits cx cy ↔ g.1 < s.picW / 4 ∧ g.2 < s.picH / 4 ∧
    ((cx * s.units ≤ g.1 ∧ g.1 < cx * s.units + s.units ∧ cy * s.units ≤ g.2 ∧ g.2 < cy * s.units + s.units)
      ∨ (cx ≠ 0 ∧ g.1 = cx * s.units - 1 ∧ cy * s.units ≤ g.2 ∧ g.2 < cy * s.units + s.units)
      ∨ (cy ≠ 0 ∧ g.2 = cy * s.units - 1 ∧ cx * s.units ≤ g.1 ∧ g.1 < cx * s.units + s.units)) := by
  rw [State.bsUnits_eq, List.mem_filter, List.mem_append, List.mem_append, List.mem_ite_nil_left, List.mem_ite_nil_left,
    mem_unitSquare, mem_unitColumn, mem_unitRow, decide_eq_true_iff, or_assoc, and_comm, and_assoc]

end

/-- Settles O38: the tests of R203 on each part, where the column to the left and the row above are inside the picture
along their own axis. -/
theorem bsUnitsAreTheListed : Obligations.BsUnitsAreTheListed := by
  intro s cx cy gx0 gy0 gw gh
  refine ⟨fun hx hy => ?_, fun gx gy => State.mem_bsUnits⟩
  have hleft : cx ≠ 0 → ∀ uy ∈ List.range s.units, gx0 - 1 < gw := fun h0 uy hu =>
    State.leftColumn_inside hx h0 (Nat.zero_lt_of_lt (List.mem_range.mp hu))
  have habove : cy ≠ 0 → ∀ ux ∈ List.range s.units, gy0 - 1 < gh := fun h0 ux hu =>
    State.rowAbove_inside hy h0 (Nat.zero_lt_of_lt (List.mem_range.mp hu))
  rw [State.bsUnits_eq, List.filter_append, List.filter_append]
  congr 1
  · congr 1
    split
    · rfl
    · next h0 =>
      rw [List.filter_map]
      exact congrArg _ (List.filter_congr fun uy hu => decide_eq_decide.mpr (and_iff_right (hleft h0 uy hu)))
  · split
    · rfl
    · next h0 =>
      rw [List.filter_map]
      exact congrArg _ (List.filter_congr fun ux hu => decide_eq_decide.mpr (and_iff_left (habove h0 ux hu)))

/-! ## The checks of `BS_CTU` (R201) -/

section
variable {s : State} {cx cy : BitVec 16}

/-- `BS_CTU` has its effect when every check passes. -/
theorem exec_bsCtu_ok (hf : s.faulted = false) (h : ∀ x ∈ bsCtuChecks cx.toNat cy.toNat s, x = none) :
    exec (.bsCtu cx cy) s = .next ((bsCtuEffect cx.toNat cy.toNat s).afterOk 0) :=
  runChecked_ok hf h _

/-- The first failing check of `BS_CTU` is the fault (R288). -/
theorem exec_bsCtu_fault {r : Raised} (hf : s.faulted = false)
    (hr : firstRaised (bsCtuChecks cx.toNat cy.toNat s) = some r) :
    exec (.bsCtu cx cy) s = .next (s.afterFault r.cause.code.toNat r.info) :=
  runChecked_fault hf hr _

/-- `BAD_META` names the first malformed record (R203). -/
theorem State.badMeta_eq_some {before after : List (Nat × Nat)} {g : Nat × Nat} {cx cy : Nat}
    (hl : s.bsUnits cx cy = before ++ g :: after) (hb : ∀ h ∈ before, ¬(s.metaRec h.1 h.2).malformed = true)
    (hg : (s.metaRec g.1 g.2).malformed = true) : s.badMeta cx cy = some ⟨.badMeta, s.recAddr g.1 g.2⟩ := by
  rw [State.badMeta, find?_first hl hb hg]
  rfl

theorem State.badMeta_eq_none {cx cy : Nat} : s.badMeta cx cy = none ↔
    ∀ g ∈ s.bsUnits cx cy, ¬(s.metaRec g.1 g.2).malformed = true := by
  simp [State.badMeta]

end

/-- Settles O37: each condition is that of one check of `bsCtuChecks`, and each clause says which check fails first. -/
theorem bsCtuFaults : Obligations.BsCtuFaults := by
  intro cx cy s hf outside late gx0 gy0 own left above read record malformed
  have hread : s.bsUnits cx.toNat cy.toNat = read := State.bsUnits_eq ..
  have hmalformed : ∀ g : Nat × Nat, malformed g ↔ (s.metaRec g.1 g.2).malformed = true := fun g =>
    MetaRec.malformed_ofWords.symm
  have houtside : outside ↔ (decide (s.ctusW ≤ cx.toNat) || decide (s.ctusH ≤ cy.toNat)) = true := by simp [outside]
  have hlate : late ↔ decide (2 ≤ (s.phaseOf (s.ctuIdx cx.toNat cy.toNat)).rank) = true := by
    simp [late, Phase.two_le_rank]
  rw [houtside, hlate, ← hread]
  simp only [Bool.not_eq_true, hmalformed]
  refine ⟨fun hp => ?_, fun hp ho => ?_, fun hp ho hl => ?_, fun hp ho hl => ?_⟩
  · exact exec_bsCtu_fault (r := ⟨.order, _⟩) hf (by simp [bsCtuChecks, failIf, hp])
  · exact exec_bsCtu_fault (r := ⟨.badDim, _⟩) hf (by simp [bsCtuChecks, failIf, hp, ho])
  · exact exec_bsCtu_fault (r := ⟨.order, _⟩) hf (by simp [bsCtuChecks, failIf, hp, ho, hl])
  have hrecords : firstRaised (bsCtuChecks cx.toNat cy.toNat s) = firstRaised [s.badMeta cx.toNat cy.toNat] := by
    simp only [bsCtuChecks, failIf, hp, ho, hl]
    rfl
  constructor
  · intro before g after hl hb hg
    rw [State.badMeta_eq_some hl (by simpa using hb) hg] at hrecords
    exact exec_bsCtu_fault hf hrecords
  · intro hall
    rw [State.badMeta_eq_none.mpr (by simpa using hall)] at hrecords
    exact ⟨_, exec_bsCtu_ok hf (firstRaised_eq_none.mp hrecords), 0, rfl⟩

end Sys2Proof.Machine

namespace Sys2Proof.Machine

/-! ## What `BS_CTU` writes (R202, R213) -/

theorem unitGrid_nodup (n : Nat) : (unitGrid n).Nodup := by
  have hgrid : unitGrid n = (List.range n ×ˢ List.range n).map Prod.swap := by
    simp [unitGrid, SProd.sprod, List.product, List.map_flatMap, Function.comp_def]
  rw [hgrid]
  exact (List.nodup_range.product List.nodup_range).map Prod.swap_injective

section
variable {s : State} {cx cy : Nat}

theorem State.mem_bsWrites {e : Nat × Nat} : e ∈ s.bsWrites cx cy ↔ ∃ dir : Dir, ∃ ux < s.units, ∃ uy < s.units,
    e = (s.lfpAddr cx cy dir ux uy, s.bsEntry dir (cx * s.units + ux) (cy * s.units + uy) ux uy) := by
  simp only [State.bsWrites, List.mem_flatMap, List.mem_map, mem_unitGrid]
  constructor
  · rintro ⟨dir, -, u, ⟨hx, hy⟩, rfl⟩
    exact ⟨dir, u.1, hx, u.2, hy, rfl⟩
  · rintro ⟨dir, ux, hx, uy, hy, rfl⟩
    exact ⟨dir, by cases dir <;> simp, (ux, uy), ⟨hx, hy⟩, rfl⟩

theorem State.entry_mem_bsWrites (cx cy : Nat) (dir : Dir) {ux uy : Nat} (hux : ux < s.units) (huy : uy < s.units) :
    (s.lfpAddr cx cy dir ux uy, s.bsEntry dir (cx * s.units + ux) (cy * s.units + uy) ux uy) ∈ s.bsWrites cx cy :=
  State.mem_bsWrites.mpr ⟨dir, ux, hux, uy, huy, rfl⟩

/-- R73: the entries of a CTU are different items. -/
theorem State.bsWrites_apart (hx : cx < s.ctusW) :
    (s.bsWrites cx cy).Pairwise fun e f => e.1 + 2 ≤ f.1 ∨ f.1 + 2 ≤ e.1 := by
  have hwrites : s.bsWrites cx cy = ([Dir.ver, Dir.hor] ×ˢ unitGrid s.units).map fun k =>
      (s.lfpAddr cx cy k.1 k.2.1 k.2.2,
        s.bsEntry k.1 (cx * s.units + k.2.1) (cy * s.units + k.2.2) k.2.1 k.2.2) := by
    simp [State.bsWrites, SProd.sprod, List.product, Function.comp_def]
  have hnodup : ([Dir.ver, Dir.hor] ×ˢ unitGrid s.units).Nodup := List.Nodup.product (by decide) (unitGrid_nodup _)
  rw [hwrites, List.pairwise_map]
  refine hnodup.imp_of_mem fun {k l} hk hl hne => ?_
  obtain ⟨hk1, hk2⟩ := mem_unitGrid.mp (List.mem_product.mp hk).2
  obtain ⟨hl1, hl2⟩ := mem_unitGrid.mp (List.mem_product.mp hl).2
  exact State.lfpAddr_apart hx hx hk1 hk2 hl1 hl2 fun ⟨_, _, hd, h1, h2⟩ =>
    hne (Prod.ext hd (Prod.ext h1 h2))

/-- Every entry written reads back, since it fits 16 bits (R212). -/
theorem State.read_bsWrites (hx : cx < s.ctusW) (m : Memory) {e : Nat × Nat} (he : e ∈ s.bsWrites cx cy) :
    (m.writeEntries (s.bsWrites cx cy)).read e.1 2 = e.2 := by
  rw [Memory.read_writeEntries m (State.bsWrites_apart hx) he]
  obtain ⟨dir, ux, -, uy, -, rfl⟩ := State.mem_bsWrites.mp he
  exact Nat.mod_eq_of_lt (State.bsEntry_lt.trans (by decide))

/-- R213: bytes outside the entries of the CTU stay. -/
theorem State.readByte_bsWrites_outside (m : Memory) {a : Nat} (ha : ¬s.lfpStores cx cy a) :
    (m.writeEntries (s.bsWrites cx cy)).readByte a = m.readByte a :=
  Memory.readByte_writeEntries_outside m fun e he hin => by
    obtain ⟨dir, ux, hux, uy, huy, rfl⟩ := State.mem_bsWrites.mp he
    exact ha ⟨dir, ux, hux, uy, huy, hin⟩

end

/-- R202, R213: what `BS_CTU` does to the state. -/
theorem bsCtuEffect_eq_update (cx cy : Nat) (s : State) : bsCtuEffect cx cy s = { s with
    memory := s.memory.writeEntries (s.bsWrites cx cy)
    phase := putPhase (s.ctuIdx cx cy) .bsDone s.phase } := rfl

theorem bsCtuEffect_memory (cx cy : Nat) (s : State) :
    (bsCtuEffect cx cy s).memory = s.memory.writeEntries (s.bsWrites cx cy) := rfl

theorem State.phaseOf_bsCtuEffect (s : State) (cx cy j : Nat) :
    (bsCtuEffect cx cy s).phaseOf j = if j = s.ctuIdx cx cy then .bsDone else s.phaseOf j :=
  State.phaseOf_setPhase (s.setMemory _) _ _ _

/-- Settles O36: the checks pass, and the entries written are different items of 16 bits. -/
theorem bsCtuCompletes : Obligations.BsCtuCompletes := by
  intro cx cy s hf hp hx hy hphase hrecords
  have hchecks := bsCtuChecks_pass.mpr ⟨hp, ⟨hx, hy⟩, Phase.rank_lt_two.mpr hphase, hrecords⟩
  let after := bsCtuEffect cx.toNat cy.toNat s
  refine ⟨after.memory, after.phase, exec_bsCtu_ok hf hchecks, fun dir ux hux uy huy => ?_, fun a ha => ?_,
    fun j => s.phaseOf_bsCtuEffect _ _ j⟩
  · have hread := State.read_bsWrites hx s.memory (State.entry_mem_bsWrites cx.toNat cy.toNat dir hux huy)
    rwa [bsCtuEffect_memory]
  · exact State.readByte_bsWrites_outside s.memory ha

/-! ## Writing again what is there -/

section
variable {m : Memory} {a b n v x : Nat}

/-- The address has been written since power-on (log entry 6). -/
def Memory.Lists (m : Memory) (a : Nat) : Prop := valueAt a m.cells = some (m.readByte a)

theorem Memory.lists_writeByte {c : Byte} (h : x = a ∨ m.Lists x) : (m.writeByte a c).Lists x := by
  unfold Memory.Lists
  rw [Memory.readByte_writeByte, Memory.writeByte, valueAt_putAt]
  split
  · rfl
  · next hx => exact h.resolve_left hx

theorem Memory.lists_write (h : inBuffer a n x ∨ m.Lists x) : (m.write a n v).Lists x := by
  induction n generalizing m a v with
  | zero => exact h.resolve_left (by omega)
  | succ n ih =>
    refine ih ?_
    by_cases hx : inBuffer (a + 1) n x
    · exact .inl hx
    · exact .inr (Memory.lists_writeByte (h.imp_left fun _ => by omega))

theorem Memory.lists_writeEntries {es : List (Nat × Nat)} (h : (∃ e ∈ es, inBuffer e.1 2 x) ∨ m.Lists x) :
    (m.writeEntries es).Lists x := by
  induction es generalizing m with
  | nil => exact h.resolve_left (by simp)
  | cons e es ih =>
    obtain ⟨f, hf, hx⟩ | hm := h
    · rcases List.mem_cons.mp hf with rfl | hf
      · exact ih (.inr (Memory.lists_write (.inl hx)))
      · exact ih (.inl ⟨f, hf, hx⟩)
    · exact ih (.inr (Memory.lists_write (.inr hm)))

/-- Writing its own value to an item that is listed leaves the memory as it is, as data. -/
theorem Memory.write_read_self (hw : m.wf) (hl : ∀ x, inBuffer a n x → m.Lists x) : m.write a n (m.read a n) = m := by
  induction n generalizing a with
  | zero => rfl
  | succ n ih =>
    have hlt := (m.readByte a).isLt
    have hbyte : BitVec.ofNat 8 (m.read a (n + 1)) = m.readByte a := by
      apply BitVec.eq_of_toNat_eq
      simp only [Memory.read, BitVec.toNat_ofNat]
      omega
    have hrest : m.read a (n + 1) / 256 = m.read (a + 1) n := by
      simp only [Memory.read]
      omega
    have hput : m.writeByte a (m.readByte a) = m := by
      rw [Memory.writeByte, putAt_valueAt hw (hl a (by omega))]
    rw [Memory.write, hbyte, hrest, hput]
    exact ih fun x hx => hl x (by omega)

/-- Entries that are listed with the values they have leave the memory as it is. -/
theorem Memory.writeEntries_self {es : List (Nat × Nat)} (hw : m.wf) (hl : ∀ e ∈ es, ∀ x, inBuffer e.1 2 x → m.Lists x)
    (hv : ∀ e ∈ es, m.read e.1 2 = e.2) : m.writeEntries es = m := by
  induction es with
  | nil => rfl
  | cons e es ih =>
    have he := Memory.write_read_self hw (hl e List.mem_cons_self)
    rw [hv e List.mem_cons_self] at he
    rw [Memory.writeEntries, he]
    exact ih (fun f hf => hl f (List.mem_cons_of_mem _ hf)) fun f hf => hv f (List.mem_cons_of_mem _ hf)

end

/-- Setting a phase twice lists it once. -/
theorem putPhase_bsDone_twice {l : List (Nat × Phase)} (h : rising l) (i : Nat) :
    putPhase i .bsDone (putPhase i .bsDone l) = putPhase i .bsDone l :=
  putAt_valueAt (rising_putAt h i _) (valueAt_putAt_same i _ l)

/-! ## The effect of `BS_CTU` on its own inputs (R213) -/

section
variable (s : State) (cx cy i gx gy ux uy : Nat) (ph : Phase) (dir : Dir) (v : Word)

@[simp] theorem State.setPhase_metaRec : (s.setPhase i ph).metaRec gx gy = s.metaRec gx gy := rfl
@[simp] theorem State.setPhase_bsEntry : (s.setPhase i ph).bsEntry dir gx gy ux uy = s.bsEntry dir gx gy ux uy := rfl

theorem bsCtuEffect_bsUnits : (bsCtuEffect cx cy s).bsUnits cx cy = s.bsUnits cx cy := rfl
theorem bsCtuEffect_afterOk : bsCtuEffect cx cy (s.afterOk v) = (bsCtuEffect cx cy s).afterOk v := rfl
theorem bsCtuChecks_afterOk : bsCtuChecks cx cy (s.afterOk v) = bsCtuChecks cx cy s := rfl

end

section
variable {s : State} {cx cy : Nat}

/-- R273 e: no record of the picture is among the bytes `BS_CTU` stores to. -/
theorem State.metaRec_bsWrites (hg : s.GeometryFits) (hx : cx < s.ctusW) (hy : cy < s.ctusH) {gx gy : Nat}
    (hin : s.unitInside gx gy = true) :
    (s.setMemory (s.memory.writeEntries (s.bsWrites cx cy))).metaRec gx gy = s.metaRec gx gy := by
  refine State.metaRec_congr fun a ha => State.readByte_bsWrites_outside _ fun ⟨dir, ux, hux, uy, huy, hstore⟩ => ?_
  obtain ⟨hgx, hgy⟩ := State.unitInside_iff.mp hin
  obtain ⟨-, hapart⟩ := hg.apart
  have hrec := State.recAddr_inRegion hgx hgy
  have hlfp := State.lfpAddr_inRegion dir hx hy hux huy
  omega

theorem State.metaRec_bsCtuEffect (hg : s.GeometryFits) (hx : cx < s.ctusW) (hy : cy < s.ctusH) {gx gy : Nat}
    (hin : s.unitInside gx gy = true) : (bsCtuEffect cx cy s).metaRec gx gy = s.metaRec gx gy := by
  rw [bsCtuEffect, State.setPhase_metaRec, State.metaRec_bsWrites hg hx hy hin]

theorem State.bsEntry_bsCtuEffect (hg : s.GeometryFits) (hx : cx < s.ctusW) (hy : cy < s.ctusH) (dir : Dir)
    (gx gy ux uy : Nat) : (bsCtuEffect cx cy s).bsEntry dir gx gy ux uy = s.bsEntry dir gx gy ux uy := by
  rw [bsCtuEffect, State.setPhase_bsEntry]
  exact State.bsEntry_congr (fun _ _ hin => State.metaRec_bsWrites hg hx hy hin) dir gx gy ux uy

/-- R212, R213: the entries are the same after they have been written. -/
theorem State.bsWrites_bsCtuEffect (hg : s.GeometryFits) (hx : cx < s.ctusW) (hy : cy < s.ctusH) :
    (bsCtuEffect cx cy s).bsWrites cx cy = s.bsWrites cx cy := by
  simp only [State.bsWrites, State.bsEntry_bsCtuEffect hg hx hy]
  rfl

/-- R213: the entries of a CTU written twice are as those written once. -/
theorem State.bsWrites_twice (hw : s.memory.wf) (hx : cx < s.ctusW) :
    (s.memory.writeEntries (s.bsWrites cx cy)).writeEntries (s.bsWrites cx cy) =
      s.memory.writeEntries (s.bsWrites cx cy) :=
  Memory.writeEntries_self (Memory.wf_writeEntries hw _) (fun e he _ hin => Memory.lists_writeEntries (.inl ⟨e, he, hin⟩))
    fun _ he => State.read_bsWrites hx _ he

/-- R213: the effect of `BS_CTU` made twice is the effect made once. -/
theorem bsCtuEffect_twice (hinv : s.Inv) (hg : s.GeometryFits) (hx : cx < s.ctusW) (hy : cy < s.ctusH) :
    bsCtuEffect cx cy (bsCtuEffect cx cy s) = bsCtuEffect cx cy s := by
  rw [bsCtuEffect_eq_update cx cy (bsCtuEffect cx cy s), State.bsWrites_bsCtuEffect hg hx hy, bsCtuEffect_memory,
    State.bsWrites_twice hinv.memory hx]
  have hphase : putPhase (s.ctuIdx cx cy) .bsDone (bsCtuEffect cx cy s).phase = (bsCtuEffect cx cy s).phase :=
    putPhase_bsDone_twice hinv.phasesRise _
  exact congrArg (fun p => { bsCtuEffect cx cy s with phase := p }) hphase

/-- The checks of `BS_CTU` pass again after its effect (R201, R213). -/
theorem bsCtuChecks_pass_again (hg : s.GeometryFits) (h : ∀ x ∈ bsCtuChecks cx cy s, x = none) :
    ∀ x ∈ bsCtuChecks cx cy (bsCtuEffect cx cy s), x = none := by
  obtain ⟨hp, ⟨hx, hy⟩, -, hrecords⟩ := bsCtuChecks_pass.mp h
  have hphase : (bsCtuEffect cx cy s).phaseOf (s.ctuIdx cx cy) = .bsDone :=
    (State.phaseOf_bsCtuEffect s cx cy _).trans (if_pos rfl)
  refine bsCtuChecks_pass.mpr ⟨hp, ⟨hx, hy⟩, Phase.rank_lt_two.mpr (.inr hphase), fun g hmem => ?_⟩
  rw [bsCtuEffect_bsUnits] at hmem
  obtain ⟨hgx, hgy, -⟩ := State.mem_bsUnits.mp hmem
  rw [State.metaRec_bsCtuEffect hg hx hy (State.unitInside_iff.mpr ⟨hgx, hgy⟩)]
  exact hrecords g hmem

end

/-- The reply of a fault is not `OK`, its bit 0 being set (R102). -/
theorem State.not_accepted_afterFault (s : State) (code info : Nat) : ¬(s.afterFault code info).accepted := by
  rintro ⟨v, hv⟩
  have hword : BitVec.ofNat 32 (1 + 2 ^ 8 * code) = 0 := congrArg Reply.r0 (Option.some.inj hv)
  have hzero := congrArg BitVec.toNat hword
  rw [BitVec.toNat_ofNat] at hzero
  simp only [BitVec.ofNat_eq_ofNat, BitVec.toNat_ofNat] at hzero
  omega

/-- A `BS_CTU` that replies `OK` has passed its checks and had its effect. -/
theorem exec_bsCtu_of_accepted {cx cy : BitVec 16} {s t : State} (hf : s.faulted = false)
    (ht : exec (.bsCtu cx cy) s = .next t) (hacc : t.accepted) :
    (∀ x ∈ bsCtuChecks cx.toNat cy.toNat s, x = none) ∧ t = (bsCtuEffect cx.toNat cy.toNat s).afterOk 0 := by
  cases hr : firstRaised (bsCtuChecks cx.toNat cy.toNat s) with
  | some r =>
    obtain rfl := Host.Outcome.next.inj ((exec_bsCtu_fault hf hr).symm.trans ht)
    exact absurd hacc (s.not_accepted_afterFault _ _)
  | none =>
    have hchecks := firstRaised_eq_none.mp hr
    exact ⟨hchecks, (Host.Outcome.next.inj ((exec_bsCtu_ok hf hchecks).symm.trans ht)).symm⟩

/-- Settles O41: the checks pass again, since no record is overwritten and `BS_DONE` is not too late, and the effect made
again changes nothing. -/
theorem bsCtuIsIdempotent : Obligations.BsCtuIsIdempotent := by
  intro cx cy s t u hinv hf ht hacc hu
  obtain ⟨hchecks, rfl⟩ := exec_bsCtu_of_accepted hf ht hacc
  obtain ⟨hp, ⟨hx, hy⟩, -⟩ := bsCtuChecks_pass.mp hchecks
  have hg := hinv.picture hp
  have hagain := exec_bsCtu_ok (s := (bsCtuEffect cx.toNat cy.toNat s).afterOk 0) hf
    (bsCtuChecks_afterOk _ _ _ 0 ▸ bsCtuChecks_pass_again hg hchecks)
  rw [bsCtuEffect_afterOk, bsCtuEffect_twice hinv hg hx hy] at hagain
  obtain rfl := Host.Outcome.next.inj (hagain.symm.trans hu)
  exact ⟨⟨0, rfl⟩, rfl, rfl⟩

end Sys2Proof.Machine

namespace Sys2Proof.Machine

/-! ## The command `DBF_CTU` (R230, R231, R233) -/

section
variable {dir : Dir} {s : State}

/-- `DBF_CTU` has its effect when every check passes. -/
theorem exec_dbfCtu_ok {cx cy : BitVec 16} (hf : s.faulted = false)
    (h : ∀ x ∈ dbfCtuChecks dir cx.toNat cy.toNat s, x = none) :
    exec (.dbfCtu dir cx cy) s = .next ((dbfCtuEffect dir cx.toNat cy.toNat s).afterOk 0) :=
  runChecked_ok hf h _

/-- The first failing check of `DBF_CTU` is the fault (R288). -/
theorem exec_dbfCtu_fault {cx cy : BitVec 16} {r : Raised} (hf : s.faulted = false)
    (hr : firstRaised (dbfCtuChecks dir cx.toNat cy.toNat s) = some r) :
    exec (.dbfCtu dir cx cy) s = .next (s.afterFault r.cause.code.toNat r.info) :=
  runChecked_fault hf hr _

theorem dbfCtuEffect_of_disabled {cx cy : Nat} (h : s.dbfEn = false) :
    dbfCtuEffect dir cx cy s = s.setPhase (s.ctuIdx cx cy) (phaseAfter dir) := by
  simp [dbfCtuEffect, h]

theorem dbfCtuEffect_of_enabled {cx cy : Nat} (h : s.dbfEn = true) :
    dbfCtuEffect dir cx cy s = (filterCtu dir cx cy s).setPhase (s.ctuIdx cx cy) (phaseAfter dir) := by
  simp [dbfCtuEffect, h]

end

/-- Settles O43: the checks pass without a look at the entries, and the effect is the move of the phase alone. -/
theorem dbfDisabledOnlyMovesThePhase : Obligations.DbfDisabledOnlyMovesThePhase := by
  intro dir cx cy s hf hp hx hy htime hen
  have hchecks := dbfCtuChecks_pass.mpr ⟨hp, ⟨hx, hy⟩, htime, fun h => absurd (hen.symm.trans h) (by decide)⟩
  refine ⟨putPhase (s.ctuIdx cx.toNat cy.toNat) (phaseAfter dir) s.phase, ?_, fun j => ?_⟩
  · rw [exec_dbfCtu_ok hf hchecks, dbfCtuEffect_of_disabled hen]
    rfl
  · exact s.phaseOf_setPhase _ _ _

/-- Settles O44: the traversal is the fold, and its frame is that of `filterCtu_outside`. -/
theorem dbfCtuFilters : Obligations.DbfCtuFilters := by
  intro dir cx cy s hinv hf hp hx hy htime hen hentries filterOne
  have hchecks := dbfCtuChecks_pass.mpr ⟨hp, ⟨hx, hy⟩, htime, fun _ => hentries⟩
  have hone : filterOne = filterUnit dir cx.toNat cy.toNat := rfl
  obtain ⟨houtside, -⟩ := filterCtu_outside (dir := dir) (hinv.picture hp) hx hy hentries
  refine ⟨(filterCtu dir cx.toNat cy.toNat s).memory, putPhase (s.ctuIdx cx.toNat cy.toNat) (phaseAfter dir) s.phase,
    ?_, by rw [hone]; rfl, houtside, fun j => ?_⟩
  · rw [exec_dbfCtu_ok hf hchecks, dbfCtuEffect_of_enabled hen, filterCtu_eq]
    rfl
  · exact s.phaseOf_setPhase _ _ _

/-! ## The faults of `DBF_CTU` (R230, R232) -/

/-- `DBF_CTU dir=VER` too early, the rank of the neighbour's phase written as the phases below `VER_DONE` (R230). -/
theorem State.verTooEarly {s : State} {cx cy : Nat} : s.filterTooEarly .ver cx cy = true ↔
    s.phaseOf (s.ctuIdx cx cy) ≠ .bsDone ∨ (cx ≠ 0 ∧ (s.phaseOf (s.ctuIdx (cx - 1) cy) = .idle
      ∨ s.phaseOf (s.ctuIdx (cx - 1) cy) = .bsDone)) := by
  simp only [State.filterTooEarly, Bool.or_eq_true, Bool.and_eq_true, bne_iff_ne, decide_eq_true_eq, Phase.rank_lt_two]

/-- `DBF_CTU dir=HOR` too early, the CTU with no vertical edges filtered given by position (R230). -/
theorem State.horTooEarly {s : State} {cx cy : Nat} : s.filterTooEarly .hor cx cy = true ↔
    s.phaseOf (s.ctuIdx cx cy) ≠ .verDone ∨ (∃ x < s.ctusW, ∃ y < s.ctusH,
      s.phaseOf (s.ctuIdx x y) = .idle ∨ s.phaseOf (s.ctuIdx x y) = .bsDone)
      ∨ (cy ≠ 0 ∧ s.phaseOf (s.ctuIdx cx (cy - 1)) ≠ .horDone) := by
  have hall : s.allPhases 2 = false ↔ ∃ x < s.ctusW, ∃ y < s.ctusH,
      s.phaseOf (s.ctuIdx x y) = .idle ∨ s.phaseOf (s.ctuIdx x y) = .bsDone := by
    rw [← Bool.not_eq_true, State.allPhases_iff]
    simp only [not_forall, not_le, exists_prop, Phase.rank_lt_two]
  simp [State.filterTooEarly, hall, or_assoc]

/-- `BAD_LFP` names the first malformed entry (R232). -/
theorem State.badLfp_eq_some {s : State} {dir : Dir} {cx cy : Nat} {before after : List (Nat × Nat)} {u : Nat × Nat}
    (hl : s.insideUnits cx cy = before ++ u :: after)
    (hb : ∀ v ∈ before, ¬s.badEntry dir (cx * s.units + v.1) (cy * s.units + v.2) (s.lfpEntry cx cy dir v.1 v.2) = true)
    (hu : s.badEntry dir (cx * s.units + u.1) (cy * s.units + u.2) (s.lfpEntry cx cy dir u.1 u.2) = true) :
    s.badLfp dir cx cy = some ⟨.badLfp, s.lfpAddr cx cy dir u.1 u.2⟩ := by
  rw [State.badLfp, find?_first hl hb hu]
  rfl

theorem State.badLfp_eq_none {s : State} {dir : Dir} {cx cy : Nat} : s.badLfp dir cx cy = none ↔
    ∀ u ∈ s.insideUnits cx cy,
      ¬s.badEntry dir (cx * s.units + u.1) (cy * s.units + u.2) (s.lfpEntry cx cy dir u.1 u.2) = true := by
  simp [State.badLfp]

/-- R232 (a) to (c) on the bits of an entry. -/
theorem State.badEntry_ofBits {s : State} {dir : Dir} {gx gy e : Nat} (he : e < 2 ^ 16) :
    s.badEntry dir gx gy (LfpEntry.ofBits e) = true ↔
      e / 2 ^ 14 ≠ 0 ∨ e % 4 = 3
        ∨ ((e % 4 ≠ 0 ∧ e / 2 ^ 9 % 2 = 1 ∧ e / 2 ^ 10 % 2 = 0 ∧ e / 2 ^ 2 % 8 ≠ 0 ∧ e / 2 ^ 5 % 8 ≠ 0)
          ∧ s.windowOutside dir gx gy (LfpEntry.ofBits e) = true) := by
  have hrsvd : (LfpEntry.ofBits e).rsvd = e / 2 ^ 14 := field_top he (by decide)
  have hbs : (LfpEntry.ofBits e).bs = e % 4 := field_zero _ _
  rw [State.badEntry, Bool.or_eq_true, Bool.or_eq_true, Bool.and_eq_true, LfpEntry.filterable_ofBits, bne_iff_ne,
    beq_iff_eq, hrsvd, hbs, or_assoc]

/-- Settles O45: each condition is that of one check of `dbfCtuChecks`, and each clause says which check fails first. -/
theorem dbfCtuFaults : Obligations.DbfCtuFaults := by
  intro dir cx cy s hf outside here early number units entry malformed
  have hunits : s.insideUnits cx.toNat cy.toNat = units := State.insideUnits_eq ..
  have hentry : ∀ u : Nat × Nat, s.lfpAddr cx.toNat cy.toNat dir u.1 u.2 = entry u := fun u => by cases dir <;> rfl
  have hmalformed : ∀ u : Nat × Nat, malformed u ↔ s.badEntry dir (cx.toNat * s.units + u.1) (cy.toNat * s.units + u.2)
      (s.lfpEntry cx.toNat cy.toNat dir u.1 u.2) = true := fun u => by
    rw [State.lfpEntry, hentry, State.badEntry_ofBits (s.memory.read_lt _ 2), State.windowOutside_iff]
    cases dir <;> rfl
  have houtside : outside ↔ (decide (s.ctusW ≤ cx.toNat) || decide (s.ctusH ≤ cy.toNat)) = true := by simp [outside]
  have hearly : early ↔ s.filterTooEarly dir cx.toNat cy.toNat = true := by
    cases dir with
    | ver => exact State.verTooEarly.symm
    | hor => exact State.horTooEarly.symm
  rw [houtside, hearly, ← hunits]
  simp only [Bool.not_eq_true, hmalformed, ← hentry]
  refine ⟨fun hp => ?_, fun hp ho => ?_, fun hp ho hl => ?_, fun hp ho hl hen => ?_⟩
  · exact exec_dbfCtu_fault (r := ⟨.order, _⟩) hf (by simp [dbfCtuChecks, failIf, hp])
  · exact exec_dbfCtu_fault (r := ⟨.badDim, _⟩) hf (by simp [dbfCtuChecks, failIf, hp, ho])
  · exact exec_dbfCtu_fault (r := ⟨.order, _⟩) hf (by simp [dbfCtuChecks, failIf, hp, ho, hl])
  have hlast : firstRaised (dbfCtuChecks dir cx.toNat cy.toNat s) = firstRaised [s.badLfp dir cx.toNat cy.toNat] := by
    simp only [dbfCtuChecks, failIf, hp, ho, hl, hen]
    rfl
  constructor
  · intro before u after hsplit hb hu
    rw [State.badLfp_eq_some hsplit (by simpa using hb) hu] at hlast
    exact exec_dbfCtu_fault hf hlast
  · intro hall
    rw [State.badLfp_eq_none.mpr (by simpa using hall)] at hlast
    exact ⟨_, exec_dbfCtu_ok hf (firstRaised_eq_none.mp hlast), 0, rfl⟩

/-! ## Segments that are not filterable (R234) -/

theorem LfpEntry.filterable_eq_false {e : LfpEntry} : e.filterable = false ↔
    e.bs = 0 ∨ e.tuEdge = false ∨ e.onBnd = true ∨ e.lenP = 0 ∨ e.lenQ = 0 := by
  simp only [LfpEntry.filterable, Bool.and_eq_false_iff, bne_eq_false_iff_eq, Bool.not_eq_false', or_assoc]

theorem filterUnit_of_not_filterable {dir : Dir} {cx cy : Nat} {s : State} {u : Nat × Nat}
    (h : (s.lfpEntry cx cy dir u.1 u.2).filterable = false) : filterUnit dir cx cy s u = s := by
  simp [filterUnit, h]

theorem filterUnits_of_not_filterable {dir : Dir} {cx cy : Nat} {s : State} {us : List (Nat × Nat)}
    (h : ∀ u ∈ us, (s.lfpEntry cx cy dir u.1 u.2).filterable = false) : us.foldl (filterUnit dir cx cy) s = s := by
  induction us with
  | nil => rfl
  | cons u us ih =>
    rw [List.foldl_cons, filterUnit_of_not_filterable (h u List.mem_cons_self)]
    exact ih fun v hv => h v (List.mem_cons_of_mem _ hv)

/-- Settles O46: a skipped unit leaves the state to the next one, so the whole fold leaves it. -/
theorem unfilterableSegmentsAreSkipped : Obligations.UnfilterableSegmentsAreSkipped :=
  ⟨fun _ => LfpEntry.filterable_eq_false, fun _ _ _ _ _ => filterUnit_of_not_filterable,
    fun _ _ _ _ => filterUnits_of_not_filterable⟩

end Sys2Proof.Machine

namespace Sys2Proof.Machine

/-! ## Clipping (R10) -/

theorem clip3_of_mem {lo hi v : Int} (h1 : lo ≤ v) (h2 : v ≤ hi) : clip3 lo hi v = v := by
  rw [clip3, if_neg (not_lt.mpr h1), if_neg (not_lt.mpr h2)]

theorem clip3_eq_max_min {lo hi : Int} (h : lo ≤ hi) (v : Int) : clip3 lo hi v = max lo (min hi v) := by
  unfold clip3
  split
  · omega
  · split <;> omega

theorem clip3_mem {lo hi : Int} (h : lo ≤ hi) (v : Int) : lo ≤ clip3 lo hi v ∧ clip3 lo hi v ≤ hi := by
  rw [clip3_eq_max_min h]
  exact ⟨le_max_left _ _, max_le h (min_le_left _ _)⟩

theorem clip3_mono {lo hi : Int} (h : lo ≤ hi) : Monotone (clip3 lo hi) := fun a b hab => by
  rw [clip3_eq_max_min h, clip3_eq_max_min h]
  exact max_le_max_left _ (min_le_min_left _ hab)

theorem clipPix_eq (bitDepth : Nat) (v : Int) : clipPix bitDepth v = clip3 0 (2 ^ bitDepth - 1) v := by
  rw [clipPix, Nat.cast_pow, Nat.cast_ofNat]

/-- Clipping to the sample range does not move a value away from a legal one. -/
theorem clipPix_near {bitDepth : Nat} {v x b : Int} (hv : 0 ≤ v ∧ v ≤ 2 ^ bitDepth - 1) (hx : |x - v| ≤ b) :
    |clipPix bitDepth x - v| ≤ b := by
  rw [clipPix_eq, clip3]
  rw [abs_sub_le_iff] at hx ⊢
  split
  · omega
  · split <;> omega

/-! ## The measures of a side (R239) -/

/-- A shift right by one halves. -/
theorem asr_one (v : Int) : asr v 1 = v / 2 := rfl

theorem depthOf_eq_eight {len : Nat} : depthOf len = 8 ↔ 3 < len := by
  unfold depthOf
  split <;> omega

theorem secondDiff_eq (x : List Int) (o : Nat) :
    secondDiff x o = |x.getD (o + 2) 0 - 2 * x.getD (o + 1) 0 + x.getD o 0| :=
  (Int.abs_eq_natAbs _).symm

theorem secondDiff_nonneg (x : List Int) (o : Nat) : 0 ≤ secondDiff x o := Int.natCast_nonneg _

theorem measureD_depthOf (x : List Int) (len : Nat) : measureD x (depthOf len) =
    if 3 < len then (secondDiff x 0 + secondDiff x 3 + 1) / 2 else secondDiff x 0 := by
  simp only [measureD, depthOf_eq_eight, asr_one]

theorem measureD_nonneg (x : List Int) (depth : Nat) : 0 ≤ measureD x depth := by
  have h0 := secondDiff_nonneg x 0
  have h3 := secondDiff_nonneg x 3
  rw [measureD, asr_one]
  split <;> omega

theorem measureS_depthOf (x : List Int) (len : Nat) : measureS x (depthOf len) =
    if 3 < len then (|x.getD 3 0 - x.getD 0 0| + |x.getD 7 0 - x.getD 6 0 - x.getD 5 0 + x.getD 4 0|
      + |x.getD 7 0 - x.getD 3 0| + 1) / 2
    else |x.getD 3 0 - x.getD 0 0| := by
  simp only [measureS, depthOf_eq_eight, asr_one, Int.abs_eq_natAbs]

/-! ## The selection (R240) -/

/-- `D2` of a side summed over lines 0 and 3: `dp` on the P sides, `dq` on the Q sides (R240). -/
def decisionSum (side : Line → List Int) (ls : List Line) (len : Nat) : Int :=
  measureD (side (lineAt ls 0)) (depthOf len) + measureD (side (lineAt ls 3)) (depthOf len)

/-- `strongLine` of R240 with the thresholds of the segment's lengths. -/
abbrev passesStrong (l : Line) (lenP lenQ : Nat) (beta tc : Int) : Prop :=
  2 * (measureD l.p (depthOf lenP) + measureD l.q (depthOf lenQ)) < beta / (if 3 < lenP ∨ 3 < lenQ then 16 else 4)
    ∧ measureS l.p (depthOf lenP) + measureS l.q (depthOf lenQ)
      < (if 3 < lenP ∨ 3 < lenQ then 3 * beta / 32 else beta / 8)
    ∧ |l.pAt 0 - l.qAt 0| < (5 * tc + 1) / 2

section
variable {lenP lenQ : Nat} {beta tc : Int}

theorem decisionSum_nonneg (side : Line → List Int) (ls : List Line) (len : Nat) : 0 ≤ decisionSum side ls len :=
  Int.add_nonneg (measureD_nonneg _ _) (measureD_nonneg _ _)

theorem strongLine_iff {l : Line} :
    strongLine l (depthOf lenP) (depthOf lenQ)
        (if depthOf lenP == 8 || depthOf lenQ == 8 then asr (3 * beta) 5 else asr beta 3)
        (if depthOf lenP == 8 || depthOf lenQ == 8 then asr beta 4 else asr beta 2) tc = true ↔
      passesStrong l lenP lenQ beta tc := by
  have hlong : (depthOf lenP == 8 || depthOf lenQ == 8) = true ↔ 3 < lenP ∨ 3 < lenQ := by
    rw [Bool.or_eq_true, beq_iff_eq, beq_iff_eq, depthOf_eq_eight, depthOf_eq_eight]
  simp only [strongLine, Bool.and_eq_true, decide_eq_true_eq, hlong, passesStrong, Int.abs_eq_natAbs, and_assoc]
  split <;> rfl

/-- The selection, each shift written as a division. -/
theorem lumaChoice_eq (ls : List Line) (lenP lenQ : Nat) (beta tc : Int) : lumaChoice ls lenP lenQ beta tc =
    if decisionSum Line.p ls lenP + decisionSum Line.q ls lenQ < beta then
      if passesStrong (lineAt ls 0) lenP lenQ beta tc ∧ passesStrong (lineAt ls 3) lenP lenQ beta tc ∧ 3 ≤ lenP ∧ 3 ≤ lenQ
      then .strong
      else .weak (decide (decisionSum Line.p ls lenP < (beta + beta / 2) / 8))
        (decide (decisionSum Line.q ls lenQ < (beta + beta / 2) / 8))
    else .off := by
  simp only [lumaChoice, strongLine_iff, Bool.and_eq_true, decide_eq_true_eq, and_assoc]
  rfl

end

/-- Settles O50: the three outcomes of `lumaChoice_eq`. -/
theorem lumaSelection : Obligations.LumaSelection := by
  intro ls lenP lenQ beta tc d2 sp long flat l0 l3 dp dq
  have hd2 : ∀ x len, d2 x len = measureD x (depthOf len) := fun x len => by
    rw [measureD_depthOf, secondDiff_eq, secondDiff_eq]
  have hsp : ∀ x len, sp x len = measureS x (depthOf len) := fun x len => (measureS_depthOf x len).symm
  have hflat : ∀ l, flat l ↔ passesStrong l lenP lenQ beta tc := fun l => by simp only [flat, hd2, hsp]; rfl
  have hdp : dp = decisionSum Line.p ls lenP := by simp only [dp, hd2]; rfl
  have hdq : dq = decisionSum Line.q ls lenQ := by simp only [dq, hd2]; rfl
  rw [lumaChoice_eq, hdp, hdq, hflat, hflat]
  by_cases hon : decisionSum Line.p ls lenP + decisionSum Line.q ls lenQ < beta
  · rw [if_pos hon]
    by_cases hs : passesStrong (lineAt ls 0) lenP lenQ beta tc ∧ passesStrong (lineAt ls 3) lenP lenQ beta tc
        ∧ 3 ≤ lenP ∧ 3 ≤ lenQ
    · rw [if_pos hs]
      exact ⟨iff_of_false (not_not.mpr hon) nofun, fun _ => iff_of_true hs rfl, nofun⟩
    · rw [if_neg hs]
      refine ⟨iff_of_false (not_not.mpr hon) nofun, fun _ => iff_of_false hs nofun, ?_⟩
      rintro _ _ ⟨⟩
      exact ⟨decide_eq_true_iff, decide_eq_true_iff⟩
  · rw [if_neg hon]
    exact ⟨iff_of_true hon rfl, fun h => absurd h hon, nofun⟩

/-! ## The filters of a line (R241, R242) -/

section
variable {bitDepth : Nat} {tc : Int} {l : Line}

theorem weakFilter_of_refused (h : 10 * tc ≤ |weakDelta l|) {secondP secondQ : Bool} :
    weakFilter bitDepth tc secondP secondQ l = ⟨[], []⟩ := by
  rw [Int.abs_eq_natAbs] at h
  exact if_neg (not_lt.mpr h)

theorem weakFilter_of_passed (h : |weakDelta l| < 10 * tc) {secondP secondQ : Bool} :
    weakFilter bitDepth tc secondP secondQ l =
      ⟨weakSide bitDepth tc (clip3 (-tc) tc (weakDelta l)) secondP l.p,
        weakSide bitDepth tc (-clip3 (-tc) tc (weakDelta l)) secondQ l.q⟩ := by
  rw [Int.abs_eq_natAbs] at h
  exact if_pos h

/-- One side of R242, the shifts written as divisions: the primary sample, then the secondary one where it applies. -/
theorem weakSide_eq (bitDepth : Nat) (tc delta : Int) (second : Bool) (x : List Int) :
    weakSide bitDepth tc delta second x = clipPix bitDepth (x.getD 0 0 + delta) ::
      if second then [clipPix bitDepth (x.getD 1 0 + clip3 (-(tc / 2)) (tc / 2)
        (((x.getD 2 0 + x.getD 0 0 + 1) / 2 - x.getD 1 0 + delta) / 2))]
      else [] := by
  unfold weakSide
  split <;> rfl

end

/-- Settles O48: the six strong outputs stand in `strongSide`, the weak ones in `weakSide` behind the gate. -/
theorem lumaFilterFormulas : Obligations.LumaFilterFormulas := by
  intro cfg bitDepth lenP lenQ tc p0 p1 p2 p3 q0 q1 q2 q3 ps qs dEp dEq l c px
  have hpx : px = clipPix bitDepth := funext fun v => (clipPix_eq bitDepth v).symm
  rw [hpx]
  refine ⟨rfl, ?_⟩
  intro raw delta
  have hraw : weakDelta l = raw := rfl
  refine ⟨fun h => (weakFilter_of_passed (hraw ▸ h)).trans ?_, fun h => weakFilter_of_refused (hraw ▸ h)⟩
  rw [weakSide_eq, weakSide_eq, hraw]
  simp only [Bool.and_eq_true, decide_eq_true_eq, ← sub_eq_add_neg]
  rfl

/-- Settles O49: the sums are not negative, so none is below 0; and with `tc = 0` neither the strong test of a line nor the
gate of the weak filter, both strict bounds on a magnitude, can pass. -/
theorem zeroThresholdsFilterNothing : Obligations.ZeroThresholdsFilterNothing := by
  intro cfg bitDepth lenP lenQ beta ls
  constructor
  · have hp := decisionSum_nonneg Line.p ls lenP
    have hq := decisionSum_nonneg Line.q ls lenQ
    rw [lumaChoice_eq, if_neg (by omega)]
  · intro l
    have hstrong : ¬passesStrong (lineAt ls 0) lenP lenQ beta 0 := fun ⟨_, _, h⟩ => absurd (abs_nonneg _) (not_le.mpr h)
    rw [lumaChoice_eq]
    split
    · rw [if_neg fun h => hstrong h.1]
      exact weakFilter_of_refused (abs_nonneg (weakDelta l))
    · rfl

/-! ## How far a filter moves a sample (R245) -/

/-- The four samples nearest the edge are legal ones. -/
def legalNear (bitDepth : Nat) (x : List Int) : Prop := ∀ k < 4, 0 ≤ x.getD k 0 ∧ x.getD k 0 ≤ 2 ^ bitDepth - 1

section
variable {cfg : Config} {bitDepth : Nat} {tc v : Int} {x o : List Int}

/-- What holds of every sample of a side holds of the four nearest. -/
theorem getD_of_forall_mem {P : Int → Prop} (hlen : 4 ≤ x.length) (h : ∀ v ∈ x, P v) {k : Nat} (hk : k < 4) :
    P (x.getD k 0) := by
  rw [List.getD_eq_getElem _ _ (hk.trans_le hlen)]
  exact h _ (List.getElem_mem _)

theorem abs_clip3_le {b : Int} (hb : 0 ≤ b) (v : Int) : |clip3 (-b) b v| ≤ b :=
  abs_le.mpr (clip3_mem (by omega) v)

theorem boundTo_near {c : Nat} (htc : 0 ≤ tc) (hv : 0 ≤ v ∧ v ≤ 2 ^ bitDepth - 1) (y : Int) :
    |boundTo bitDepth c tc v y - v| ≤ c * tc := by
  have hb : 0 ≤ (c : Int) * tc := mul_nonneg (Int.natCast_nonneg c) htc
  have hmem := clip3_mem (lo := v - c * tc) (hi := v + c * tc) (by omega) y
  exact clipPix_near hv (abs_sub_le_iff.mpr ⟨by omega, by omega⟩)

theorem boundTo_self {c : Nat} (htc : 0 ≤ tc) (hv : 0 ≤ v ∧ v ≤ 2 ^ bitDepth - 1) : boundTo bitDepth c tc v v = v := by
  have hb : 0 ≤ (c : Int) * tc := mul_nonneg (Int.natCast_nonneg c) htc
  rw [boundTo, clip3_of_mem (by omega) (by omega), clipPix_eq, clip3_of_mem hv.1 hv.2]

/-- R245 (d) on a side of the strong filter. -/
theorem strongSide_near (htc : 0 ≤ tc) (hx : legalNear bitDepth x) {k : Nat} (hk : k < 3) :
    |(strongSide cfg bitDepth tc x o).getD k 0 - x.getD k 0| ≤
      ([cfg.strongClip.1, cfg.strongClip.2.1, cfg.strongClip.2.2].getD k 0 : Nat) * tc := by
  have hlegal := hx k (by omega)
  match k, hk with
  | 0, _ => exact boundTo_near htc hlegal _
  | 1, _ => exact boundTo_near htc hlegal _
  | 2, _ => exact boundTo_near htc hlegal _

/-- R245 (d) on a side of the weak filter. -/
theorem weakSide_near {delta : Int} {second : Bool} (htc : 0 ≤ tc) (hdelta : |delta| ≤ tc) (hx : legalNear bitDepth x)
    {k : Nat} (hk : k < (weakSide bitDepth tc delta second x).length) :
    |(weakSide bitDepth tc delta second x).getD k 0 - x.getD k 0| ≤ [tc, tc / 2].getD k 0 := by
  rw [weakSide_eq] at hk ⊢
  have h0 : |clipPix bitDepth (x.getD 0 0 + delta) - x.getD 0 0| ≤ tc :=
    clipPix_near (hx 0 (by omega)) (by rwa [add_sub_cancel_left])
  have h1 : ∀ y, |clipPix bitDepth (x.getD 1 0 + clip3 (-(tc / 2)) (tc / 2) y) - x.getD 1 0| ≤ tc / 2 := fun y =>
    clipPix_near (hx 1 (by omega)) (by rw [add_sub_cancel_left]; exact abs_clip3_le (by omega) y)
  cases second with
  | false =>
    obtain rfl : k = 0 := by simpa using hk
    exact h0
  | true =>
    match k, hk with
    | 0, _ => exact h0
    | 1, _ => exact h1 _

end

/-- Settles O51: lengths and ranges are those of every new sample, and the bounds hold side by side. -/
theorem lumaChangesAreBounded : Obligations.LumaChangesAreBounded := by
  intro cfg bitDepth lenP lenQ tc choice l new bound
  obtain ⟨hp3, hq3⟩ := filterLine_length cfg bitDepth tc lenP lenQ choice l
  refine ⟨⟨hp3, hq3, fun v hv => filterLine_range hv⟩, fun htc hp hq hlegal => ?_⟩
  have hlp : legalNear bitDepth l.p := fun k hk =>
    getD_of_forall_mem hp (fun v hv => hlegal v (List.mem_append_left _ hv)) hk
  have hlq : legalNear bitDepth l.q := fun k hk =>
    getD_of_forall_mem hq (fun v hv => hlegal v (List.mem_append_right _ hv)) hk
  cases choice with
  | off => exact ⟨nofun, nofun⟩
  | strong => exact ⟨fun k hk => strongSide_near htc hlp hk, fun k hk => strongSide_near htc hlq hk⟩
  | weak dEp dEq =>
    rcases lt_or_ge |weakDelta l| (10 * tc) with h | h
    · have hnew : new = _ := weakFilter_of_passed h
      have hdelta := abs_clip3_le htc (weakDelta l)
      rw [hnew]
      exact ⟨fun k hk => weakSide_near htc hdelta hlp hk, fun k hk => weakSide_near htc (by rwa [abs_neg]) hlq hk⟩
    · have hnew : new = _ := weakFilter_of_refused h
      rw [hnew]
      exact ⟨nofun, nofun⟩

/-! ## Flat data (R245) -/

section
variable {cfg : Config} {bitDepth : Nat} {tc v : Int} {x o : List Int}

theorem strongSide_flat (htc : 0 ≤ tc) (hv : 0 ≤ v ∧ v ≤ 2 ^ bitDepth - 1) (hx : ∀ k < 4, x.getD k 0 = v)
    (ho : ∀ k < 4, o.getD k 0 = v) : ∀ y ∈ strongSide cfg bitDepth tc x o, y = v := by
  have h0 : asr (v + 2 * v + 2 * v + 2 * v + v + 4) 3 = v := by rw [asr]; norm_num; omega
  have h1 : asr (v + v + v + v + 2) 2 = v := by rw [asr]; norm_num; omega
  have h2 : asr (2 * v + 3 * v + v + v + v + 4) 3 = v := by rw [asr]; norm_num; omega
  simp only [strongSide, hx 0 (by decide), hx 1 (by decide), hx 2 (by decide), hx 3 (by decide), ho 0 (by decide),
    ho 1 (by decide), h0, h1, h2, boundTo_self htc hv]
  simp

theorem weakSide_flat {second : Bool} (htc : 0 ≤ tc) (hv : 0 ≤ v ∧ v ≤ 2 ^ bitDepth - 1) (hx : ∀ k < 4, x.getD k 0 = v) :
    ∀ y ∈ weakSide bitDepth tc 0 second x, y = v := by
  have hmean : ((v + v + 1) / 2 - v + 0) / 2 = 0 := by omega
  have hzero : clip3 (-(tc / 2)) (tc / 2) 0 = 0 := clip3_of_mem (by omega) (by omega)
  have hpix : clipPix bitDepth v = v := by rw [clipPix_eq, clip3_of_mem hv.1 hv.2]
  rw [weakSide_eq, hx 0 (by decide), hx 1 (by decide), hx 2 (by decide), hmean, hzero, add_zero, hpix]
  cases second <;> simp

/-- On flat samples the delta of the weak filter is 0. -/
theorem weakDelta_flat {l : Line} (hp : ∀ k < 4, l.p.getD k 0 = v) (hq : ∀ k < 4, l.q.getD k 0 = v) : weakDelta l = 0 := by
  simp only [weakDelta, Line.pAt, Line.qAt, hp 0 (by decide), hp 1 (by decide), hq 0 (by decide), hq 1 (by decide)]
  simp [asr]

end

/-- Settles O52: on a flat line each strong formula gives the common value, and the weak delta is 0. -/
theorem flatDataIsUnchanged : Obligations.FlatDataIsUnchanged := by
  intro cfg bitDepth lenP lenQ tc v choice l htc hlp hlq h0 hmax hflat
  have hv := And.intro h0 hmax
  have hp : ∀ k < 4, l.p.getD k 0 = v := fun k hk =>
    getD_of_forall_mem hlp (fun x hx => hflat x (List.mem_append_left _ hx)) hk
  have hq : ∀ k < 4, l.q.getD k 0 = v := fun k hk =>
    getD_of_forall_mem hlq (fun x hx => hflat x (List.mem_append_right _ hx)) hk
  cases choice with
  | off => exact nofun
  | strong =>
    exact fun y hy => (List.mem_append.mp hy).elim (strongSide_flat htc hv hp hq y) (strongSide_flat htc hv hq hp y)
  | weak dEp dEq =>
    rw [filterLine]
    rcases lt_or_ge |weakDelta l| (10 * tc) with h | h
    · have hdelta : clip3 (-tc) tc (weakDelta l) = 0 := by
        rw [weakDelta_flat hp hq, clip3_of_mem (by omega) htc]
      rw [weakFilter_of_passed h, hdelta, neg_zero]
      exact fun y hy => (List.mem_append.mp hy).elim (weakSide_flat htc hv hp y) (weakSide_flat htc hv hq y)
    · rw [weakFilter_of_refused h]
      exact nofun

/-! ## The thresholds (R237) -/

/-- R121 (a) over any distance. -/
theorem getD_mono_of_monotonic {t : List Nat} (h : Config.monotonic t = true) {i j : Nat} (hij : i ≤ j) (hj : j < t.length) :
    t.getD i 0 ≤ t.getD j 0 := by
  induction t using Config.monotonic.induct generalizing i j with
  | case1 a b rest ih =>
    rw [Config.monotonic, Bool.and_eq_true, decide_eq_true_eq] at h
    obtain ⟨hab, hrest⟩ := h
    match i, j with
    | 0, 0 => rfl
    | 0, j + 1 => exact hab.trans (ih hrest (Nat.zero_le j) (Nat.lt_of_succ_lt_succ hj))
    | i + 1, j + 1 => exact ih hrest (Nat.le_of_succ_le_succ hij) (Nat.lt_of_succ_lt_succ hj)
  | case2 t ht =>
    match t, ht with
    | [], _ => exact absurd hj (Nat.not_lt_zero j)
    | [a], _ =>
      obtain rfl : j = 0 := Nat.lt_one_iff.mp hj
      rw [Nat.le_zero.mp hij]
    | a :: b :: rest, ht => exact absurd rfl (ht a b rest)

theorem clipIndex_lt (hi : Nat) (v : Int) : clipIndex hi v < hi + 1 := by
  have h := (clip3_mem (Int.natCast_nonneg hi) v).2
  rw [clipIndex]
  omega

theorem clipIndex_mono (hi : Nat) : Monotone (clipIndex hi) := fun _ _ hab =>
  Int.toNat_le_toNat (clip3_mono (Int.natCast_nonneg hi) hab)

/-- A monotonic table read at a clipped index does not fall (R121 a, R237). -/
theorem tableAt_clipIndex_mono {t : List Nat} {hi : Nat} (ht : Config.monotonic t = true) (hlen : t.length = hi + 1)
    {a b : Int} (hab : a ≤ b) : tableAt t (clipIndex hi a) ≤ tableAt t (clipIndex hi b) :=
  getD_mono_of_monotonic ht (clipIndex_mono hi hab) (hlen ▸ clipIndex_lt hi b)

theorem scaleTc_eq (bitDepth t : Nat) : scaleTc bitDepth t =
    if bitDepth < 10 then ((t : Int) + 2 ^ (9 - bitDepth)) / 2 ^ (10 - bitDepth) else (t : Int) * 2 ^ (bitDepth - 10) := by
  simp only [scaleTc, asr, shl, Nat.cast_pow, Nat.cast_ofNat]

theorem scaleTc_nonneg (bitDepth t : Nat) : 0 ≤ scaleTc bitDepth t := by
  rw [scaleTc_eq]
  split <;> positivity

theorem scaleTc_mono (bitDepth : Nat) : Monotone (scaleTc bitDepth) := fun a b hab => by
  have hcast : (a : Int) ≤ b := Int.ofNat_le.mpr hab
  rw [scaleTc_eq, scaleTc_eq]
  split
  · exact Int.ediv_le_ediv (by positivity) (Int.add_le_add_right hcast _)
  · exact Int.mul_le_mul_of_nonneg_right hcast (by positivity)

theorem State.beta_eq (s : State) (qp : Int) :
    s.beta qp = (tableAt s.config.betaTable (clipIndex 63 (qp + s.betaOffset)) : Int) * 2 ^ (s.bitDepth - 8) := by
  rw [State.beta, shl, Nat.cast_pow, Nat.cast_ofNat]

/-- The threshold tables of a valid instantiation (R121 a, R128, R129). -/
theorem valid_thresholdTables {cfg : Config} (h : cfg.valid = true) :
    (cfg.tcTable.length = 66 ∧ Config.monotonic cfg.tcTable = true)
      ∧ cfg.betaTable.length = 64 ∧ Config.monotonic cfg.betaTable = true := by
  simp only [Config.valid, Bool.and_eq_true, beq_iff_eq] at h
  tauto

/-- Settles O53: the tables are monotonic and read at clipped indices, and both scalings keep order and sign. -/
theorem thresholds : Obligations.Thresholds := by
  intro s qp bs hinv
  obtain ⟨⟨htcLength, htc⟩, hbetaLength, hbeta⟩ := valid_thresholdTables hinv.config
  refine ⟨s.beta_eq qp, scaleTc_eq _ _, ?_, scaleTc_nonneg _ _, fun qp' hqp => ⟨?_, ?_⟩⟩
  · rw [State.beta_eq]
    positivity
  · rw [State.beta_eq, State.beta_eq]
    exact Int.mul_le_mul_of_nonneg_right
      (Int.ofNat_le.mpr (tableAt_clipIndex_mono hbeta hbetaLength (Int.add_le_add_right hqp _))) (by positivity)
  · exact scaleTc_mono _ (tableAt_clipIndex_mono htc htcLength (by omega))

/-! ## The adaptive offset (R235, R236) -/

/-- What `takeWhile` keeps of a range: every number before its end passes, and the next one, if any, does not. -/
theorem takeWhile_range' (p : Nat → Bool) (a n : Nat) :
    let k := ((List.range' a n).takeWhile p).length
    k ≤ n ∧ (∀ i < k, p (a + i) = true) ∧ (k < n → p (a + k) = false) := by
  induction n generalizing a with
  | zero => exact ⟨le_rfl, nofun, nofun⟩
  | succ n ih =>
    obtain ⟨hle, hbelow, hnext⟩ := ih (a + 1)
    have hshift : ∀ i, a + (i + 1) = a + 1 + i := fun i => by omega
    simp only [List.range'_succ, List.takeWhile_cons]
    cases ha : p a with
    | false => exact ⟨Nat.zero_le _, nofun, fun _ => ha⟩
    | true =>
      refine ⟨Nat.succ_le_succ hle, fun i hi => ?_, fun hk => ?_⟩
      · cases i with
        | zero => exact ha
        | succ i => rw [hshift]; exact hbelow i (Nat.lt_of_succ_lt_succ hi)
      · exact (congrArg p (hshift _)).trans (hnext (Nat.lt_of_succ_lt_succ hk))

/-- Settles O54: `ladfInterval` counts the bounds exceeded before the first that is not. -/
theorem adaptiveQpOffset : Obligations.AdaptiveQpOffset := by
  intro s p q ls level
  refine ⟨by unfold qpAverage; omega, fun h => by simp [State.qpLuma, h], fun h hn => ?_⟩
  obtain ⟨hle, hbelow, hnext⟩ :=
    takeWhile_range' (fun k => decide ((s.ladfThresh k : Int) < level)) 1 (s.ladfIntervals - 1)
  refine ⟨s.ladfInterval level, ?_, ?_, fun j h1 hj => ?_, fun hk => ?_⟩
  · unfold State.ladfInterval; omega
  · rw [State.qpLuma, if_pos h]
    rfl
  · have hexceeds := hbelow (j - 1) (by unfold State.ladfInterval at hj; omega)
    rwa [decide_eq_true_eq, Nat.add_sub_cancel' h1] at hexceeds
  · have hstops := hnext (Nat.lt_sub_of_add_lt hk)
    rwa [decide_eq_false_iff_not, not_lt, Nat.add_comm] at hstops

end Sys2Proof.Machine

namespace Sys2Proof.Machine

/-! ## What a luma segment stores (R238, R243) -/

section
variable {s : State} {c : Plane} {dir : Dir} {gx gy x y i k a : Nat} {e : LfpEntry} {ls : List Line}

theorem State.planeW_luma (s : State) : s.planeW .y = s.picW := Nat.div_one _

/-- The bytes that no new sample of a segment stands on stay. -/
theorem writeLines_frame (h : ∀ i < ls.length, ∀ k,
    let pt := linePos dir x y i
    (k < (lineAt ls i).p.length →
        ¬inBuffer (s.pixAddr c (pPos dir pt.1 pt.2 k).1 (pPos dir pt.1 pt.2 k).2) 2 a)
      ∧ (k < (lineAt ls i).q.length →
        ¬inBuffer (s.pixAddr c (qPos dir pt.1 pt.2 k).1 (qPos dir pt.1 pt.2 k).2) 2 a)) :
    (writeLines c dir x y ls s).memory.readByte a = s.memory.readByte a := by
  refine Memory.readByte_writeEntries_outside _ fun w hw => ?_
  obtain ⟨i, hi, hw⟩ := List.mem_flatMap.mp hw
  have hline := h i (List.mem_range.mp hi)
  rcases List.mem_append.mp hw with hw | hw
  · obtain ⟨k, hk, rfl⟩ := State.sideWrites_addr hw
    exact (hline k).1 hk
  · obtain ⟨k, hk, rfl⟩ := State.sideWrites_addr hw
    exact (hline k).2 hk

theorem State.lumaLines_legal {l : Line} (hl : l ∈ s.lumaLines dir gx gy e) {v : Int} (hv : v ∈ l.p ++ l.q) :
    0 ≤ v ∧ v ≤ 2 ^ s.bitDepth - 1 := by
  obtain ⟨_, _, rfl⟩ := List.mem_map.mp hl
  exact filterLine_range hv

/-- Each new sample of a luma segment stands in its place afterwards: it is a legal one, so 16 bits hold it. -/
theorem filterLumaSegment_pix (hg : s.GeometryFits) (hr : s.roomFor .y dir (4 * gx) (4 * gy) 4 3) (hi : i < 4) :
    let new := lineAt (s.lumaLines dir gx gy e) i
    let pt := linePos dir (4 * gx) (4 * gy) i
    let t := filterLumaSegment dir gx gy e s
    (k < new.p.length → k < 3 ∧ t.pix .y (pPos dir pt.1 pt.2 k).1 (pPos dir pt.1 pt.2 k).2 = new.p.getD k 0)
      ∧ (k < new.q.length → k < 3 ∧ t.pix .y (qPos dir pt.1 pt.2 k).1 (qPos dir pt.1 pt.2 k).2 = new.q.getD k 0) := by
  intro new pt t
  have hlength : (s.lumaLines dir gx gy e).length = 4 := s.lumaLines_length ..
  have hmem : new ∈ s.lumaLines dir gx gy e := lineAt_mem (hlength ▸ hi)
  obtain ⟨hp3, hq3⟩ := State.lumaLines_short hmem
  obtain ⟨hp, hq⟩ := writeLines_pix (k := k) (hg.planeStrides .y s.luma_inUse) (fun _ => State.lumaLines_short)
    (hlength ▸ hr) (hlength ▸ hi)
  refine ⟨fun hk => ⟨by omega, (hp hk).trans (s.half_sample (State.lumaLines_legal hmem ?_))⟩,
    fun hk => ⟨by omega, (hq hk).trans (s.half_sample (State.lumaLines_legal hmem ?_))⟩⟩
  · rw [List.getD_eq_getElem _ _ hk]
    exact List.mem_append_left _ (List.getElem_mem hk)
  · rw [List.getD_eq_getElem _ _ hk]
    exact List.mem_append_right _ (List.getElem_mem hk)

end

/-- Settles O47: the window of the decision leaves room for the three samples a side, so `filterLumaSegment_pix` gives the
samples and `writeLines_frame` the rest. -/
theorem lumaSegmentWritesItsLines : Obligations.LumaSegmentWritesItsLines := by
  intro dir gx gy e s hg hx hy depthP depthQ hwindow pAt qAt line ls qpP qpL tc choice new t
  have hsnapshot : s.snapshot dir gx gy e = ls := by cases dir <;> rfl
  have hlines : s.lumaLines dir gx gy e = [new 0, new 1, new 2, new 3] := by
    rw [State.lumaLines, hsnapshot]
    cases dir <;> rfl
  have hat : ∀ i < 4, lineAt (s.lumaLines dir gx gy e) i = new i := by
    rw [hlines]
    intro i hi
    interval_cases i <;> rfl
  have hp : ∀ i k, pPos dir (linePos dir (4 * gx) (4 * gy) i).1 (linePos dir (4 * gx) (4 * gy) i).2 k = pAt i k := by
    cases dir <;> exact fun _ _ => rfl
  have hq : ∀ i k, qPos dir (linePos dir (4 * gx) (4 * gy) i).1 (linePos dir (4 * gx) (4 * gy) i).2 k = qAt i k := by
    cases dir <;> exact fun _ _ => rfl
  have hroom : s.roomFor .y dir (4 * gx) (4 * gy) 4 3 := by
    have hdepthP : 4 ≤ depthP := depthOf_ge e.lenP
    have hdepthQ : 4 ≤ depthQ := depthOf_ge e.lenQ
    unfold State.roomFor
    rw [State.planeW_luma]
    cases dir <;> simp only at hwindow ⊢ <;> omega
  refine ⟨hsnapshot, hlines, filterLumaSegment_eq .., fun i hi k => ?_, fun a ha => writeLines_frame fun i hi k => ?_⟩
  · have hpix := filterLumaSegment_pix (k := k) (e := e) hg hroom hi
    simp only [hat i hi, hp, hq] at hpix
    exact hpix
  · rw [State.lumaLines_length] at hi
    simp only [hat i hi, hp, hq]
    exact ha i hi k

end Sys2Proof.Machine

namespace Sys2Proof.Machine

/-! ## The chroma filter of a line, where it applies and its threshold (R260 to R263) -/

section
variable {s : State} {c : Plane} {dir : Dir} {x0 y0 : Nat} {e : LfpEntry}

/-- R260, written out. -/
theorem chromaFilter_eq (bitDepth : Nat) (tc p0 p1 q0 q1 : Int) (ps qs : List Int) :
    let delta := clip3 (-tc) tc (((q0 - p0) * 4 + p1 - q1 + 4) / 8)
    chromaFilter bitDepth tc ⟨p0 :: p1 :: ps, q0 :: q1 :: qs⟩ =
      ⟨[clip3 0 (2 ^ bitDepth - 1) (p0 + delta)], [clip3 0 (2 ^ bitDepth - 1) (q0 - delta)]⟩ := by
  intro delta
  rw [← clipPix_eq, ← clipPix_eq]
  rfl

theorem State.shiftX_chroma (hc : c ≠ .y) : s.shiftX c = if s.chroma = 1 ∨ s.chroma = 2 then 1 else 0 := if_neg hc

theorem State.shiftY_chroma (hc : c ≠ .y) : s.shiftY c = if s.chroma = 1 then 1 else 0 := if_neg hc

/-- The plane's grid of 8 samples in luma samples (R262), across and down. -/
theorem State.chromaGridX (hc : c ≠ .y) : 8 * 2 ^ s.shiftX c = if s.chroma = 1 ∨ s.chroma = 2 then 16 else 8 := by
  rw [State.shiftX_chroma hc]
  split <;> rfl

theorem State.chromaGridY (hc : c ≠ .y) : 8 * 2 ^ s.shiftY c = if s.chroma = 1 then 16 else 8 := by
  rw [State.shiftY_chroma hc]
  split <;> rfl

/-- The segment's strength asks for the filter in the plane (R261), and the edge lies on the plane's grid of 8 samples
(R262). -/
theorem State.chromaApplies_iff (hc : c ≠ .y) : s.chromaApplies dir x0 y0 e c = true ↔
    (e.bs = 2 ∨ (e.bs = 1 ∧ ((c = .cb ∧ e.ccCb = true) ∨ (c = .cr ∧ e.ccCr = true))))
      ∧ (match dir with
        | .ver => x0 % (8 * 2 ^ s.shiftX c) = 0
        | .hor => y0 % (8 * 2 ^ s.shiftY c) = 0) := by
  have hflag : (if c = .cb then e.ccCb else e.ccCr) = true ↔ (c = .cb ∧ e.ccCb = true) ∨ (c = .cr ∧ e.ccCr = true) := by
    cases c with
    | y => exact absurd rfl hc
    | cb => simp
    | cr => simp
  unfold State.chromaApplies
  rw [Bool.and_eq_true, Bool.or_eq_true, Bool.and_eq_true, beq_iff_eq, beq_iff_eq, hflag]
  cases dir <;> exact and_congr_right' beq_iff_eq

end

/-- Settles O55: `chromaFilter_eq`, `chromaApplies_iff` with the grid of each format, and the definition of `chromaTc`. -/
theorem chromaFilterRules : Obligations.ChromaFilterRules := by
  refine ⟨chromaFilter_eq, fun s dir x0 y0 e c hc => ?_, fun s dir gx gy e c => rfl⟩
  refine (State.chromaApplies_iff hc).trans (and_congr_right' ?_)
  cases dir with
  | ver => exact iff_of_eq (congrArg (x0 % · = 0) (State.chromaGridX hc))
  | hor => exact iff_of_eq (congrArg (y0 % · = 0) (State.chromaGridY hc))

end Sys2Proof.Machine

namespace Sys2Proof.Machine

/-! ## What a chroma segment stores (R262, R264) -/

section
variable {s : State} {c : Plane} {dir : Dir} {gx gy j a : Nat} {e : LfpEntry}

theorem filterChromaSegment_of_not_applies (h : ¬s.chromaApplies dir (4 * gx) (4 * gy) e c = true) :
    filterChromaSegment dir gx gy e c s = s := if_neg h

theorem filterChromaSegment_of_applies (h : s.chromaApplies dir (4 * gx) (4 * gy) e c = true) :
    filterChromaSegment dir gx gy e c s =
      writeLines c dir (4 * gx / 2 ^ s.shiftX c) (4 * gy / 2 ^ s.shiftY c) (s.chromaNew dir gx gy e c) s := if_pos h

theorem State.lineAt_chromaNew (hj : j < s.chromaLines dir c) : lineAt (s.chromaNew dir gx gy e c) j =
    chromaFilter s.bitDepth (s.chromaTc dir gx gy e c)
      (s.readLine c dir (linePos dir (4 * gx / 2 ^ s.shiftX c) (4 * gy / 2 ^ s.shiftY c) j) 2 2) := by
  rw [lineAt, State.chromaNew, List.getD_eq_getElem _ _ (by simpa using hj), List.getElem_map, List.getElem_range]

/-- A segment inside the picture with a P side has room for one chroma sample a side on each of its lines. -/
theorem State.roomFor_chroma (hx : gx < s.picW / 4) (hside : match dir with | .ver => gx ≠ 0 | .hor => gy ≠ 0) :
    s.roomFor c dir (4 * gx / 2 ^ s.shiftX c) (4 * gy / 2 ^ s.shiftY c) (s.chromaLines dir c) 1 := by
  unfold State.roomFor State.planeW State.chromaLines
  cases dir with
  | ver => rcases s.shiftX_cases c with h | h <;> simp only [h] at hside ⊢ <;> omega
  | hor =>
    rcases s.shiftX_cases c with h | h <;> rcases s.shiftY_cases c with h' | h' <;> simp only [h, h'] at hside ⊢ <;> omega

/-- Each new sample of a chroma segment stands in its place afterwards: it is a legal one, so 16 bits hold it. -/
theorem filterChromaSegment_pix (hg : s.GeometryFits) (hc : c ∈ s.planesInUse)
    (h : s.chromaApplies dir (4 * gx) (4 * gy) e c = true)
    (hr : s.roomFor c dir (4 * gx / 2 ^ s.shiftX c) (4 * gy / 2 ^ s.shiftY c) (s.chromaLines dir c) 1)
    (hj : j < s.chromaLines dir c) :
    let pt := linePos dir (4 * gx / 2 ^ s.shiftX c) (4 * gy / 2 ^ s.shiftY c) j
    let new := chromaFilter s.bitDepth (s.chromaTc dir gx gy e c) (s.readLine c dir pt 2 2)
    let t := filterChromaSegment dir gx gy e c s
    t.pix c (pPos dir pt.1 pt.2 0).1 (pPos dir pt.1 pt.2 0).2 = new.p.getD 0 0
      ∧ t.pix c (qPos dir pt.1 pt.2 0).1 (qPos dir pt.1 pt.2 0).2 = new.q.getD 0 0 := by
  intro pt new t
  have hlength : (s.chromaNew dir gx gy e c).length = s.chromaLines dir c := s.chromaNew_length ..
  have ht : t = writeLines c dir _ _ (s.chromaNew dir gx gy e c) s := filterChromaSegment_of_applies h
  obtain ⟨hp, hq⟩ := writeLines_pix (k := 0) (hg.planeStrides c hc) (fun _ => State.chromaNew_short)
    (hlength ▸ hr) (hlength ▸ hj)
  rw [State.lineAt_chromaNew hj] at hp hq
  rw [ht]
  exact ⟨(hp Nat.one_pos).trans (s.half_sample (clipPix_range ..)), (hq Nat.one_pos).trans (s.half_sample (clipPix_range ..))⟩

/-- The bytes that no new sample of a chroma segment stands on stay. -/
theorem filterChromaSegment_frame (h : ∀ j < s.chromaLines dir c,
    let pt := linePos dir (4 * gx / 2 ^ s.shiftX c) (4 * gy / 2 ^ s.shiftY c) j
    ¬inBuffer (s.pixAddr c (pPos dir pt.1 pt.2 0).1 (pPos dir pt.1 pt.2 0).2) 2 a
      ∧ ¬inBuffer (s.pixAddr c (qPos dir pt.1 pt.2 0).1 (qPos dir pt.1 pt.2 0).2) 2 a) :
    (filterChromaSegment dir gx gy e c s).memory.readByte a = s.memory.readByte a := by
  refine filterChromaSegment_outside fun _ ⟨j, hj, k, hk, hstore⟩ => ?_
  obtain rfl : k = 0 := Nat.lt_one_iff.mp hk
  exact hstore.elim (h j hj).1 (h j hj).2

end

/-- Settles O59: in the coordinates of R262 each line is filtered by `chromaFilter_eq`; the P side gives the lines room
(`roomFor_chroma`), so `filterChromaSegment_pix` gives the samples and `filterChromaSegment_frame` the rest. -/
theorem chromaSegmentWritesItsLines : Obligations.ChromaSegmentWritesItsLines := by
  intro dir gx gy e c s hg hchroma hc hx hy hside sx sy xc yc nLines pAt qAt p q applies qpP off qpC tc delta t
  have hsx : s.shiftX c = sx := State.shiftX_chroma hc
  have hsy : s.shiftY c = sy := State.shiftY_chroma hc
  have happlies : s.chromaApplies dir (4 * gx) (4 * gy) e c = true ↔ applies := by
    refine (State.chromaApplies_iff hc).trans (and_congr_right' ?_)
    cases dir with
    | ver => exact iff_of_eq (congrArg (fun n => 4 * gx % (8 * 2 ^ n) = 0) hsx)
    | hor => exact iff_of_eq (congrArg (fun n => 4 * gy % (8 * 2 ^ n) = 0) hsy)
  have htc : s.chromaTc dir gx gy e c = tc := by cases dir <;> rfl
  have hlines : s.chromaLines dir c = nLines := by
    cases dir with
    | ver => exact congrArg (4 / 2 ^ ·) hsy
    | hor => exact congrArg (4 / 2 ^ ·) hsx
  have hp : ∀ j k, pPos dir (linePos dir xc yc j).1 (linePos dir xc yc j).2 k = pAt j k := by
    cases dir <;> exact fun _ _ => rfl
  have hq : ∀ j k, qPos dir (linePos dir xc yc j).1 (linePos dir xc yc j).2 k = qAt j k := by
    cases dir <;> exact fun _ _ => rfl
  have hnew : ∀ j, chromaFilter s.bitDepth tc (s.readLine c dir (linePos dir xc yc j) 2 2) =
      ⟨[clip3 0 (2 ^ s.bitDepth - 1) (p j 0 + delta j)], [clip3 0 (2 ^ s.bitDepth - 1) (q j 0 - delta j)]⟩ := by
    intro j
    have hread : s.readLine c dir (linePos dir xc yc j) 2 2 = ⟨[p j 0, p j 1], [q j 0, q j 1]⟩ := by
      cases dir <;> rfl
    rw [hread]
    exact chromaFilter_eq ..
  refine ⟨fun h => filterChromaSegment_of_not_applies (mt happlies.mp h), fun h =>
    ⟨filterChromaSegment_eq .., fun j hj => ?_, fun a ha => filterChromaSegment_frame fun j hj => ?_⟩⟩
  · have hpix := filterChromaSegment_pix hg (State.chroma_inUse c hchroma) (happlies.mpr h) (State.roomFor_chroma hx hside)
      (hlines ▸ hj)
    simp only [hsx, hsy] at hpix
    rw [htc, hnew j, hp j 0, hq j 0] at hpix
    exact hpix
  · rw [hsx, hsy]
    intro pt
    rw [hp j 0, hq j 0]
    exact ha j (hlines ▸ hj)

end Sys2Proof.Machine

namespace Sys2Proof.Machine

/-! ## `PIC_START` (R273) -/

section
variable {s : State}

/-- `PIC_START` opens the picture when every check passes. -/
theorem exec_picStart_ok (hf : s.faulted = false) (hp : s.picActive = false) (hg : s.GeometryFits) :
    exec .picStart s = .next ((s.setPicture true).afterOk 0) :=
  runChecked_ok hf (List.forall_mem_cons.mpr ⟨failIf_eq_none.mpr hp, picStartChecks_pass.mpr hg⟩) _

/-- Outside a picture the first failing check of the configuration is the fault (R288). -/
theorem exec_picStart_fault {r : Raised} (hf : s.faulted = false) (hp : s.picActive = false)
    (hr : firstRaised (picStartChecks s) = some r) :
    exec .picStart s = .next (s.afterFault r.cause.code.toNat r.info) :=
  runChecked_fault hf (by rw [failIf_eq_none.mpr hp, firstRaised_none, hr]) _

/-- R273: an unfit configuration raises `BAD_CFG` or `ADDR`, and nothing else. -/
theorem picStartChecks_raisesIn (s : State) : ∀ x ∈ picStartChecks s, RaisesIn [.badCfg, .addr] x := by
  simp only [picStartChecks, List.forall_mem_cons, List.forall_mem_append, List.forall_mem_map]
  simp [State.outsideBmem_raisesIn, firstOverlap_raisesIn]

/-- A configuration that does not fit fails a check. -/
theorem picStartChecks_fail (hg : ¬s.GeometryFits) :
    ∃ r, firstRaised (picStartChecks s) = some r ∧ r.cause ∈ [Cause.badCfg, .addr] := by
  cases hr : firstRaised (picStartChecks s) with
  | none => exact absurd (picStartChecks_pass.mp (firstRaised_eq_none.mp hr)) hg
  | some r => exact ⟨r, rfl, picStartChecks_raisesIn s _ (firstRaised_mem hr) r rfl⟩

/-- The first failing check of a list of checks, by its place. -/
theorem firstRaised_eq_some_of_split {before after : List (Option Raised)} {r : Raised} (hb : ∀ x ∈ before, x = none) :
    firstRaised (before ++ some r :: after) = some r := by
  rw [firstRaised_append, firstRaised_eq_none.mpr hb, Option.none_or, firstRaised_some]

/-- `ADDR` names the first region that does not end inside `BMEM` (R273 d). -/
theorem State.outsideBmem_eq_some {l before after : List Region} {r : Region} (hl : l = before ++ r :: after)
    (hb : ∀ q ∈ before, q.stop ≤ s.config.bmemSize) (hr : s.config.bmemSize < r.stop) :
    s.outsideBmem l = some ⟨.addr, r.base⟩ := by
  rw [State.outsideBmem, find?_first hl (by simpa using hb) (by simpa using hr)]
  rfl

/-- `BAD_CFG` names the second region of the first overlapping pair (R273 e). No region before the pair overlaps another
one, so the search reaches the pair's first region. -/
theorem firstOverlap_eq_some {a b : Region} {between after before : List Region}
    (hnodup : (before ++ a :: between ++ b :: after).Nodup)
    (hbefore : ∀ p ∈ before, ∀ q ∈ before ++ a :: between ++ b :: after, p ≠ q → ¬(p.base < q.stop ∧ q.base < p.stop))
    (hbetween : ∀ q ∈ between, ¬(a.base < q.stop ∧ q.base < a.stop)) (hab : a.base < b.stop ∧ b.base < a.stop) :
    firstOverlap (before ++ a :: between ++ b :: after) = some ⟨.badCfg, b.reg⟩ := by
  induction before with
  | nil =>
    have hfind : (between ++ b :: after).find? a.overlaps = some b :=
      find?_first rfl (fun q hq => mt Region.overlaps_iff.mp (hbetween q hq)) (Region.overlaps_iff.mpr hab)
    simp only [List.nil_append, List.cons_append, firstOverlap, hfind]
  | cons p before ih =>
    simp only [List.cons_append] at hnodup hbefore ⊢
    obtain ⟨hp, hnodup⟩ := List.nodup_cons.mp hnodup
    have hnone : (before ++ a :: between ++ b :: after).find? p.overlaps = none :=
      List.find?_eq_none.mpr fun q hq => mt Region.overlaps_iff.mp
        (hbefore p List.mem_cons_self q (List.mem_cons_of_mem _ hq) fun heq => hp (heq ▸ hq))
    rw [firstOverlap, hnone]
    exact ih hnodup fun r hr q hq => hbefore r (List.mem_cons_of_mem _ hr) q (List.mem_cons_of_mem _ hq)

/-- The regions of a picture have different base registers, so none is listed twice (R273 d). -/
theorem State.regions_nodup (s : State) : s.regions.Nodup := by
  have hregs : (s.regions.map Region.reg).Nodup := by
    have h : s.regions.map Region.reg = s.planesInUse.map (fun c => 0x020 + c.index) ++ [0x028, 0x02A] := by
      simp [State.regions, State.planeRegion, State.metaRegion, State.lfpRegion]
    rw [h, State.planesInUse]
    split <;> decide
  exact hregs.of_map

/-- The checks of R273 after the size: the strides of the planes (b), then `META_STRIDE` and the regions (c to e). -/
theorem firstRaised_picStartChecks_of_sized (hw : s.picW ≠ 0) (hh : s.picH ≠ 0) : firstRaised (picStartChecks s) =
    (firstRaised (s.planesInUse.map fun c =>
      failIf (decide (s.planeStride c < 2 * s.planeW c)) .badCfg (0x024 + c.index))).or
    (firstRaised [failIf (decide (s.regs.metaStride.toNat < 32 * (s.picW / 4))) .badCfg 0x029, s.outsideBmem s.regions,
      firstOverlap s.regions]) := by
  have hsized : failIf (s.picW == 0 || s.picH == 0) .badCfg 0x011 = none := by simp [hw, hh]
  rw [picStartChecks, hsized, List.append_assoc, List.singleton_append, firstRaised_none, firstRaised_append]

end

/-- Settles O17: the checks pass exactly when the geometry fits, and a check that fails raises one of two causes. -/
theorem picStartCompletes : Obligations.PicStartCompletes := by
  intro s hf hp
  refine ⟨fun hg => ⟨exec_picStart_ok hf hp hg, State.phaseOf_nil rfl⟩, fun hg => ?_⟩
  obtain ⟨r, hr, hcause⟩ := picStartChecks_fail hg
  refine ⟨r.cause.code.toNat, r.info, ?_, exec_picStart_fault hf hp hr⟩
  simp only [List.mem_cons, List.not_mem_nil, or_false] at hcause
  rcases hcause with h | h <;> simp [h, Cause.code]

/-- Settles O18: each clause lets the checks before its own pass and says what its own raises. -/
theorem picStartFaults : Obligations.PicStartFaults := by
  intro s hf
  refine ⟨fun hp => ?_, fun hp => ⟨fun hempty => ?_, fun hw hh => ?_⟩⟩
  · exact runChecked_fault (r := ⟨.order, 0⟩) hf (by simp [hp, failIf]) _
  · have hraised : firstRaised (picStartChecks s) = some ⟨.badCfg, 0x011⟩ := by
      have hbad : (s.picW == 0 || s.picH == 0) = true := by simpa using hempty
      rw [picStartChecks, hbad]
      rfl
    exact exec_picStart_fault hf hp hraised
  have hsized := firstRaised_picStartChecks_of_sized hw hh
  refine ⟨fun before c after hl hbefore hc => ?_, fun hstrides => ?_⟩
  · have hbad : failIf (decide (s.planeStride c < 2 * s.planeW c)) .badCfg (0x024 + c.index) =
        some ⟨.badCfg, 0x024 + c.index⟩ := failIf_eq_some.mpr ⟨decide_eq_true hc, rfl⟩
    rw [hl, List.map_append, List.map_cons, hbad,
      firstRaised_eq_some_of_split (List.forall_mem_map.mpr (by simpa using hbefore)), Option.some_or] at hsized
    exact exec_picStart_fault hf hp hsized
  rw [firstRaised_eq_none.mpr (List.forall_mem_map.mpr (by simpa using hstrides)), Option.none_or] at hsized
  refine ⟨fun hmeta => ?_, fun hmeta => ?_⟩
  · rw [failIf_eq_some.mpr ⟨decide_eq_true hmeta, rfl⟩, firstRaised_some] at hsized
    exact exec_picStart_fault hf hp hsized
  rw [failIf_eq_none.mpr (decide_eq_false hmeta.not_gt), firstRaised_none] at hsized
  refine ⟨fun before r after hl hbefore hr => ?_, fun hinside before a between b after hl hbefore hbetween hab hba => ?_⟩
  · rw [State.outsideBmem_eq_some hl hbefore hr, firstRaised_some] at hsized
    exact exec_picStart_fault hf hp hsized
  · have hoverlap : firstOverlap s.regions = some ⟨.badCfg, b.reg⟩ := by
      rw [hl] at hbefore ⊢
      exact firstOverlap_eq_some (hl ▸ s.regions_nodup) hbefore hbetween ⟨hab, hba⟩
    rw [State.outsideBmem_eq_none.mpr hinside, firstRaised_none, hoverlap, firstRaised_some] at hsized
    exact exec_picStart_fault hf hp hsized

end Sys2Proof.Machine

namespace Sys2Proof.Machine

/-! ## `SRESET` (R275) -/

/-- R44: each register that has a reset value reads it after a hardware reset; `CAP` is not one of them. -/
theorem State.reset_readReg {e : BitVec 12 × Word} (he : e ∈ resetTable) {r : Reg} (hr : e.1.toNat = r.number) :
    r ≠ .cap ∧ State.reset.readReg r = e.2 := by
  have hall : (resetTable.all fun e => (valueAt e.1.toNat regMap).all fun r =>
      r != .cap && State.reset.readReg r == e.2) = true := by decide
  simpa [valueAt_regMap.mpr hr] using List.all_eq_true.mp hall e he

/-- R310: the reset values do not depend on the parameters, the host's moves, the latches, the reply and `BMEM`. -/
theorem State.atReset (cfg : Config) (ho : List HostMove) (l : Command) (rep : Option Reply) (m : Memory) :
    ({ State.reset with config := cfg, host := ho, latch := l, reply := rep, memory := m } : State).AtReset where
  registers e he r hr := by
    obtain ⟨hnumber, -⟩ := regOf_eq_some_iff_number.mp hr
    obtain ⟨hcap, hvalue⟩ := State.reset_readReg he hnumber
    refine Eq.trans ?_ hvalue
    cases r
    case cap => exact absurd rfl hcap
    all_goals rfl
  cap := by cases h : cfg.hasLadf <;> simp [State.readReg, h]
  phases := State.phaseOf_nil rfl
  noPicture := rfl
  noFault := rfl

/-- Settles O10: the row of opcode 4 decodes the exact form and nothing else. -/
theorem sresetFormIsExact : Obligations.SresetFormIsExact := by
  intro s c rest hh hop
  refine ⟨?_, fun hc => ?_⟩
  · rintro rfl
    exact ⟨_, step_present hh (decode_eq_sreset.mpr rfl), State.atReset .., rfl, rfl⟩
  · have hrow : decode c = decodeS c .sreset := decode_sresetRow (Command.opcode_eq_iff.mpr hop)
    cases hd : decode c with
    | ok i =>
      obtain ⟨-, rfl⟩ := rowIf_eq_ok.mp (hrow.symm.trans hd)
      exact absurd (decode_eq_sreset.mp hd) hc
    | error e => exact (step_illegal hh hd).trans (illegalCommand_eq _)

end Sys2Proof.Machine

namespace Sys2Proof.Machine

/-! ## `CFG_WR` and `CFG_RD` (R271, R272) -/

section
variable {s : State} {reg : BitVec 12} {r : Reg} {value : Word}

/-- On an existing register `CFG_WR` makes checks 3 to 5 and writes it. -/
theorem exec_cfgWr_exists (hr : regOf s.config reg = some r) : exec (.cfgWr reg value) s =
    runChecked s (cfgWrChecks r reg value s) (s.setRegs (s.regs.set value r)) := by
  simp only [exec, execCfgWr, hr]

/-- Where there is no register to write or read, check 3 fails (R271, R272). -/
theorem exec_cfgWr_missing (hr : regOf s.config reg = none) :
    exec (.cfgWr reg value) s = runChecked s [some ⟨.badReg, reg.toNat⟩] s := by
  simp only [exec, execCfgWr, hr]

theorem exec_cfgRd_missing (hr : regOf s.config reg = none) :
    exec (.cfgRd reg) s = runChecked s [some ⟨.badReg, reg.toNat⟩] s := by
  simp only [exec, execCfgRd, hr]

/-- `CFG_WR` writes its register when every check passes. -/
theorem exec_cfgWr_ok (hf : s.faulted = false) (hr : regOf s.config reg = some r)
    (h : ∀ x ∈ cfgWrChecks r reg value s, x = none) :
    exec (.cfgWr reg value) s = .next ((s.setRegs (s.regs.set value r)).afterOk 0) :=
  (exec_cfgWr_exists hr).trans (runChecked_ok hf h _)

/-- The first failing check of `CFG_WR` on an existing register is the fault (R288). -/
theorem exec_cfgWr_fault {x : Raised} (hf : s.faulted = false) (hr : regOf s.config reg = some r)
    (h : firstRaised (cfgWrChecks r reg value s) = some x) :
    exec (.cfgWr reg value) s = .next (s.afterFault x.cause.code.toNat x.info) :=
  (exec_cfgWr_exists hr).trans (runChecked_fault hf h _)

/-- Every register but the read-only ones reads what is stored for it (R272). -/
theorem State.readReg_of_readWrite (h : r.readOnly = false) : s.readReg r = s.regs.get r := by
  cases r <;> first | rfl | cases h

/-- R37: a write of a register outside the geometry class leaves the geometry. -/
theorem sameGeometry_writeReg (hro : r.readOnly = false) (hgeo : r.geometry = false) :
    SameGeometry s (s.setRegs (s.regs.set value r)) where
  config := rfl
  regs r' hr' := (Regs.get_set hro).trans (if_neg fun heq => absurd (heq ▸ hr') (by simp [hgeo]))

/-- `STATUS` depends on the geometry only, and only inside a picture (R23). -/
theorem State.statusWord_setRegs {g : Regs} (h : s.picActive = true → SameGeometry s (s.setRegs g)) :
    (s.setRegs g).statusWord = s.statusWord := by
  cases hp : s.picActive with
  | false => simp [State.statusWord, State.allBs, State.allVer, State.allHor, hp]
  | true =>
    have hall : ∀ n, (s.setRegs g).allPhases n = s.allPhases n := fun n => by
      rw [State.allPhases, State.ctuIndices, (h hp).ctusW, (h hp).ctusH]
      rfl
    simp [State.statusWord, State.allBs, State.allVer, State.allHor, hall]

/-- Of the read-only registers `STATUS` alone depends on the read-write ones (R23). -/
theorem State.readReg_setRegs_of_readOnly {g : Regs} (hro : r.readOnly = true)
    (h : s.picActive = true → SameGeometry s (s.setRegs g)) : (s.setRegs g).readReg r = s.readReg r := by
  cases r
  case status => exact State.statusWord_setRegs h
  all_goals first | rfl | cases hro

/-- What each register reads after an accepted `CFG_WR` (R271). -/
theorem State.readReg_writeReg (hro : r.readOnly = false) (hgeo : r.geometry = true → s.picActive = false) (r' : Reg) :
    (s.setRegs (s.regs.set value r)).readReg r' = if r' = r then value else s.readReg r' := by
  cases hro' : r'.readOnly with
  | true =>
    have hne : r' ≠ r := fun heq => absurd (heq ▸ hro') (by simp [hro])
    rw [if_neg hne]
    refine State.readReg_setRegs_of_readOnly hro' fun hp => sameGeometry_writeReg hro ?_
    exact Bool.eq_false_iff.mpr fun hg => absurd (hgeo hg) (by simp [hp])
  | false =>
    rw [State.readReg_of_readWrite hro', State.readReg_of_readWrite hro']
    exact Regs.get_set hro

end

/-- Settles O12: the checks pass, and `readReg_writeReg` says what every register reads. -/
theorem cfgWrWrites : Obligations.CfgWrWrites := by
  intro s reg r value hf hr hro hgeo hv
  have hread := State.readReg_writeReg (value := value) hro hgeo
  exact ⟨s.regs.set value r, exec_cfgWr_ok hf hr (cfgWrChecks_pass.mpr ⟨hro, hgeo, hv⟩), (hread r).trans (if_pos rfl),
    fun r' hne => (hread r').trans (if_neg hne)⟩

/-- Settles O13: each clause says which check of `CFG_WR` is the first to fail. -/
theorem cfgWrFaults : Obligations.CfgWrFaults := by
  intro s reg value hf
  refine ⟨fun hnone => ?_, fun r hr => ⟨fun hro => ?_, fun hro hgeo hp => ?_, fun hro hgeo hv => ?_⟩⟩
  · exact (exec_cfgWr_missing hnone).trans (runChecked_fault hf (firstRaised_some _ _) _)
  · exact exec_cfgWr_fault (x := ⟨.badReg, _⟩) hf hr (by simp [cfgWrChecks, failIf, hro])
  · exact exec_cfgWr_fault (x := ⟨.order, _⟩) hf hr (by simp [cfgWrChecks, failIf, hro, hgeo, hp])
  · have hopen : (r.geometry && s.picActive) = false := by simpa using hgeo
    exact exec_cfgWr_fault (x := ⟨.badValue, _⟩) hf hr (by simp [cfgWrChecks, failIf, hro, hopen, hv])

/-- Settles O15: an existing register is read in every state, and of any other number the one check fails. -/
theorem cfgRdAnswers : Obligations.CfgRdAnswers := by
  intro s reg
  refine ⟨fun r hr => execCfgRd_exists hr, fun hnone hf => ?_, fun hnone hf => ?_⟩
  · exact (exec_cfgRd_missing hnone).trans (runChecked_fault hf (firstRaised_some _ _) _)
  · exact (exec_cfgRd_missing hnone).trans (runChecked_faulted hf _ _)

/-! ## `NOP` and `PIC_END` (R270, R274) -/

/-- Settles O11: `NOP` has no check and no effect. -/
theorem nopCompletes : Obligations.NopCompletes := fun _ hf => runChecked_ok hf (List.forall_mem_nil _) _

/-- Settles O19, by the one check of `PIC_END`. -/
theorem picEndCompletes : Obligations.PicEndCompletes := by
  refine fun s hf => ⟨fun hp => ?_, fun hp => ?_⟩
  · exact runChecked_ok hf (by simp [hp]) (s.setPicture false)
  · exact runChecked_fault (r := ⟨.order, 0⟩) hf (by simp [hp, failIf]) _

end Sys2Proof.Machine

namespace Sys2Proof.Machine

/-! ## Refusal and fault entry (R290, R291) -/

section
variable {s : State}

theorem illegalCommand_of_faulted (hf : s.faulted = true) : illegalCommand s = .next s.afterRefusal :=
  runChecked_faulted hf _ _

theorem illegalCommand_of_not_faulted (hf : s.faulted = false) :
    illegalCommand s = .next (s.afterFault 1 s.latch.w0.toNat) :=
  runChecked_fault hf (firstRaised_some _ _) _

/-- While faulted, every command but `SRESET` and a `CFG_RD` of an existing register is refused (R291). -/
theorem exec_of_faulted {i : Instr} (hf : s.faulted = true) (hsreset : i ≠ .sreset)
    (hread : ∀ reg, i = .cfgRd reg → regOf s.config reg = none) : exec i s = .next s.afterRefusal :=
  (exec_eq_runChecked i s hsreset hread).trans (runChecked_faulted hf _ _)

/-- A command that leaves the block not faulted has replied `OK` (R102, R290). -/
theorem exec_accepted {i : Instr} {t : State} (hf : s.faulted = false) (ht : exec i s = .next t)
    (hft : t.faulted = false) : t.accepted := by
  rcases exec_cases i s with ⟨-, he⟩ | ⟨reg, r, -, -, he⟩ | ⟨hs, -⟩ | ⟨r, -, -, he⟩ | ⟨-, -, he⟩
  case inr.inr.inl => exact absurd (hf.symm.trans hs) Bool.false_ne_true
  all_goals obtain rfl := Host.Outcome.next.inj (he.symm.trans ht)
  · exact ⟨0, rfl⟩
  · exact ⟨s.readReg r, rfl⟩
  · exact absurd hft.symm Bool.false_ne_true
  · exact ⟨0, rfl⟩

/-- The capture of a command is not seen in any register (R78). -/
theorem State.readReg_present (c : Command) (rest : List HostMove) (r : Reg) :
    (s.present c rest).readReg r = s.readReg r := by
  cases r <;> rfl

end

/-- Settles O20: what the words decode to is refused unless it is one of the two commands that R291 lets through. -/
theorem faultedStateRefuses : Obligations.FaultedStateRefuses := by
  intro s c rest hh hf
  refine ⟨fun hc hread => ?_, ?_, fun reg r hd hr => ?_⟩
  · cases hd : decode c with
    | ok i =>
      have hsreset : i ≠ .sreset := fun hi => hc (decode_eq_sreset.mp (hi ▸ hd))
      exact (step_present hh hd).trans
        (exec_of_faulted (s := s.present c rest) hf hsreset fun reg hi => hread reg (hi ▸ hd))
    | error e => exact (step_illegal hh hd).trans (illegalCommand_of_faulted hf)
  · rintro rfl
    exact ⟨_, step_present hh (decode_eq_sreset.mpr rfl), ⟨0, rfl⟩, rfl⟩
  · rw [step_present hh hd, ← State.readReg_present c rest]
    exact execCfgRd_exists hr

/-- Settles O21: a decoded command that faults has made a fault entry, any other has replied `OK`; words that
do not decode make the fault entry of code 1. -/
theorem faultsArePrecise : Obligations.FaultsArePrecise := by
  intro s t c rest hh hf ht
  cases hd : decode c with
  | ok i =>
    have hexec := (step_present hh hd).symm.trans ht
    refine ⟨fun hft => ?_, exec_accepted (s := s.present c rest) hf hexec⟩
    obtain ⟨r, -, rfl⟩ := exec_faulted (s := s.present c rest) hf hexec hft
    obtain ⟨hlow, hhigh⟩ := r.cause.code_range
    exact ⟨rfl, _, _, hlow, hhigh, rfl⟩
  | error e =>
    have hstep := (step_illegal hh hd).trans (illegalCommand_of_not_faulted (s := s.present c rest) hf)
    obtain rfl := Host.Outcome.next.inj (hstep.symm.trans ht)
    exact ⟨fun _ => ⟨rfl, 1, _, le_rfl, by decide, rfl⟩, fun hft => absurd hft.symm Bool.false_ne_true⟩

/-! ## The fault table (R297) -/

/-- The cause that a fault entry records is the code of the check that failed (R290). -/
theorem State.faultCause_afterFault (s : State) (c : Cause) (info : Nat) :
    (s.afterFault c.code.toNat info).faultCause.toNat = c.code.toNat := by
  simp

/-- Settles O22: the fault is of one of the causes of the command, and their codes are those of its row. -/
theorem faultTable : Obligations.FaultTable := by
  intro i s t hf ht hft
  obtain ⟨r, hr, rfl⟩ := exec_faulted hf ht hft
  rw [State.faultCause_afterFault]
  suffices hrow : ∀ cause ∈ causesOf i, cause.code.toNat ∈ _ from hrow r.cause hr
  cases i with
  | itxBlk o => cases hw : o.wellFormed <;> simp [causesOf, hw, Cause.code]
  | itx1d o => cases hw : o.wellFormed <;> simp [causesOf, hw, Cause.code]
  | _ => simp [causesOf, Cause.code]

end Sys2Proof.Machine

namespace Sys2Proof.Machine

/-! ## Reset (R44, R310) -/

/-- A hardware reset is one step (R310). -/
theorem step_powerOn {s : State} {rest : List HostMove} (h : s.host = .powerOn :: rest) :
    step s = .next (s.powerOn rest) := by
  simp only [step, h]

/-- A byte not written since the last hardware reset reads as its open value (R44). -/
theorem Memory.readByte_unwritten (epoch a : Nat) :
    (⟨epoch, []⟩ : Memory).readByte a = Config.powerOnByte epoch a := rfl

/-- Settles O9: all three states are `State.reset` but for the fields that `State.atReset` leaves open. -/
theorem resetsLeave : Obligations.ResetsLeave := by
  refine ⟨State.atReset .., fun s rest hh => ?_, fun s => ?_⟩
  · exact ⟨s.powerOn rest, step_powerOn hh, State.atReset .., rfl, rfl, Memory.readByte_unwritten _⟩
  · exact ⟨_, execSreset_eq s, State.atReset .., rfl, rfl, rfl, rfl⟩

/-- Settles O56: the default parameters are valid, and no byte is written. -/
theorem invAtReset : Obligations.InvAtReset :=
  ⟨State.Inv.atReset defaultConfig defaultConfig_valid [] ⟨0, 0, 0, 0⟩ none ⟨0, []⟩ List.Pairwise.nil,
    List.forall_mem_nil _⟩

end Sys2Proof.Machine

namespace Sys2Proof.Machine

/-! ## The moves of a phase (R314) -/

section
variable {s : State}

/-- The phase of a CTU depends on the list of phases only (R38). -/
theorem State.phaseOf_congr {t : State} (h : t.phase = s.phase) (j : Nat) : t.phaseOf j = s.phaseOf j := by
  rw [State.phaseOf, State.phaseOf, h]

theorem State.phaseOf_dbfCtuEffect (s : State) (dir : Dir) (cx cy j : Nat) :
    (dbfCtuEffect dir cx cy s).phaseOf j = if j = s.ctuIdx cx cy then phaseAfter dir else s.phaseOf j := by
  rw [dbfCtuEffect_eq]
  exact State.phaseOf_setPhase (s.setMemory _) _ _ _

/-- `BS_CTU` moves the phase of its CTU from `IDLE` or leaves it at `BS_DONE` (R201, R314). -/
theorem phaseOf_bsCtuEffect_cases {cx cy : Nat} (hc : ∀ x ∈ bsCtuChecks cx cy s, x = none) (j : Nat) :
    (bsCtuEffect cx cy s).phaseOf j = s.phaseOf j
      ∨ (j = s.ctuIdx cx cy ∧ s.phaseOf j = .idle ∧ (bsCtuEffect cx cy s).phaseOf j = .bsDone) := by
  obtain ⟨-, -, hearly, -⟩ := bsCtuChecks_pass.mp hc
  rw [State.phaseOf_bsCtuEffect]
  by_cases hj : j = s.ctuIdx cx cy
  · rw [if_pos hj]
    rw [← hj] at hearly
    rcases Phase.rank_lt_two.mp hearly with hidle | hdone
    · exact .inr ⟨hj, hidle, rfl⟩
    · exact .inl hdone.symm
  · exact .inl (if_neg hj)

/-- `DBF_CTU` moves the phase of its CTU when it is in time (R230, R314). -/
theorem phaseOf_dbfCtuEffect_cases {dir : Dir} {cx cy : Nat} (hc : ∀ x ∈ dbfCtuChecks dir cx cy s, x = none)
    (j : Nat) :
    (dbfCtuEffect dir cx cy s).phaseOf j = s.phaseOf j
      ∨ (j = s.ctuIdx cx cy ∧ s.filterTooEarly dir cx cy = false
        ∧ (dbfCtuEffect dir cx cy s).phaseOf j = phaseAfter dir) := by
  obtain ⟨-, -, hin, -⟩ := dbfCtuChecks_pass.mp hc
  rw [State.phaseOf_dbfCtuEffect]
  by_cases hj : j = s.ctuIdx cx cy
  · exact .inr ⟨hj, hin, if_pos hj⟩
  · exact .inl (if_neg hj)

/-- The phase of every CTU is at least of a rank, by index (R23). -/
theorem State.allPhases_iff_index {n : Nat} : s.allPhases n = true ↔
    ∀ k < s.ctusW * s.ctusH, n ≤ (s.phaseOf k).rank := by
  simp [State.allPhases, State.ctuIndices]

end

/-- Settles O24: of the commands that have an effect on a phase, the brackets and `SRESET` make all `IDLE`, and the CTU
commands move the phase of their CTU from where their checks demand. -/
theorem phasesMoveByTheTable : Obligations.PhasesMoveByTheTable := by
  intro i s t j ht
  rcases exec_cases i s with ⟨rfl, he⟩ | ⟨reg, r, -, -, he⟩ | ⟨-, he⟩ | ⟨r, -, -, he⟩ | ⟨-, hc, he⟩
  all_goals obtain rfl := Host.Outcome.next.inj (he.symm.trans ht)
  · exact .inr (.inl ⟨.inl rfl, State.phaseOf_nil rfl j⟩)
  · exact .inl rfl
  · exact .inl rfl
  · exact .inl rfl
  rcases okState_phase i s with hsame | rfl | rfl | rfl | ⟨cx, cy, rfl⟩ | ⟨dir, cx, cy, rfl⟩
  · exact .inl (State.phaseOf_congr hsame j)
  · exact .inr (.inl ⟨.inl rfl, State.phaseOf_nil rfl j⟩)
  · exact .inr (.inl ⟨.inr (.inl rfl), State.phaseOf_nil rfl j⟩)
  · exact .inr (.inl ⟨.inr (.inr rfl), State.phaseOf_nil rfl j⟩)
  · rcases phaseOf_bsCtuEffect_cases hc j with hsame | ⟨hj, hidle, hafter⟩
    · exact .inl hsame
    · exact .inr (.inr (.inl ⟨cx, cy, rfl, hj, hidle, hafter⟩))
  · rcases phaseOf_dbfCtuEffect_cases hc j with hsame | ⟨hj, hin, hafter⟩
    · exact .inl hsame
    cases dir with
    | ver =>
      obtain ⟨hdone, hleft⟩ := State.verInTime.mp hin
      exact .inr (.inr (.inr (.inl ⟨cx, cy, rfl, hj, hj ▸ hdone, hleft, hafter⟩)))
    | hor =>
      obtain ⟨hver, hall, habove⟩ := State.horInTime.mp hin
      exact .inr (.inr (.inr (.inr
        ⟨cx, cy, rfl, hj, hj ▸ hver, State.allPhases_iff_index.mp hall, habove, hafter⟩)))

/-! ## The picture locked by the horizontal pass (R318) -/

/-- A position inside a length, in units of `p`, lies in one of the parts of size `c` that cover the length (R13). -/
theorem scaled_div_lt {x n p c : Nat} (hp : 0 < p) (hc : 0 < c) (h : x < n / p) : x * p / c < (n + c - 1) / c := by
  have hinside : x * p < n := (Nat.mul_lt_mul_of_pos_right h hp).trans_le (Nat.div_mul_le_self n p)
  calc x * p / c < x * p / c + 1 := Nat.lt_succ_self _
    _ = (x * p + c) / c := (Nat.add_div_right _ hc).symm
    _ ≤ (n + c - 1) / c := Nat.div_le_div_right (by omega)

section
variable {s : State}

/-- The CTU of a sample of a plane is one of the picture (R13, R191). -/
theorem State.sampleColumn_lt {c : Plane} {x : Nat} (h : x < s.planeW c) :
    x * 2 ^ s.shiftX c / s.ctuSize < s.ctusW :=
  scaled_div_lt (Nat.two_pow_pos _) s.ctuSize_pos h

theorem State.sampleRow_lt {c : Plane} {y : Nat} (h : y < s.planeH c) :
    y * 2 ^ s.shiftY c / s.ctuSize < s.ctusH :=
  scaled_div_lt (Nat.two_pow_pos _) s.ctuSize_pos h

/-- A block inside its plane is too late once every CTU is `VER_DONE` or later, its first CTU being one of them. -/
theorem State.blockTooLate_of_allPhases {o : BlkOps} (hall : ∀ j < s.ctusW * s.ctusH, 2 ≤ (s.phaseOf j).rank)
    (hin : s.blockOutside o = false) : s.blockTooLate o = true := by
  obtain ⟨-, hx, hy⟩ := State.blockOutside_eq_false hin
  have hw : 0 < o.w := Nat.two_pow_pos _
  have hh : 0 < o.h := Nat.two_pow_pos _
  have hidx := State.ctuIdx_lt (State.sampleColumn_lt (s := s) (c := o.plane) (x := o.x.toNat) (by omega))
    (State.sampleRow_lt (s := s) (c := o.plane) (y := o.y.toNat) (by omega))
  refine State.blockTooLate_iff.mpr ⟨_, _, le_rfl, ?_, le_rfl, ?_, Phase.two_le_rank.mp (hall _ hidx)⟩
  · exact Nat.div_le_div_right (Nat.mul_le_mul_right _ (by omega))
  · exact Nat.div_le_div_right (Nat.mul_le_mul_right _ (by omega))

/-- Under the invariant a phase other than `IDLE` is one of a picture (R38, R274). -/
theorem State.Inv.picActive_of_phaseOf (hinv : s.Inv) {k : Nat} (hk : s.phaseOf k ≠ .idle) : s.picActive = true := by
  cases hp : s.picActive with
  | true => rfl
  | false => exact absurd (State.phaseOf_nil (hinv.outside hp) k) hk

variable {cx cy : BitVec 16}

/-- `BS_CTU` of a CTU that is `VER_DONE` or later raises `ORDER` (R201). -/
theorem exec_bsCtu_tooLate (hf : s.faulted = false) (hp : s.picActive = true) (hx : cx.toNat < s.ctusW)
    (hy : cy.toNat < s.ctusH) (hlate : 2 ≤ (s.phaseOf (s.ctuIdx cx.toNat cy.toNat)).rank) :
    exec (.bsCtu cx cy) s = .next (s.afterFault 8 s.latch.w1.toNat) :=
  exec_bsCtu_fault (r := ⟨.order, _⟩) hf
    (by simp [bsCtuChecks, failIf, hp, Nat.not_le.mpr hx, Nat.not_le.mpr hy, hlate])

/-- `DBF_CTU` out of time raises `ORDER` (R230). -/
theorem exec_dbfCtu_tooEarly {dir : Dir} (hf : s.faulted = false) (hp : s.picActive = true) (hx : cx.toNat < s.ctusW)
    (hy : cy.toNat < s.ctusH) (hearly : s.filterTooEarly dir cx.toNat cy.toNat = true) :
    exec (.dbfCtu dir cx cy) s = .next (s.afterFault 8 s.latch.w1.toNat) :=
  exec_dbfCtu_fault (r := ⟨.order, _⟩) hf
    (by simp [dbfCtuChecks, failIf, hp, Nat.not_le.mpr hx, Nat.not_le.mpr hy, hearly])

/-- A CTU whose vertical edges are filtered is not `BS_DONE`, so `DBF_CTU dir=VER` is out of time (R230). -/
theorem State.verTooEarly_of_rank {cx cy : Nat} (h : 2 ≤ (s.phaseOf (s.ctuIdx cx cy)).rank) :
    s.filterTooEarly .ver cx cy = true := by
  refine State.verTooEarly.mpr (.inl fun hdone => ?_)
  rw [hdone] at h
  exact absurd h (by decide)

/-- `ITX_BLK` into a plane faults once every CTU is `VER_DONE` or later: the block is outside its plane or too late, if
no other check fails first (R186). -/
theorem firstRaised_itxBlk_of_allPhases {o : BlkOps} (hall : ∀ j < s.ctusW * s.ctusH, 2 ≤ (s.phaseOf j).rank)
    (hro : o.resOnly = false) : ∃ r, firstRaised (itxBlkChecks o s) = some r := by
  refine Option.ne_none_iff_exists'.mp fun hnone => ?_
  have hpass := firstRaised_eq_none.mp hnone
  obtain ⟨hin, hearly⟩ : s.blockOutside o = false ∧ s.blockTooLate o = false := by
    simp only [itxBlkChecks, List.forall_mem_cons, hro] at hpass
    obtain ⟨-, -, -, hin, hearly, -⟩ := hpass
    exact ⟨by simpa using hin, by simpa using hearly⟩
  exact absurd ((State.blockTooLate_of_allPhases hall hin).symm.trans hearly) (by decide)

end

/-- Settles O25: a CTU is `HOR_DONE` only in a picture in which every CTU is `VER_DONE` or later, which is too late for
the three commands. -/
theorem horizontalPassLocksThePicture : Obligations.HorizontalPassLocksThePicture := by
  intro s k hinv hf hk hhor cx cy hx hy
  have hp : s.picActive = true := hinv.picActive_of_phaseOf (k := k) (by simp [hhor])
  have hall := hinv.directions k hk hhor
  have hlate := hall _ (State.ctuIdx_lt hx hy)
  refine ⟨exec_bsCtu_tooLate hf hp hx hy hlate,
    exec_dbfCtu_tooEarly hf hp hx hy (State.verTooEarly_of_rank hlate), fun o t hro ht => ?_⟩
  obtain ⟨r, hr⟩ := firstRaised_itxBlk_of_allPhases hall hro
  obtain rfl := Host.Outcome.next.inj ((exec_itxBlk_fault hf hr).symm.trans ht)
  exact ⟨rfl, rfl, rfl⟩

end Sys2Proof.Machine

namespace Sys2Proof

/-! ## The words of the spec (R271, R272, R277, R298) -/

/-- Settles O3: the decoder reads each word. -/
theorem specWordsDecode : Obligations.SpecWordsDecode := ⟨rfl, rfl, rfl, rfl, rfl, rfl⟩

end Sys2Proof
